-- ==== Sys2Proof/Word.lean ====
section
/-! DEFINITION. The widths of the block: a register is 32 bits (10_state.md, opening paragraph), the memories and the
medium hold bytes. -/
namespace Sys2Proof

/-- A 32-bit register value, a command word, a word of a host access (10_state.md, 30_encoding.md R90). -/
abbrev Word := BitVec 32

/-- One byte of a memory or of the medium (10_state.md R43 to R45). -/
abbrev Byte := BitVec 8

end Sys2Proof
end

