-- ==== Sys2Proof/Config.lean ====
section
/-! DEFINITION. The implementation parameters of 00_scope.md R9, their legal ranges and defaults, the figures that follow
from them, and the free values the spec leaves open. -/
namespace Sys2Proof

/-- The parameters of one block (00_scope.md R9). A state carries them in its field `cfg`, no step changes them, and a
statement about every state holds for every choice of them (log 1, DESIGN CHOICE). -/
structure Config where
  /-- SIZE_CODE, the size code n of every sector -/
  sizeCode : Nat
  /-- MAX_SECTORS, the capacity of the validity array and of TRACK, in sectors -/
  maxSectors : Nat
  /-- PULSE_CAP, bytes of PULSE memory -/
  pulseCap : Nat
  /-- GAP4A -/
  gap4a : Nat
  /-- GAP_PRESYNC -/
  gapPresync : Nat
  /-- GAP1 -/
  gap1 : Nat
  /-- GAP2 -/
  gap2 : Nat
  /-- GAP3[0] -/
  gap3At0 : Nat
  /-- GAP3[1] -/
  gap3At1 : Nat
  /-- GAP3[2] -/
  gap3At2 : Nat
  /-- GAP3[3] -/
  gap3At3 : Nat
  /-- CRC_BASE, the CRC value before the three preamble bytes -/
  crcBase : BitVec 16
deriving DecidableEq, Repr

namespace Config

/-- The stated defaults (00_scope.md R9). -/
def default : Config where
  sizeCode := 2
  maxSectors := 18
  pulseCap := 262144
  gap4a := 80
  gapPresync := 12
  gap1 := 50
  gap2 := 22
  gap3At0 := 32
  gap3At1 := 54
  gap3At2 := 84
  gap3At3 := 116
  crcBase := 0xFFFF#16

/-- The legal ranges (00_scope.md R9). -/
abbrev legal (c : Config) : Prop :=
  c.sizeCode ≤ 3 ∧ 1 ≤ c.maxSectors ∧ c.maxSectors ≤ 32 ∧ 1 ≤ c.pulseCap ∧ c.pulseCap ≤ 1048576 ∧
  c.gap4a ≤ 255 ∧ c.gapPresync ≤ 255 ∧ c.gap1 ≤ 255 ∧ c.gap2 ≤ 255 ∧
  c.gap3At0 ≤ 255 ∧ c.gap3At1 ≤ 255 ∧ c.gap3At2 ≤ 255 ∧ c.gap3At3 ≤ 255

/-- SECTOR_BYTES = 128 << SIZE_CODE (00_scope.md R9). -/
def sectorBytes (c : Config) : Nat := 128 * 2 ^ c.sizeCode

/-- TRACK_BYTES = MAX_SECTORS × SECTOR_BYTES (00_scope.md R9). -/
def trackBytes (c : Config) : Nat := c.maxSectors * c.sectorBytes

/-- REC_CAP = SECTOR_BYTES + 3 (00_scope.md R9). -/
def recCap (c : Config) : Nat := c.sectorBytes + 3

/-- GAP3[SIZE_CODE] (00_scope.md R9, 45_track_decode_encode.md R243); a size code above 3 is not legal. -/
def gap3 (c : Config) : Nat :=
  match c.sizeCode with
  | 0 => c.gap3At0
  | 1 => c.gap3At1
  | 2 => c.gap3At2
  | _ => c.gap3At3

end Config

/-- FREE VALUE: what a memory byte holds after a reset until it is written. The contents of REC, TRACK and PULSE are not
cleared and "each byte is a draw" (70_reset_and_hazards.md R372). The first argument numbers the reset, the second is the
block address (log 2). -/
opaque Config.powerOnByte : Nat → Nat → Byte

/-- FREE VALUE: what a host read against the busy rule returns, "a draw (any value of its width)" (20_memory.md R67). The
argument numbers the read (log 3). -/
opaque Config.busyDraw : Nat → Word

end Sys2Proof
end

