-- ==== Sys2Proof/Syntax.lean ====
section
/-! DEFINITION. The instructions: one constructor per row of spec/opcode_table.json, the 13 commands (30_encoding.md R92)
and the 6 element forms of the packed pulse stream (30_encoding.md R98). -/
namespace Sys2Proof

/-- The three operand bits every command word carries (30_encoding.md R91). A command that does not use a flag ignores it
(R95). -/
structure Flags where
  /-- P, bit 8: the pulse stream is packed -/
  packed : Bool
  /-- C, bit 9: clear VALID before decoding -/
  clrv : Bool
  /-- F, bit 10, MODE: 0 MFM, 1 FM -/
  fm : Bool
deriving DecidableEq, Repr

/-- The rows of the opcode table. -/
inductive Instr where
  /-- NOP, OP 0x00 (46_track_buffer_system.md R270) -/
  | nop (f : Flags)
  /-- CLASSIFY, OP 0x01 (41_classifier_sync.md R125) -/
  | classify (f : Flags)
  /-- READSYM, OP 0x02 (41_classifier_sync.md R126) -/
  | readsym (f : Flags)
  /-- SYNC, OP 0x03 (41_classifier_sync.md R129) -/
  | sync (f : Flags)
  /-- DEMOD, OP 0x04 (44_line_code.md R203) -/
  | demod (f : Flags)
  /-- CRC, OP 0x05 (42_crc.md R155) -/
  | crc (f : Flags)
  /-- PACK, OP 0x06 (43_pulse_codec.md R177) -/
  | pack (f : Flags)
  /-- UNPACK, OP 0x07 (43_pulse_codec.md R178) -/
  | unpack (f : Flags)
  /-- MOD, OP 0x08 (44_line_code.md R209) -/
  | mod (f : Flags)
  /-- DECODE, OP 0x09 (45_track_decode_encode.md R230) -/
  | decode (f : Flags)
  /-- ENCODE, OP 0x0A (45_track_decode_encode.md R242) -/
  | encode (f : Flags)
  /-- CLRVALID, OP 0x0B (46_track_buffer_system.md R271) -/
  | clrvalid (f : Flags)
  /-- MARKWR, OP 0x0C (46_track_buffer_system.md R273) -/
  | markwr (f : Flags)
  /-- END: the byte 0x00 (30_encoding.md R98) -/
  | endMark
  /-- GW1: b0 in 0x01..0xF9 (30_encoding.md R98) -/
  | gw1 (b0 : Byte)
  /-- GW2: b0 in 0xFA..0xFE, b1 ≠ 0 (30_encoding.md R98) -/
  | gw2 (b0 b1 : Byte)
  /-- GW2-END: b0 in 0xFA..0xFE, b1 = 0 (30_encoding.md R98) -/
  | gw2End (b0 : Byte)
  /-- GW6: 0xFF 0x02 and four payload bytes (30_encoding.md R98) -/
  | gw6 (p0 p1 p2 p3 : Byte)
  /-- GW6-SKIP: 0xFF, b1 ≠ 0x02, and four payload bytes (30_encoding.md R98) -/
  | gw6Skip (b1 p0 p1 p2 p3 : Byte)
deriving DecidableEq, Repr

end Sys2Proof
end

