-- ==== Sys2Proof/WellFormed.lean ====
section
/-! DEFINITION. Which instructions an encoding can hold: the byte ranges of the element forms (30_encoding.md R98). Every
command is well formed, whatever its three flags (30_encoding.md R91, R95). -/
namespace Sys2Proof

/-- The first byte of a GW1 element: 0x01 ≤ b0 ≤ 0xF9 (30_encoding.md R98). -/
def isGw1Lead (b0 : Byte) : Bool := decide (1 ≤ b0.toNat) && decide (b0.toNat ≤ 0xF9)

/-- The first byte of a GW2 or GW2-END element: 0xFA ≤ b0 ≤ 0xFE (30_encoding.md R98). -/
def isGw2Lead (b0 : Byte) : Bool := decide (0xFA ≤ b0.toNat) && decide (b0.toNat ≤ 0xFE)

/-- The instruction has an encoding. -/
def WellFormed : Instr → Bool
  | .nop _ => true
  | .classify _ => true
  | .readsym _ => true
  | .sync _ => true
  | .demod _ => true
  | .crc _ => true
  | .pack _ => true
  | .unpack _ => true
  | .mod _ => true
  | .decode _ => true
  | .encode _ => true
  | .clrvalid _ => true
  | .markwr _ => true
  | .endMark => true
  | .gw1 b0 => isGw1Lead b0
  | .gw2 b0 b1 => isGw2Lead b0 && decide (b1 ≠ 0#8)
  | .gw2End b0 => isGw2Lead b0
  | .gw6 _ _ _ _ => true
  | .gw6Skip b1 _ _ _ _ => decide (b1 ≠ 2#8)

end Sys2Proof
end

