-- ==== Sys2Proof/Decode.lean ====
section
/-! DEFINITION. The decoder, total on every command word and on every byte list, rejecting by name; then the encoder,
written from the same tables (30_encoding.md R91, R92, R98); then the host's view of the two, `decodeTableWord`. -/
namespace Sys2Proof

/-- Why a word or a byte list is no instruction. -/
inductive Reject where
  /-- CMD[31:11] is not zero (30_encoding.md R94) -/
  | reservedBits
  /-- OP is 0x0D..0xFF (30_encoding.md R94, R97) -/
  | reservedOpcode
  /-- the element's bytes extend past the end of the stream, which then reads as END (30_encoding.md R98) -/
  | truncated
  /-- no byte is left: the end of the stream (43_pulse_codec.md R173) -/
  | pastEnd
deriving DecidableEq, Repr

/-- The opcode map (30_encoding.md R92). -/
def decodeOpcode (op : Nat) (f : Flags) : Except Reject Instr :=
  match op with
  | 0x00 => .ok (.nop f)
  | 0x01 => .ok (.classify f)
  | 0x02 => .ok (.readsym f)
  | 0x03 => .ok (.sync f)
  | 0x04 => .ok (.demod f)
  | 0x05 => .ok (.crc f)
  | 0x06 => .ok (.pack f)
  | 0x07 => .ok (.unpack f)
  | 0x08 => .ok (.mod f)
  | 0x09 => .ok (.decode f)
  | 0x0A => .ok (.encode f)
  | 0x0B => .ok (.clrvalid f)
  | 0x0C => .ok (.markwr f)
  | _ => .error .reservedOpcode

/-- The operand bits [10:8] of a command word (30_encoding.md R91). -/
def flagsOfWord (w : Word) : Flags := ⟨w.getLsbD 8, w.getLsbD 9, w.getLsbD 10⟩

/-- A command word: OP in [7:0], flags in [10:8], zeros in [31:11] (30_encoding.md R91, R94). -/
def decodeCommand (w : Word) : Except Reject Instr :=
  if w.toNat / 2048 = 0 then decodeOpcode (w.toNat % 256) (flagsOfWord w) else .error .reservedBits

/-- The element at the head of a packed stream, and the bytes after it (30_encoding.md R98). -/
def decodeElement : List Byte → Except Reject (Instr × List Byte)
  | [] => .error .pastEnd
  | b0 :: rest =>
    if b0 = 0#8 then .ok (.endMark, rest)
    else if b0.toNat ≤ 0xF9 then .ok (.gw1 b0, rest)
    else if b0.toNat ≤ 0xFE then
      match rest with
      | b1 :: r => if b1 = 0#8 then .ok (.gw2End b0, r) else .ok (.gw2 b0 b1, r)
      | [] => .error .truncated
    else
      match rest with
      | b1 :: p0 :: p1 :: p2 :: p3 :: r =>
        if b1 = 2#8 then .ok (.gw6 p0 p1 p2 p3, r) else .ok (.gw6Skip b1 p0 p1 p2 p3, r)
      | _ => .error .truncated

/-- An encoded instruction: a command word written to CMD, or the bytes of an element in PULSE. -/
inductive Code where
  | command (w : Word)
  | element (bytes : List Byte)
deriving DecidableEq, Repr

/-- Decoding of either kind of encoded instruction. -/
def decode : Code → Except Reject Instr
  | .command w => decodeCommand w
  | .element bytes => (decodeElement bytes).map Prod.fst

/-- A command word from its opcode and flags: match | operand bits (30_encoding.md R91). -/
def commandWord (op : Nat) (f : Flags) : Word :=
  BitVec.ofNat 32 (op + f.packed.toNat * 256 + f.clrv.toNat * 512 + f.fm.toNat * 1024)

/-- The encoder (30_encoding.md R91, R92, R98). -/
def encode : Instr → Code
  | .nop f => .command (commandWord 0x00 f)
  | .classify f => .command (commandWord 0x01 f)
  | .readsym f => .command (commandWord 0x02 f)
  | .sync f => .command (commandWord 0x03 f)
  | .demod f => .command (commandWord 0x04 f)
  | .crc f => .command (commandWord 0x05 f)
  | .pack f => .command (commandWord 0x06 f)
  | .unpack f => .command (commandWord 0x07 f)
  | .mod f => .command (commandWord 0x08 f)
  | .decode f => .command (commandWord 0x09 f)
  | .encode f => .command (commandWord 0x0A f)
  | .clrvalid f => .command (commandWord 0x0B f)
  | .markwr f => .command (commandWord 0x0C f)
  | .endMark => .element [0x00#8]
  | .gw1 b0 => .element [b0]
  | .gw2 b0 b1 => .element [b0, b1]
  | .gw2End b0 => .element [b0, 0x00#8]
  | .gw6 p0 p1 p2 p3 => .element [0xFF#8, 0x02#8, p0, p1, p2, p3]
  | .gw6Skip b1 p0 p1 p2 p3 => .element [0xFF#8, b1, p0, p1, p2, p3]

/-- The length in bytes of the longest element (30_encoding.md R98). -/
def longestElement : Nat := 6

/-- The low `n` bytes of a number, least significant first: how the bytes of an element lie in PULSE. -/
def bytesOfNat : Nat → Nat → List Byte
  | 0, _ => []
  | n + 1, w => BitVec.ofNat 8 (w % 256) :: bytesOfNat n (w / 256)

/-- A row of the opcode table is a command iff the table gives it 32 bits; the element rows have 8, 16 or 48. -/
def isCommandWidth (nbits : Nat) : Bool := nbits == 32

/-- The encoded instruction whose table bits are `w`, every bit above `nbits` zero. -/
def codeOfTable (nbits w : Nat) : Code :=
  if isCommandWidth nbits then .command (BitVec.ofNat 32 w)
  else .element (bytesOfNat longestElement (w % 2 ^ nbits))

/-- What this decoder reads from the bits of an opcode-table row. -/
def decodeTableWord (nbits w : Nat) : Option Instr := (decode (codeOfTable nbits w)).toOption

end Sys2Proof
end

