-- ==== Sys2Proof/Machine/State.lean ====
section
/-! DEFINITION. The state of the block and of what drives it, as plain data; the reasons a step can stop; the state after
reset (10_state.md, 20_memory.md R60 to R67, 70_reset_and_hazards.md R371, R372). -/
namespace Sys2Proof.Machine

/-- A symbol of the pulse stream (00_scope.md R15, R16; 30_encoding.md R100). -/
inductive Symbol where
  | short
  | medium
  | long
deriving DecidableEq, Repr

/-- PARITY, the type of the next raw cell of the stream (10_state.md R35, 44_line_code.md R201). It is also the kind of a
modulated cell (44_line_code.md R205). -/
inductive Parity where
  | clock
  | data
deriving DecidableEq, Repr

/-- PHASE (10_state.md R47). -/
inductive Phase where
  | idle
  | pending
deriving DecidableEq, Repr

/-- The width of a host access: 1, 2 or 4 bytes (20_memory.md R61). -/
inductive Width where
  | byte
  | half
  | word
deriving DecidableEq, Repr

/-- The command errors (60_exceptions.md R331). -/
inductive ErrCode where
  | illegalCmd
  | badConfig
  | badArg
deriving DecidableEq, Repr

/-- The regions of the address map (20_memory.md R62). -/
inductive Region where
  | regs
  | recMem
  | track
  | pulse
deriving DecidableEq, Repr

/-- The registers of the map (10_state.md R20). -/
inductive Reg where
  | id | cmd | status | irqen | t2 | t3 | t1 | nsect | cyl | head | plen | outcap | cursor | wpos
  | arg0 | arg1 | result | syncreg | dstate | lastidam | synccnt | valid | cache
deriving DecidableEq, Repr

/-- STATUS without BUSY, which is PHASE made visible (10_state.md R24, R47; log 9). -/
structure Status where
  done : Bool
  err : Bool
  errcode : BitVec 4
  eof : Bool
  full : Bool
  sync : Bool
  trunc : Bool
  idamv : Bool
  busyerr : Bool
deriving DecidableEq, Repr

/-- IRQEN (10_state.md R25). -/
structure IrqEn where
  doneIe : Bool
  errIe : Bool
deriving DecidableEq, Repr

/-- DSTATE (10_state.md R35). -/
structure DState where
  parity : Parity
  encPrev : Bool
  encRun : BitVec 4
deriving DecidableEq, Repr

/-- CACHE (10_state.md R41). -/
structure Cache where
  dirty : Bool
  tagv : Bool
  tag : BitVec 16
deriving DecidableEq, Repr

/-- The bytes written to REC, TRACK and PULSE since the last reset, by block address, addresses strictly rising. An address
that is not listed holds its reset draw (70_reset_and_hazards.md R372; log 2). -/
abbrev Memory := List Host.Cell

/-- An address the host can name: 21 bits (20_memory.md R60). -/
abbrev BlockAddr := BitVec 21

/-- One access of the host (20_memory.md R61); a value wider than the access has its upper bits ignored. -/
inductive BusOp where
  | read (addr : BlockAddr) (width : Width)
  | write (addr : BlockAddr) (width : Width) (value : Word)
deriving DecidableEq, Repr

/-- Who moves next (00_scope.md R17, 20_memory.md R64, 70_reset_and_hazards.md R370; log 4). -/
inductive Turn where
  /-- the host makes one access -/
  | host (op : BusOp)
  /-- the host repeats `rd STATUS` until BUSY = 0 (30_encoding.md R104) -/
  | poll
  /-- the block takes its PERFORM step, if one is pending -/
  | block
  /-- the platform resets the block -/
  | reset
deriving DecidableEq, Repr

/-- HOST_BUS_ERROR(address, width) (20_memory.md R63). -/
structure BusError where
  addr : BlockAddr
  width : Width
deriving DecidableEq, Repr

/-- The state of the machine. Field by field: INVENTORY.md, '## State'. -/
structure State where
  cfg : Config
  phase : Phase
  cmd : Word
  status : Status
  irqen : IrqEn
  t2 : Word
  t3 : Word
  t1 : BitVec 16
  nsect : Byte
  cyl : Byte
  head : Byte
  plen : Word
  outcap : Word
  cursor : Word
  wpos : Word
  arg0 : Word
  arg1 : Word
  result : Word
  syncreg : BitVec 28
  dstate : DState
  lastidam : Word
  synccnt : Word
  valid : Word
  cache : Cache
  mem : Memory
  epoch : Nat
  draws : Nat
  turns : List Turn
  hostFault : Option BusError
  busRead : Option Word
deriving DecidableEq, Repr

/-- Why the machine stops with a fault. -/
inductive Fault where
  /-- HOST_BUS_ERROR(address, width): the step raises it when the host has made an access the map does not allow and
  nothing is left to do for the block or the platform (20_memory.md R63, 93_implementation_defined.md part 1). Safe: the
  spec stops the host agent there. -/
  | hostBusError (addr : BlockAddr) (width : Width)
deriving DecidableEq, Repr

/-- Why a step has no meaning. -/
inductive Refusal where
  /-- `exec` raises it for an instruction that has no meaning in the model yet. Safe: nothing can be proved of such a
  step. -/
  | notModelled (mnemonic : String)
  /-- SYNC, DEMOD, MOD, DECODE and ENCODE raise it when their MODE flag selects FM: refuse(FM_FRAMING_NOT_IN_SOURCE)
  (30_encoding.md R96, 60_exceptions.md R337). Safe: the spec forbids a model to give such a command an outcome. -/
  | fmFramingNotInSource
deriving DecidableEq, Repr

/-- STATUS after reset (70_reset_and_hazards.md R371). -/
def Status.reset : Status := ⟨false, false, 0#4, false, false, false, false, false, false⟩

/-- IRQEN after reset (70_reset_and_hazards.md R371). -/
def IrqEn.reset : IrqEn := ⟨false, false⟩

/-- DSTATE after reset (70_reset_and_hazards.md R371). -/
def DState.reset : DState := ⟨.clock, false, 0#4⟩

/-- CACHE after reset (70_reset_and_hazards.md R371). -/
def Cache.reset : Cache := ⟨false, false, 0#16⟩

/-- A block with given parameters right after its first reset (70_reset_and_hazards.md R371, R372). -/
def State.resetWith (cfg : Config) : State where
  cfg := cfg
  phase := .idle
  cmd := 0#32
  status := .reset
  irqen := .reset
  t2 := 0#32
  t3 := 0#32
  t1 := 0#16
  nsect := 0#8
  cyl := 0#8
  head := 0#8
  plen := 0#32
  outcap := 0#32
  cursor := 0#32
  wpos := 0#32
  arg0 := 0#32
  arg1 := 0#32
  result := 0#32
  syncreg := 0#28
  dstate := .reset
  lastidam := 0#32
  synccnt := 0#32
  valid := 0#32
  cache := .reset
  mem := []
  epoch := 0
  draws := 0
  turns := []
  hostFault := none
  busRead := none

/-- The machine right after reset, with the default parameters (00_scope.md R9, 70_reset_and_hazards.md R371). -/
def State.reset : State := .resetWith .default

end Sys2Proof.Machine
end

