-- ==== Sys2Proof/Machine/Ops.lean ====
section
/-! DEFINITION. The operations over memory and registers that the meanings share: byte access, the completion of a command,
the command error (the block's one exception) and its acknowledgement beside it, the issue of a command, the register
file, and reset. -/
namespace Sys2Proof.Machine

/-! ## Memory -/

/-- What is listed at an address. -/
def Memory.byte? (m : Memory) (a : Nat) : Option Byte :=
  match m.dropWhile (fun c => decide (c.1 < a)) with
  | (k, b) :: _ => if k = a then some b else none
  | [] => none

/-- Consecutive cells from an address on. -/
def Memory.cells : Nat → List Byte → Memory
  | _, [] => []
  | a, b :: bs => (a, b) :: Memory.cells (a + 1) bs

/-- Writes consecutive bytes from an address on. -/
def Memory.store (m : Memory) (a : Nat) (bs : List Byte) : Memory :=
  m.takeWhile (fun c => decide (c.1 < a)) ++ Memory.cells a bs
    ++ m.dropWhile (fun c => decide (c.1 < a + bs.length))

/-- The canonical form: addresses strictly rising. (A listed address is one written since the last reset: an unlisted one
holds a draw, which no listed byte can be compared with; log 2.) -/
abbrev Memory.wf (m : Memory) : Prop := m.Pairwise (fun x y => x.1 < y.1)

/-- What an unlisted address reads as: the draw of the last reset (70_reset_and_hazards.md R372). -/
def State.unlisted (s : State) (a : Nat) : Byte := Config.powerOnByte s.epoch a

/-- One byte of REC, TRACK or PULSE by its block address. -/
def State.readByte (s : State) (a : Nat) : Byte := (s.mem.byte? a).getD (s.unlisted a)

/-- The bytes at `a, a+1, …`, read in one pass: byte for byte what `readByte` gives (Laws.Memory.readBytes_eq). -/
def Memory.window (dflt : Nat → Byte) : Nat → Nat → Memory → List Byte
  | 0, _, _ => []
  | n + 1, a, m =>
    match m.dropWhile (fun c => decide (c.1 < a)) with
    | (k, b) :: r => (if k = a then b else dflt a) :: Memory.window dflt n (a + 1) ((k, b) :: r)
    | [] => dflt a :: Memory.window dflt n (a + 1) []

/-- `n` bytes from block address `a` on. -/
def State.readBytes (s : State) (a n : Nat) : List Byte := Memory.window s.unlisted n a s.mem

/-- Writes consecutive bytes from block address `a` on. -/
def State.storeBytes (s : State) (a : Nat) (bs : List Byte) : State := { s with mem := s.mem.store a bs }

/-- The base of the REC memory (20_memory.md R62). -/
def recBase : Nat := 0x001000

/-- The base of the TRACK memory (20_memory.md R62). -/
def trackBase : Nat := 0x010000

/-- The base of the PULSE memory (20_memory.md R62). -/
def pulseBase : Nat := 0x100000

/-- The block address of the first byte of track slot `i` (10_state.md R44, 46_track_buffer_system.md R272). -/
def slotAddr (cfg : Config) (i : Nat) : Nat := trackBase + i * cfg.sectorBytes

/-! ## The end of a command -/

/-- The completion of a command (20_memory.md R64): BUSY ← 0, DONE ← 1, PHASE ← IDLE. -/
def State.complete (s : State) : State := { s with phase := .idle, status := { s.status with done := true } }

/-- The code of a command error (60_exceptions.md R331). -/
def ErrCode.code : ErrCode → BitVec 4
  | .illegalCmd => 1#4
  | .badConfig => 2#4
  | .badArg => 3#4

/-- `raise CmdError(code)` (60_exceptions.md R333): the one exception of the block. ERR and ERRCODE are set, the command
completes, no other state changes; there is no handler, vector, saved pc or mode. -/
def State.cmdError (e : ErrCode) (s : State) : State :=
  State.complete { s with status := { s.status with err := true, errcode := e.code } }

/-- The acknowledgement beside it: a host write to STATUS clears what it writes 1 to, ERR together with ERRCODE
(10_state.md R24, 60_exceptions.md R333, R341). -/
def State.ackStatus (v : Word) (s : State) : State :=
  { s with status := { s.status with
      done := s.status.done && !v.getLsbD 1
      err := s.status.err && !v.getLsbD 2
      errcode := if v.getLsbD 2 then 0#4 else s.status.errcode
      busyerr := s.status.busyerr && !v.getLsbD 13 } }

/-- A check of 60_exceptions.md R335: when it fails, the command ends with that error before any state change (R334). -/
def orError (ok : Bool) (e : ErrCode) (s : State) (k : Host.Outcome State Fault Refusal) :
    Host.Outcome State Fault Refusal :=
  if ok then k else .next (s.cmdError e)

/-- The refusal of a framing command in FM mode (30_encoding.md R96), which comes before every check but ILLEGAL_CMD
(60_exceptions.md R336). -/
def unlessFm (f : Flags) (k : Host.Outcome State Fault Refusal) : Host.Outcome State Fault Refusal :=
  if f.fm then .refused .fmFramingNotInSource else k

/-- A command that runs to its end with the effect `effect` (20_memory.md R64). -/
def finish (effect : State → State) (s : State) : Host.Outcome State Fault Refusal := .next (effect s).complete

/-! ## The registers -/

/-- The issue of a command (20_memory.md R64), the effect of a write to CMD while BUSY = 0. -/
def State.issue (v : Word) (s : State) : State :=
  { s with
    cmd := v
    phase := .pending
    status := { s.status with done := false, err := false, errcode := 0#4 } }

/-- The value of the ID register (10_state.md R22). -/
def idValue : Word := 0x464C0007#32

/-- BUSY (10_state.md R24, R47). -/
def State.busy (s : State) : Bool := decide (s.phase = .pending)

/-- PARITY as its register bit (10_state.md R35). -/
def Parity.bit : Parity → Bool
  | .clock => false
  | .data => true

/-- PARITY from its register bit (10_state.md R35). -/
def Parity.ofBit : Bool → Parity
  | false => .clock
  | true => .data

/-- STATUS as the host reads it (10_state.md R24): reserved bits 0. -/
def State.statusWord (s : State) : Word :=
  BitVec.ofNat 32 (s.busy.toNat + s.status.done.toNat * 2 + s.status.err.toNat * 4 + s.status.errcode.toNat * 16
    + s.status.eof.toNat * 256 + s.status.full.toNat * 512 + s.status.sync.toNat * 1024
    + s.status.trunc.toNat * 2048 + s.status.idamv.toNat * 4096 + s.status.busyerr.toNat * 8192)

/-- IRQEN as the host reads it (10_state.md R25). -/
def IrqEn.toWord (i : IrqEn) : Word := BitVec.ofNat 32 (i.doneIe.toNat + i.errIe.toNat * 2)

/-- IRQEN from a written word (10_state.md R25). -/
def IrqEn.ofWord (v : Word) : IrqEn := ⟨v.getLsbD 0, v.getLsbD 1⟩

/-- DSTATE as the host reads it (10_state.md R35). -/
def DState.toWord (d : DState) : Word :=
  BitVec.ofNat 32 (d.parity.bit.toNat + d.encPrev.toNat * 2 + d.encRun.toNat * 256)

/-- DSTATE from a written word (10_state.md R35). -/
def DState.ofWord (v : Word) : DState := ⟨Parity.ofBit (v.getLsbD 0), v.getLsbD 1, v.extractLsb' 8 4⟩

/-- CACHE as the host reads it (10_state.md R41). -/
def Cache.toWord (c : Cache) : Word := BitVec.ofNat 32 (c.dirty.toNat + c.tagv.toNat * 2 + c.tag.toNat * 65536)

/-- CACHE from a written word (10_state.md R41). -/
def Cache.ofWord (v : Word) : Cache := ⟨v.getLsbD 0, v.getLsbD 1, v.extractLsb' 16 16⟩

/-- The offset of a register (10_state.md R20). -/
def Reg.offset : Reg → Nat
  | .id => 0x00 | .cmd => 0x04 | .status => 0x08 | .irqen => 0x0C
  | .t2 => 0x10 | .t3 => 0x14 | .t1 => 0x18 | .nsect => 0x1C
  | .cyl => 0x20 | .head => 0x24 | .plen => 0x28 | .outcap => 0x2C
  | .cursor => 0x30 | .wpos => 0x34 | .arg0 => 0x38 | .arg1 => 0x3C
  | .result => 0x40 | .syncreg => 0x44 | .dstate => 0x48 | .lastidam => 0x4C
  | .synccnt => 0x50 | .valid => 0x54 | .cache => 0x58

/-- The registers in the order of the map (10_state.md R20). -/
def Reg.all : List Reg :=
  [.id, .cmd, .status, .irqen, .t2, .t3, .t1, .nsect, .cyl, .head, .plen, .outcap, .cursor, .wpos, .arg0, .arg1,
    .result, .syncreg, .dstate, .lastidam, .synccnt, .valid, .cache]

/-- The register at an offset; none at a reserved one (10_state.md R42). -/
def Reg.ofOffset (off : Nat) : Option Reg := Reg.all.find? (fun r => r.offset == off)

/-- A host read of a register while BUSY = 0, or of ID or STATUS (10_state.md). -/
def State.readReg (s : State) : Reg → Word
  | .id => idValue
  | .cmd => s.cmd
  | .status => s.statusWord
  | .irqen => s.irqen.toWord
  | .t2 => s.t2
  | .t3 => s.t3
  | .t1 => s.t1.setWidth 32
  | .nsect => s.nsect.setWidth 32
  | .cyl => s.cyl.setWidth 32
  | .head => s.head.setWidth 32
  | .plen => s.plen
  | .outcap => s.outcap
  | .cursor => s.cursor
  | .wpos => s.wpos
  | .arg0 => s.arg0
  | .arg1 => s.arg1
  | .result => s.result
  | .syncreg => s.syncreg.setWidth 32
  | .dstate => s.dstate.toWord
  | .lastidam => s.lastidam
  | .synccnt => s.synccnt
  | .valid => s.valid
  | .cache => s.cache.toWord

/-- A host write to a register with its side effects, while BUSY = 0 or to STATUS or IRQEN (10_state.md, 20_memory.md R72).
A read-only register and a bit no rule names ignore the write (10_state.md R20, R21). -/
def State.writeReg (s : State) (v : Word) : Reg → State
  | .id => s
  | .cmd => s.issue v
  | .status => s.ackStatus v
  | .irqen => { s with irqen := .ofWord v }
  | .t2 => { s with t2 := v }
  | .t3 => { s with t3 := v }
  | .t1 => { s with t1 := v.setWidth 16 }
  | .nsect => { s with nsect := v.setWidth 8, valid := 0#32 }
  | .cyl => { s with cyl := v.setWidth 8 }
  | .head => { s with head := v.setWidth 8 }
  | .plen => { s with plen := v }
  | .outcap => { s with outcap := v }
  | .cursor => { s with cursor := v }
  | .wpos => { s with wpos := v, status := { s.status with full := false } }
  | .arg0 => { s with arg0 := v }
  | .arg1 => { s with arg1 := v }
  | .result => s
  | .syncreg => s
  | .dstate => { s with dstate := .ofWord v }
  | .lastidam => s
  | .synccnt => s
  | .valid => s
  | .cache => { s with cache := .ofWord v }

/-! ## Reset -/

/-- The reset event (70_reset_and_hazards.md R370 to R372): a pending command is ended without being performed, every
register takes its reset value, the memories hold fresh draws. The parameters, the host's records and what is still to
happen are not the block's and stay (log 5). -/
def State.applyReset (s : State) : State :=
  { State.resetWith s.cfg with
    epoch := s.epoch + 1
    draws := s.draws
    turns := s.turns
    hostFault := s.hostFault
    busRead := s.busRead }

end Sys2Proof.Machine
end

