-- ==== Sys2Proof/Machine/Flags.lean ====
section
/-! DEFINITION. The flags and derived bits: PARITY, VALID and its count, the interrupt output, and the STATUS bits the
commands write. -/
namespace Sys2Proof.Machine

/-- The type of the cell after one of this type (44_line_code.md R201): cells alternate. -/
def Parity.next : Parity → Parity
  | .clock => .data
  | .data => .clock

/-- Bit `i` of VALID, for slot `i`, which holds sector number `i + 1` (10_state.md R40). -/
def validBit (valid : Word) (i : Nat) : Bool := valid.getLsbD i

/-- VALID with bit `i` set (10_state.md R40). -/
def setValid (valid : Word) (i : Nat) : Word := valid ||| (1#32 <<< i)

/-- popcount(VALID[n−1:0]) (45_track_decode_encode.md R230). -/
def countValid (valid : Word) : Nat → Nat
  | 0 => 0
  | n + 1 => (validBit valid n).toNat + countValid valid n

/-- The interrupt output, a level (60_exceptions.md R340). -/
def State.irq (s : State) : Bool :=
  (s.status.done && s.irqen.doneIe) || (s.status.err && s.irqen.errIe)

/-- STATUS.EOF ← b (41_classifier_sync.md R123). -/
def State.setEof (b : Bool) (s : State) : State := { s with status := { s.status with eof := b } }

/-- STATUS.SYNC ← b (41_classifier_sync.md R129). -/
def State.setSync (b : Bool) (s : State) : State := { s with status := { s.status with sync := b } }

/-- DSTATE.PARITY ← p (10_state.md R35). -/
def State.setParity (p : Parity) (s : State) : State := { s with dstate := { s.dstate with parity := p } }

/-- A register that holds a position, a length or a count takes a number modulo 2^32 (10_state.md). -/
def toWord (n : Nat) : Word := BitVec.ofNat 32 n

end Sys2Proof.Machine
end

