-- ==== Sys2Proof/Machine/Operands.lean ====
section
/-! DEFINITION. The operand forms: the pulse stream in its raw and its packed form, the reader that takes durations and
symbols from it, and the operand checks of 60_exceptions.md R335. -/
namespace Sys2Proof.Machine

/-! ## Stream elements -/

/-- A duration and the position after the element it came from, the pair (d, c′) of 41_classifier_sync.md R122. -/
structure StreamElem where
  dur : Nat
  after : Nat
deriving DecidableEq, Repr

/-- The value of a two-byte element (30_encoding.md R98, GW2). -/
def gw2Value (b0 b1 : Byte) : Nat := 250 + (b0.toNat - 250) * 255 + (b1.toNat - 1)

/-- The value of a six-byte escape (30_encoding.md R98, GW6): 7-bit groups, least significant first, bit 0 of each payload
byte ignored. -/
def gw6Value (p0 p1 p2 p3 : Byte) : Nat :=
  p0.toNat / 2 + p1.toNat / 2 * 2 ^ 7 + p2.toNat / 2 * 2 ^ 14 + p3.toNat / 2 * 2 ^ 21

/-- `next(c)` in the raw form (41_classifier_sync.md R122), over the bytes P[c .. PLEN−1]: one byte per duration, 0 ends the
stream. The bytes after the element come with it. -/
def rawNext : List Byte → Nat → Option (StreamElem × List Byte)
  | [], _ => none
  | b :: bs, c => if b = 0#8 then none else some (⟨b.toNat, c + 1⟩, bs)

/-- `parse(c)` (43_pulse_codec.md R173 to R175), over the bytes P[c .. PLEN−1]. `none` is END. -/
def parse : List Byte → Nat → Option (StreamElem × List Byte)
  | [], _ => none
  | b0 :: rest, c =>
    if b0 = 0#8 then none
    else if b0.toNat ≤ 0xF9 then some (⟨b0.toNat, c + 1⟩, rest)
    else if b0.toNat ≤ 0xFE then
      match rest with
      | b1 :: r => if b1 = 0#8 then none else some (⟨gw2Value b0 b1, c + 2⟩, r)
      | [] => none
    else
      match rest with
      | b1 :: p0 :: p1 :: p2 :: p3 :: r =>
        if b1 = 2#8 then some (⟨gw6Value p0 p1 p2 p3, c + 6⟩, r) else parse r (c + 6)
      | _ => none

/-- `next(c)` (41_classifier_sync.md R122). -/
def nextElem (packed : Bool) (bytes : List Byte) (c : Nat) : Option (StreamElem × List Byte) :=
  if packed then parse bytes c else rawNext bytes c

/-- The elements `next` gives from position `c` on, up to END. Each takes at least one byte, so the number of bytes bounds
the number of elements (41_classifier_sync.md R131). -/
def elemsUpTo : Nat → Bool → List Byte → Nat → List StreamElem
  | 0, _, _, _ => []
  | fuel + 1, packed, bytes, c =>
    match nextElem packed bytes c with
    | none => []
    | some (e, rest) => e :: elemsUpTo fuel packed rest e.after

/-- The bytes P[c .. PLEN−1] (00_scope.md R13, R15). -/
def State.pulseFrom (s : State) (c : Nat) : List Byte := s.readBytes (pulseBase + c) (s.plen.toNat - c)

/-- `eof(c)` (41_classifier_sync.md R123). -/
def State.eofAt (s : State) (packed : Bool) (c : Nat) : Bool := (nextElem packed (s.pulseFrom c) c).isNone

/-! ## The reader -/

/-- A read position in a pulse stream: CURSOR, and the elements from there to END. -/
structure Reader where
  elems : List StreamElem
  cursor : Nat
deriving DecidableEq, Repr

/-- The reader of the pulse stream at position `c`. -/
def State.readerAt (s : State) (packed : Bool) (c : Nat) : Reader :=
  ⟨elemsUpTo (s.plen.toNat - c) packed (s.pulseFrom c) c, c⟩

/-- The ordinal of a symbol (30_encoding.md R100). -/
def Symbol.ordinal : Symbol → Nat
  | .short => 0
  | .medium => 1
  | .long => 2

/-- The classifier (41_classifier_sync.md R120, R121). -/
def classifyDur (d t2 t3 : Nat) : Symbol :=
  if d ≤ t2 then .short else if d ≤ t3 then .medium else .long

/-- `read_symbol()` (41_classifier_sync.md R124): the symbol, whether it is the sentinel, and the reader after it. -/
def Reader.readSymbol (t2 t3 : Nat) (r : Reader) : Symbol × Bool × Reader :=
  match r.elems with
  | [] => (.short, true, r)
  | e :: es => (classifyDur e.dur t2 t3, false, ⟨es, e.after⟩)

/-! ## Operand checks (60_exceptions.md R335) -/

/-- READSYM, SYNC, DEMOD and UNPACK need PLEN ≤ PULSE_CAP and CURSOR ≤ PLEN. -/
def State.streamOk (s : State) : Bool :=
  decide (s.plen.toNat ≤ s.cfg.pulseCap) && decide (s.cursor.toNat ≤ s.plen.toNat)

/-- PACK and MOD need WPOS ≤ OUTCAP ≤ PULSE_CAP. -/
def State.outputOk (s : State) : Bool :=
  decide (s.wpos.toNat ≤ s.outcap.toNat) && decide (s.outcap.toNat ≤ s.cfg.pulseCap)

/-- MOD and ENCODE need T1 ≥ 1, and in raw form 4 × T1 ≤ 255. -/
def State.cellLengthOk (s : State) (packed : Bool) : Bool :=
  decide (1 ≤ s.t1.toNat) && (packed || decide (4 * s.t1.toNat ≤ 255))

/-- DECODE, ENCODE and MARKWR need 1 ≤ NSECT ≤ MAX_SECTORS. -/
def State.sectorsOk (s : State) : Bool :=
  decide (1 ≤ s.nsect.toNat) && decide (s.nsect.toNat ≤ s.cfg.maxSectors)

/-- DEMOD and MOD need 1 ≤ ARG0 ≤ REC_CAP. -/
def State.recordCountOk (s : State) : Bool :=
  decide (1 ≤ s.arg0.toNat) && decide (s.arg0.toNat ≤ s.cfg.recCap)

end Sys2Proof.Machine
end

