-- ==== Sys2Proof/Machine/Bus.lean ====
section
/-! DEFINITION. The host's accesses: the address map, the bus error, the busy rule, byte order (20_memory.md), and the host
program lines of 30_encoding.md R104 as turns. -/
namespace Sys2Proof.Machine

/-- The number of bytes of an access (20_memory.md R61). -/
def Width.bytes : Width → Nat
  | .byte => 1
  | .half => 2
  | .word => 4

/-- The address map (20_memory.md R62); `none` is unmapped. -/
def regionOf (cfg : Config) (a : Nat) : Option Region :=
  if a < 0x100 then some .regs
  else if recBase ≤ a ∧ a < recBase + cfg.recCap then some .recMem
  else if trackBase ≤ a ∧ a < trackBase + cfg.trackBytes then some .track
  else if pulseBase ≤ a ∧ a < pulseBase + cfg.pulseCap then some .pulse
  else none

/-- Whether the map allows an access (20_memory.md R61, R63): registers take 4-byte aligned accesses, memories naturally
aligned ones, and every byte of the access lies in the region of its address (log 8). -/
def accessOk (cfg : Config) (a : Nat) (w : Width) : Bool :=
  match regionOf cfg a with
  | none => false
  | some .regs => decide (w = .word) && decide (a % 4 = 0)
  | some r => decide (a % w.bytes = 0) && decide (regionOf cfg (a + w.bytes - 1) = some r)

/-- Little-endian value of bytes (20_memory.md R68). -/
def leValue : List Byte → Nat
  | [] => 0
  | b :: bs => b.toNat + 256 * leValue bs

/-- A value cut to the width of an access. -/
def Width.cut (w : Width) (v : Word) : Word := BitVec.ofNat 32 (v.toNat % 2 ^ (8 * w.bytes))

/-- The value of an allowed host read with the busy rule kept (10_state.md R42, 20_memory.md R68). -/
def State.busValue (s : State) (a : Nat) (w : Width) : Word :=
  if a < 0x100 then
    match Reg.ofOffset a with
    | some r => s.readReg r
    | none => 0#32
  else BitVec.ofNat 32 (leValue (s.readBytes a w.bytes))

/-- An allowed host write with the busy rule kept (10_state.md R42, 20_memory.md R68). -/
def State.busStore (s : State) (a : Nat) (w : Width) (v : Word) : State :=
  if a < 0x100 then
    match Reg.ofOffset a with
    | some r => s.writeReg v r
    | none => s
  else s.storeBytes a (bytesOfNat w.bytes v.toNat)

/-- The registers the host may read while a command is pending (20_memory.md R67). -/
def busyReadable (a : Nat) : Bool := a == Reg.id.offset || a == Reg.status.offset

/-- The registers the host may write while a command is pending (20_memory.md R67). -/
def busyWritable (a : Nat) : Bool := a == Reg.status.offset || a == Reg.irqen.offset

/-- A protocol violation is recorded in STATUS.BUSYERR (20_memory.md R67, 60_exceptions.md R339). -/
def State.busyViolation (s : State) : State := { s with status := { s.status with busyerr := true } }

/-- A host read (20_memory.md R63, R67, R68). -/
def State.hostRead (s : State) (a : BlockAddr) (w : Width) : State :=
  if accessOk s.cfg a.toNat w = false then { s with hostFault := some ⟨a, w⟩, busRead := none }
  else if s.busy && !busyReadable a.toNat then
    { s.busyViolation with busRead := some (w.cut (Config.busyDraw s.draws)), draws := s.draws + 1 }
  else { s with busRead := some (s.busValue a.toNat w) }

/-- A host write (20_memory.md R63, R67, R68). -/
def State.hostWrite (s : State) (a : BlockAddr) (w : Width) (v : Word) : State :=
  if accessOk s.cfg a.toNat w = false then { s with hostFault := some ⟨a, w⟩, busRead := none }
  else if s.busy && !busyWritable a.toNat then { s.busyViolation with busRead := none }
  else { s.busStore a.toNat w v with busRead := none }

/-- One access of the host agent. -/
def State.hostAccess (s : State) : BusOp → State
  | .read a w => s.hostRead a w
  | .write a w v => s.hostWrite a w v

/-! ## Host programs (30_encoding.md R104) -/

/-- The block address of a register (20_memory.md R62: the register space is at 0). -/
def Reg.addr (r : Reg) : BlockAddr := BitVec.ofNat 21 r.offset

/-- `wr NAME, value` -/
def wr (r : Reg) (v : Word) : List Turn := [.host (.write r.addr .word v)]

/-- `rd NAME` -/
def rd (r : Reg) : List Turn := [.host (.read r.addr .word)]

/-- `wrm addr, width, value` -/
def wrm (a : BlockAddr) (w : Width) (v : Word) : List Turn := [.host (.write a w v)]

/-- `rdm addr, width` -/
def rdm (a : BlockAddr) (w : Width) : List Turn := [.host (.read a w)]

/-- `cmd MNEMONIC`: `wr CMD, <word>` then `poll` -/
def cmd (v : Word) : List Turn := wr .cmd v ++ [.poll]

/-- `ack`: `wr STATUS, 0x2006` -/
def ack : List Turn := wr .status 0x2006#32

end Sys2Proof.Machine
end

