-- ==== Sys2Proof/Machine/Classifier.lean ====
section
/-! DEFINITION. CLASSIFY, READSYM and SYNC (41_classifier_sync.md). -/
namespace Sys2Proof.Machine

/-- CLASSIFY (41_classifier_sync.md R125): RESULT ← the ordinal of ARG0's symbol. -/
def execClassify (_f : Flags) (s : State) : Host.Outcome State Fault Refusal :=
  finish (fun s => { s with result := toWord (classifyDur s.arg0.toNat s.t2.toNat s.t3.toNat).ordinal }) s

/-- RESULT of READSYM (41_classifier_sync.md R126): the sentinel at bit 8, the ordinal at bits [1:0]. -/
def symbolResult (sym : Symbol) (sentinel : Bool) : Word := toWord (sym.ordinal + sentinel.toNat * 256)

/-- The effect of READSYM (41_classifier_sync.md R126). -/
def readSymbolEffect (packed : Bool) (s : State) : State :=
  let (sym, sentinel, r) := (s.readerAt packed s.cursor.toNat).readSymbol s.t2.toNat s.t3.toNat
  { s with result := symbolResult sym sentinel, cursor := toWord r.cursor }.setEof (s.eofAt packed r.cursor)

/-- READSYM (41_classifier_sync.md R126). -/
def execReadsym (f : Flags) (s : State) : Host.Outcome State Fault Refusal :=
  orError s.streamOk .badConfig s <|
  finish (readSymbolEffect f.packed) s

/-- MAGIC_MFM (41_classifier_sync.md R128). -/
def magicMfm : BitVec 28 := 0x9926499#28

/-- One symbol shifted into the sync register (41_classifier_sync.md R127). -/
def shiftSymbol (reg : BitVec 28) (sym : Symbol) : BitVec 28 := (reg <<< 2) ||| BitVec.ofNat 28 sym.ordinal

/-- The loop of `sync_search()` (41_classifier_sync.md R127): the elements that are left, the position, and the register.
It stops when the register is the magic value or the stream ends. -/
def syncLoop (t2 t3 : Nat) : List StreamElem → Nat → BitVec 28 → Reader × BitVec 28
  | [], c, reg => (⟨[], c⟩, reg)
  | e :: es, c, reg =>
    if reg = magicMfm then (⟨e :: es, c⟩, reg)
    else syncLoop t2 t3 es e.after (shiftSymbol reg (classifyDur e.dur t2 t3))

/-- `sync_search()` over a reader (41_classifier_sync.md R127): where it ends and the final register. The mark is found iff
the register is the magic value. -/
def Reader.syncSearch (t2 t3 : Nat) (r : Reader) : Reader × BitVec 28 := syncLoop t2 t3 r.elems r.cursor 0#28

/-- The effect of SYNC (41_classifier_sync.md R127, R129). -/
def syncEffect (packed : Bool) (s : State) : State :=
  let (r, reg) := (s.readerAt packed s.cursor.toNat).syncSearch s.t2.toNat s.t3.toNat
  let found := decide (reg = magicMfm)
  let parity := if found then .clock else s.dstate.parity
  (({ s with result := toWord found.toNat, cursor := toWord r.cursor, syncreg := reg }.setParity parity).setSync found).setEof
    (s.eofAt packed r.cursor)

/-- SYNC (41_classifier_sync.md R129). -/
def execSync (f : Flags) (s : State) : Host.Outcome State Fault Refusal :=
  unlessFm f <|
  orError s.streamOk .badConfig s <|
  finish (syncEffect f.packed) s

end Sys2Proof.Machine
end

