-- ==== Sys2Proof/Machine/Crc.lean ====
section
/-! DEFINITION. CRC (42_crc.md). -/
namespace Sys2Proof.Machine

/-- One of the eight shifts of a CRC step (42_crc.md R150): polynomial 0x1021, most significant bit first. -/
def crcShift (x : BitVec 16) : BitVec 16 := if x.getLsbD 15 then (x <<< 1) ^^^ 0x1021#16 else x <<< 1

/-- `crc_step(crc, b)` (42_crc.md R150). -/
def crcStep (crc : BitVec 16) (b : Byte) : BitVec 16 :=
  crcShift (crcShift (crcShift (crcShift (crcShift (crcShift (crcShift (crcShift (crc ^^^ (b.setWidth 16 <<< 8)))))))))

/-- `crc16(bytes, init)` (42_crc.md R151). -/
def crc16 (bytes : List Byte) (init : BitVec 16) : BitVec 16 := bytes.foldl crcStep init

/-- PRELOAD_MFM (42_crc.md R153): the CRC of the three preamble bytes. -/
def preloadMfm (cfg : Config) : BitVec 16 := crc16 [0xA1#8, 0xA1#8, 0xA1#8] cfg.crcBase

/-- A CRC as its two record bytes, high byte first (42_crc.md R151). -/
def crcBytes (crc : BitVec 16) : List Byte := [crc.extractLsb' 8 8, crc.extractLsb' 0 8]

/-- The effect of CRC (42_crc.md R155). -/
def crcEffect (s : State) : State :=
  { s with result := (crc16 (s.readBytes recBase s.arg0.toNat) (s.arg1.extractLsb' 0 16)).setWidth 32 }

/-- CRC (42_crc.md R155). -/
def execCrc (_f : Flags) (s : State) : Host.Outcome State Fault Refusal :=
  orError (decide (s.arg0.toNat ≤ s.cfg.recCap)) .badArg s <|
  finish crcEffect s

end Sys2Proof.Machine
end

