-- ==== Sys2Proof/Machine/PulseCodec.lean ====
section
/-! DEFINITION. PACK, UNPACK and the six element forms of the packed pulse stream (43_pulse_codec.md, 30_encoding.md R98). -/
namespace Sys2Proof.Machine

/-! ## Packing -/

/-- The largest value an element carries, 2^28 − 1 (43_pulse_codec.md R171). -/
def packMax : Nat := 2 ^ 28 - 1

/-- Payload byte `i` of an escape, g(i) of 43_pulse_codec.md R170: seven bits of the value above a low bit 1. -/
def gw6Payload (v i : Nat) : Byte := BitVec.ofNat 8 (v / 2 ^ (7 * i) % 128 * 2 + 1)

/-- `pack_bytes(v)`, for 1 ≤ v ≤ 2^28 − 1 (43_pulse_codec.md R170, 30_encoding.md R99). -/
def packBytes (v : Nat) : List Byte :=
  if v ≤ 249 then [BitVec.ofNat 8 v]
  else if v ≤ 1524 then [BitVec.ofNat 8 (250 + (v - 250) / 255), BitVec.ofNat 8 (1 + (v - 250) % 255)]
  else [0xFF#8, 0x02#8, gw6Payload v 0, gw6Payload v 1, gw6Payload v 2, gw6Payload v 3]

/-- The element a value packs to, clamped (43_pulse_codec.md R171). -/
def packElement (v : Nat) : List Byte := packBytes (min v packMax)

/-- `pack_into(v)` (43_pulse_codec.md R176) with `room = OUTCAP − WPOS` bytes left: the bytes it writes at WPOS, and FULL
after it. -/
def packInto (full : Bool) (room v : Nat) : List Byte × Bool :=
  if full then ([], true)
  else if (packElement v).length ≤ room then (packElement v, false)
  else if 1 ≤ room then ([0x00#8], true)
  else ([], true)

/-- STATUS.FULL ← b (43_pulse_codec.md R176). -/
def State.setFull (b : Bool) (s : State) : State := { s with status := { s.status with full := b } }

/-- `bytes` written at WPOS, WPOS moved behind them, PLEN ← WPOS (10_state.md R30, R33). -/
def State.emit (bytes : List Byte) (s : State) : State :=
  let w := toWord (s.wpos.toNat + bytes.length)
  { s.storeBytes (pulseBase + s.wpos.toNat) bytes with wpos := w, plen := w }

/-- The effect of PACK (43_pulse_codec.md R177). -/
def packEffect (s : State) : State :=
  let (bytes, full) := packInto s.status.full (s.outcap.toNat - s.wpos.toNat) s.arg0.toNat
  { s.emit bytes with result := toWord bytes.length }.setFull full

/-- PACK (43_pulse_codec.md R172, R177). -/
def execPack (_f : Flags) (s : State) : Host.Outcome State Fault Refusal :=
  orError s.outputOk .badConfig s <|
  orError (decide (s.arg0 ≠ 0#32)) .badArg s <|
  finish packEffect s

/-! ## Unpacking -/

/-- RESULT of UNPACK at END (43_pulse_codec.md R178, 92_eei_decisions.md D37). -/
def endResult : Word := 0x80000000#32

/-- What UNPACK does with what `parse(CURSOR)` gave (43_pulse_codec.md R178): a value goes to RESULT and CURSOR moves behind
its element, END leaves CURSOR alone; then EOF is written for the final CURSOR. -/
def unpackResult (r : Option StreamElem) (s : State) : State :=
  match r with
  | none => { s with result := endResult }.setEof (s.eofAt true s.cursor.toNat)
  | some e => { s with result := toWord e.dur, cursor := toWord e.after }.setEof (s.eofAt true e.after)

/-- What `parse(CURSOR)` gives (43_pulse_codec.md R173). -/
def State.parseAtCursor (s : State) : Option StreamElem :=
  (parse (s.pulseFrom s.cursor.toNat) s.cursor.toNat).map Prod.fst

/-- UNPACK (43_pulse_codec.md R178). -/
def execUnpack (_f : Flags) (s : State) : Host.Outcome State Fault Refusal :=
  orError s.streamOk .badConfig s <|
  finish (fun s => unpackResult s.parseAtCursor s) s

/-! ## The element forms

The meaning of an element form is what UNPACK does when that element stands at CURSOR (log 6): the value and the next
position of 30_encoding.md R98. A form whose bytes extend past PLEN reads as END (R98). -/

/-- The element of `len` bytes at CURSOR with the value `v`, if its bytes end at or before PLEN (30_encoding.md R98). -/
def State.elementAtCursor (s : State) (len v : Nat) : Option StreamElem :=
  if s.cursor.toNat + len ≤ s.plen.toNat then some ⟨v, s.cursor.toNat + len⟩ else none

/-- END (30_encoding.md R98): end of the stream, position unchanged. -/
def execEndMark (s : State) : Host.Outcome State Fault Refusal :=
  orError s.streamOk .badConfig s <|
  finish (unpackResult none) s

/-- GW1 (30_encoding.md R98): v = b0, next position +1. -/
def execGw1 (b0 : Byte) (s : State) : Host.Outcome State Fault Refusal :=
  orError s.streamOk .badConfig s <|
  finish (fun s => unpackResult (s.elementAtCursor 1 b0.toNat) s) s

/-- GW2 (30_encoding.md R98): v = 250 + (b0 − 250) × 255 + (b1 − 1), next position +2. -/
def execGw2 (b0 b1 : Byte) (s : State) : Host.Outcome State Fault Refusal :=
  orError s.streamOk .badConfig s <|
  finish (fun s => unpackResult (s.elementAtCursor 2 (gw2Value b0 b1)) s) s

/-- GW2-END (30_encoding.md R98, 43_pulse_codec.md R174): end of the stream, neither byte is consumed. -/
def execGw2End (_b0 : Byte) (s : State) : Host.Outcome State Fault Refusal :=
  orError s.streamOk .badConfig s <|
  finish (unpackResult none) s

/-- GW6 (30_encoding.md R98): the four 7-bit groups, next position +6. -/
def execGw6 (p0 p1 p2 p3 : Byte) (s : State) : Host.Outcome State Fault Refusal :=
  orError s.streamOk .badConfig s <|
  finish (fun s => unpackResult (s.elementAtCursor 6 (gw6Value p0 p1 p2 p3)) s) s

/-- What decoding gives when it goes on six bytes past CURSOR (43_pulse_codec.md R175): nothing where the skip would pass
PLEN. -/
def State.parsePastSkip (s : State) : Option StreamElem :=
  if s.cursor.toNat + 6 ≤ s.plen.toNat then
    (parse (s.pulseFrom (s.cursor.toNat + 6)) (s.cursor.toNat + 6)).map Prod.fst
  else none

/-- GW6-SKIP (30_encoding.md R98, 43_pulse_codec.md R175): no value; the element is skipped and decoding goes on at +6. At
END the CURSOR stays where it was. -/
def execGw6Skip (_b1 _p0 _p1 _p2 _p3 : Byte) (s : State) : Host.Outcome State Fault Refusal :=
  orError s.streamOk .badConfig s <|
  finish (fun s => unpackResult s.parsePastSkip s) s

end Sys2Proof.Machine
end

