-- ==== Sys2Proof/Machine/LineCode.lean ====
section
/-! DEFINITION. The MFM line code: DEMOD and MOD (44_line_code.md). -/
namespace Sys2Proof.Machine

/-! ## Demodulator -/

/-- The raw cells of a symbol (44_line_code.md R200): zeros, then the closing transition. -/
def Symbol.cells (sym : Symbol) : List Bool := List.replicate (sym.ordinal + 1) false ++ [true]

/-- The data bits among cells, the first of which has the type `p`, and the type of the cell after them (44_line_code.md
R202). -/
def dataBits : List Bool → Parity → List Bool × Parity
  | [], p => ([], p)
  | x :: xs, p =>
    let (bits, p') := dataBits xs p.next
    (if p = .data then x :: bits else bits, p')

/-- The bit-collecting loop of `demod(n)` (44_line_code.md R202): symbols are read until `need` bits are there. `fuel` bounds
the symbols read; each yields at least one bit, so `fuel = need` never runs out (60_exceptions.md R345). -/
def demodLoop (t2 t3 : Nat) : Nat → Nat → Reader → Parity → List Bool × Reader × Parity
  | 0, _, r, p => ([], r, p)
  | fuel + 1, need, r, p =>
    if need = 0 then ([], r, p)
    else
      let (sym, _, r1) := r.readSymbol t2 t3
      let (bits, p1) := dataBits sym.cells p
      let (more, r2, p2) := demodLoop t2 t3 fuel (need - bits.length) r1 p1
      (bits ++ more, r2, p2)

/-- Eight bits as a byte, the first in bit 7 (20_memory.md R69, 44_line_code.md R202). -/
def byteOfBits (b7 b6 b5 b4 b3 b2 b1 b0 : Bool) : Byte :=
  BitVec.ofNat 8 (b7.toNat * 128 + b6.toNat * 64 + b5.toNat * 32 + b4.toNat * 16 + b3.toNat * 8 + b2.toNat * 4
    + b1.toNat * 2 + b0.toNat)

/-- Bits packed into bytes; bits that do not fill a byte are dropped (44_line_code.md R202). -/
def packBits : List Bool → List Byte
  | b7 :: b6 :: b5 :: b4 :: b3 :: b2 :: b1 :: b0 :: rest => byteOfBits b7 b6 b5 b4 b3 b2 b1 b0 :: packBits rest
  | _ => []

/-- `demod(n)` (44_line_code.md R202): the n bytes, the reader and PARITY after it. A surplus bit is discarded. -/
def Reader.demod (t2 t3 n : Nat) (r : Reader) (p : Parity) : List Byte × Reader × Parity :=
  let (bits, r', p') := demodLoop t2 t3 (8 * n) (8 * n) r p
  (packBits (bits.take (8 * n)), r', p')

/-- The effect of DEMOD (44_line_code.md R203). -/
def demodEffect (packed : Bool) (s : State) : State :=
  let (bytes, r, p) :=
    (s.readerAt packed s.cursor.toNat).demod s.t2.toNat s.t3.toNat s.arg0.toNat s.dstate.parity
  (({ s.storeBytes recBase bytes with result := s.arg0, cursor := toWord r.cursor }).setParity p).setEof
    (s.eofAt packed r.cursor)

/-- DEMOD (44_line_code.md R203). -/
def execDemod (f : Flags) (s : State) : Host.Outcome State Fault Refusal :=
  unlessFm f <|
  orError s.streamOk .badConfig s <|
  orError s.recordCountOk .badArg s <|
  finish (demodEffect f.packed) s

/-! ## Modulator -/

/-- The modulator inside one command (44_line_code.md R205). `room` is OUTCAP − WPOS at the present WPOS; `outRev` holds the
bytes written since the command's first WPOS, the last one first: PULSE takes them when the command ends, and nothing reads
PULSE in between (log 13). -/
structure Modulator where
  t1 : Nat
  packed : Bool
  run : Nat
  prev : Bool
  count : Nat
  stopped : Bool
  full : Bool
  room : Nat
  outRev : List Byte
deriving DecidableEq, Repr

/-- `fits(dur)` (44_line_code.md R205). -/
def Modulator.fits (m : Modulator) (dur : Nat) : Bool :=
  !m.full && (if m.packed then decide ((packElement dur).length ≤ m.room) else decide (0 < m.room))

/-- The bytes of a duration that fits: a raw byte saturates at 255 (44_line_code.md R205). -/
def Modulator.durBytes (m : Modulator) (dur : Nat) : List Byte :=
  if m.packed then packElement dur else [BitVec.ofNat 8 (min dur 255)]

/-- Bytes written at WPOS. -/
def Modulator.push (m : Modulator) (bytes : List Byte) : Modulator :=
  { m with room := m.room - bytes.length, outRev := bytes.reverse ++ m.outRev }

/-- The stop at a 1 cell that does not fit (44_line_code.md R205, R208): FULL is set, in packed form through `pack_into`; the
cell is not processed. -/
def Modulator.stop (m : Modulator) (dur : Nat) : Modulator :=
  if m.packed then
    let (bytes, full) := packInto m.full m.room dur
    { m.push bytes with full := full, stopped := true }
  else { m with full := true, stopped := true }

/-- The modulator's previous data cell after a cell (44_line_code.md R205). -/
def Modulator.prevAfter (m : Modulator) (x : Bool) (k : Parity) : Bool := if k = .data then x else m.prev

/-- `mod_cell(x, k)` (44_line_code.md R205). -/
def Modulator.cell (m : Modulator) (x : Bool) (k : Parity) : Modulator :=
  if m.stopped then m
  else if x then
    let dur := (m.run + 1) * m.t1
    if m.fits dur then { m.push (m.durBytes dur) with run := 0, prev := m.prevAfter x k, count := m.count + 1 }
    else m.stop dur
  else { m with run := m.run + 1, prev := m.prevAfter x k }

/-- A clock cell and a data cell for one data bit, the MFM clock rule (44_line_code.md R204, 30_encoding.md R101). -/
def Modulator.dataBit (m : Modulator) (d : Bool) : Modulator := (m.cell (!(m.prev || d)) .clock).cell d .data

/-- The bits of a byte, most significant first (20_memory.md R69). -/
def bitsOfByte (b : Byte) : List Bool :=
  [b.getLsbD 7, b.getLsbD 6, b.getLsbD 5, b.getLsbD 4, b.getLsbD 3, b.getLsbD 2, b.getLsbD 1, b.getLsbD 0]

/-- `mod_byte(b)` (44_line_code.md R204). -/
def Modulator.byte (m : Modulator) (b : Byte) : Modulator := (bitsOfByte b).foldl Modulator.dataBit m

/-- The cells of a 16-cell word, bit 15 first, with their types: the odd bit positions are clock cells (44_line_code.md
R207). -/
def syncCells (w : BitVec 16) : List (Bool × Parity) :=
  [(w.getLsbD 15, .clock), (w.getLsbD 14, .data), (w.getLsbD 13, .clock), (w.getLsbD 12, .data),
   (w.getLsbD 11, .clock), (w.getLsbD 10, .data), (w.getLsbD 9, .clock), (w.getLsbD 8, .data),
   (w.getLsbD 7, .clock), (w.getLsbD 6, .data), (w.getLsbD 5, .clock), (w.getLsbD 4, .data),
   (w.getLsbD 3, .clock), (w.getLsbD 2, .data), (w.getLsbD 1, .clock), (w.getLsbD 0, .data)]

/-- `mod_sync(w)` (44_line_code.md R207). -/
def Modulator.syncWord (m : Modulator) (w : BitVec 16) : Modulator :=
  (syncCells w).foldl (fun m c => m.cell c.1 c.2) m

/-- SYNC_A1 (30_encoding.md R102). -/
def syncA1 : BitVec 16 := 0x4489#16

/-- SYNC_C2 (30_encoding.md R102). -/
def syncC2 : BitVec 16 := 0x5224#16

/-- An item of a modulation: a data byte or a sync word (45_track_decode_encode.md R243). -/
inductive Item where
  | byte (b : Byte)
  | word (w : BitVec 16)
deriving DecidableEq, Repr

/-- One item modulated; a stopped modulator starts none (44_line_code.md R208). -/
def Modulator.item (m : Modulator) (i : Item) : Modulator :=
  if m.stopped then m
  else match i with
    | .byte b => m.byte b
    | .word w => m.syncWord w

/-- Items modulated in order. -/
def Modulator.items (m : Modulator) (is : List Item) : Modulator := is.foldl Modulator.item m

/-- The end of MOD and ENCODE (44_line_code.md R206, R209; 45_track_decode_encode.md R242): the bytes at WPOS, WPOS and PLEN
behind them, FULL, TRUNC, DSTATE with ENC_RUN saturated at 15, RESULT = count. -/
def modulated (m : Modulator) (trunc : Bool) (s : State) : State :=
  let s := s.emit m.outRev.reverse
  { s with
    status := { s.status with full := m.full, trunc := trunc }
    dstate := { s.dstate with encPrev := m.prev, encRun := BitVec.ofNat 4 (min m.run 15) }
    result := toWord m.count }

/-- The items of MOD by its kind, ARG1[1:0] (44_line_code.md R209). -/
def modItems (kind : Nat) (s : State) : List Item :=
  match kind with
  | 0 => (s.readBytes recBase s.arg0.toNat).map .byte
  | 1 => List.replicate s.arg0.toNat (.word syncA1)
  | _ => List.replicate s.arg0.toNat (.word syncC2)

/-- The kind of a MOD, ARG1[1:0] (44_line_code.md R209). -/
def State.modKind (s : State) : Nat := s.arg1.toNat % 4

/-- The modulator as MOD starts it (44_line_code.md R205, R209). -/
def modStart (packed : Bool) (s : State) : Modulator where
  t1 := s.t1.toNat
  packed := packed
  run := s.dstate.encRun.toNat
  prev := s.dstate.encPrev
  count := 0
  stopped := false
  full := s.status.full
  room := s.outcap.toNat - s.wpos.toNat
  outRev := []

/-- The effect of MOD (44_line_code.md R209). -/
def modEffect (packed : Bool) (s : State) : State :=
  let m := (modStart packed s).items (modItems s.modKind s)
  modulated m m.stopped s

/-- MOD (44_line_code.md R209). -/
def execMod (f : Flags) (s : State) : Host.Outcome State Fault Refusal :=
  unlessFm f <|
  orError (s.outputOk && s.cellLengthOk f.packed) .badConfig s <|
  orError (decide (s.modKind ≠ 3) && s.recordCountOk) .badArg s <|
  finish (modEffect f.packed) s

end Sys2Proof.Machine
end

