-- ==== Sys2Proof/Machine/Track.lean ====
section
/-! DEFINITION. DECODE and ENCODE, the sector record parser and assembler (45_track_decode_encode.md). -/
namespace Sys2Proof.Machine

/-! ## Track decode -/

/-- The mark of an IDAM record (00_scope.md R10). -/
def markIdam : Byte := 0xFE#8

/-- The mark of a DAM record (00_scope.md R10). -/
def markDam : Byte := 0xFB#8

/-- `record_ok(rec, mark)` (45_track_decode_encode.md R232, 42_crc.md R154). -/
def recordOk (cfg : Config) (rec : List Byte) (mark : Byte) : Bool :=
  decide (rec.head? = some mark) && decide (crc16 rec (preloadMfm cfg) = 0#16)

/-- What DECODE carries through its loop (45_track_decode_encode.md R231, R232): the reader and the registers it writes. -/
structure Decoder where
  reader : Reader
  parity : Parity
  syncreg : BitVec 28
  synccnt : Word
  lastidam : Word
  idamv : Bool
  valid : Word
  mem : Memory
deriving DecidableEq, Repr

/-- A sync search inside DECODE (45_track_decode_encode.md R232 steps 2 and 6): SYNCREG always, PARITY and SYNCCNT on
success. -/
def Decoder.search (t2 t3 : Nat) (d : Decoder) : Bool × Decoder :=
  let (r, reg) := d.reader.syncSearch t2 t3
  if reg = magicMfm then
    (true, { d with reader := r, syncreg := reg, parity := .clock, synccnt := d.synccnt + 1#32 })
  else (false, { d with reader := r, syncreg := reg })

/-- A demodulation inside DECODE (45_track_decode_encode.md R232 steps 3 and 7), into the internal record buffer. -/
def Decoder.record (t2 t3 n : Nat) (d : Decoder) : List Byte × Decoder :=
  let (bytes, r, p) := d.reader.demod t2 t3 n d.parity
  (bytes, { d with reader := r, parity := p })

/-- The byte of a record at an index; a record of DECODE always has it. -/
def recByte (rec : List Byte) (i : Nat) : Byte := rec.getD i 0#8

/-- LASTIDAM for a header (45_track_decode_encode.md R233): {size code, sector, head, cylinder}. -/
def idamWord (hdr : List Byte) : Word := recByte hdr 4 ++ recByte hdr 3 ++ recByte hdr 2 ++ recByte hdr 1

/-- IDAM capture (45_track_decode_encode.md R233). -/
def Decoder.capture (hdr : List Byte) (d : Decoder) : Decoder := { d with lastidam := idamWord hdr, idamv := true }

/-- Whether an IDAM is followed up (45_track_decode_encode.md R234): in range, not yet valid, of this block's size. -/
def followUp (cfg : Config) (n : Nat) (valid : Word) (hdr : List Byte) : Bool :=
  let r := (recByte hdr 3).toNat
  decide (1 ≤ r) && decide (r ≤ n) && !validBit valid (r - 1) && decide ((recByte hdr 4).toNat = cfg.sizeCode)

/-- Accept (45_track_decode_encode.md R237): the payload goes to slot r − 1 and its bit is set. -/
def Decoder.accept (cfg : Config) (r : Nat) (rec : List Byte) (d : Decoder) : Decoder :=
  { d with
    mem := d.mem.store (slotAddr cfg (r - 1)) ((rec.drop 1).take cfg.sectorBytes)
    valid := setValid d.valid (r - 1) }

/-- Steps 6 to 8 of the loop (45_track_decode_encode.md R235 to R237) for sector `r`; the Bool says whether the loop goes
on. -/
def Decoder.payload (cfg : Config) (t2 t3 r : Nat) (d : Decoder) : Bool × Decoder :=
  match d.search t2 t3 with
  | (false, d1) => (false, d1)
  | (true, d1) =>
    match d1.record t2 t3 (1 + cfg.sectorBytes + 2) with
    | (rec, d2) => if recordOk cfg rec markDam then (true, d2.accept cfg r rec) else (true, d2)

/-- Steps 2 to 8 of the loop (45_track_decode_encode.md R232); the Bool says whether the loop goes on. -/
def Decoder.pass (cfg : Config) (t2 t3 n : Nat) (d : Decoder) : Bool × Decoder :=
  match d.search t2 t3 with
  | (false, d1) => (false, d1)
  | (true, d1) =>
    match d1.record t2 t3 7 with
    | (hdr, d2) =>
      if recordOk cfg hdr markIdam then
        let d3 := d2.capture hdr
        if followUp cfg n d3.valid hdr then d3.payload cfg t2 t3 (recByte hdr 3).toNat else (true, d3)
      else (true, d2)

/-- `decode_loop(n)` (45_track_decode_encode.md R232, R238). `fuel` bounds the passes: each that goes on has consumed at
least 14 elements, so one more than the number of elements never runs out (R241). -/
def decodeLoop (cfg : Config) (t2 t3 n : Nat) : Nat → Decoder → Decoder
  | 0, d => d
  | fuel + 1, d =>
    if countValid d.valid n = n then d
    else
      match d.pass cfg t2 t3 n with
      | (true, d') => decodeLoop cfg t2 t3 n fuel d'
      | (false, d') => d'

/-- The decoder as DECODE starts it (45_track_decode_encode.md R230): CURSOR ← 0, SYNCCNT ← 0, IDAMV ← 0, and VALID ← 0 when
C = 1. -/
def decodeStart (f : Flags) (s : State) : Decoder where
  reader := s.readerAt f.packed 0
  parity := s.dstate.parity
  syncreg := s.syncreg
  synccnt := 0#32
  lastidam := s.lastidam
  idamv := false
  valid := if f.clrv then 0#32 else s.valid
  mem := s.mem

/-- The decoder at the end of DECODE (45_track_decode_encode.md R230). -/
def decodeEnd (f : Flags) (s : State) : Decoder :=
  let d := decodeStart f s
  decodeLoop s.cfg s.t2.toNat s.t3.toNat s.nsect.toNat (d.reader.elems.length + 1) d

/-- The effect of DECODE (45_track_decode_encode.md R230, R239). -/
def decodeEffect (f : Flags) (s : State) : State :=
  let d := decodeEnd f s
  { s with
    cursor := toWord d.reader.cursor
    dstate := { s.dstate with parity := d.parity }
    syncreg := d.syncreg
    synccnt := d.synccnt
    lastidam := d.lastidam
    valid := d.valid
    mem := d.mem
    result := toWord (countValid d.valid s.nsect.toNat)
    status := { s.status with idamv := d.idamv, eof := s.eofAt f.packed d.reader.cursor } }

/-- DECODE (45_track_decode_encode.md R230). -/
def execDecode (f : Flags) (s : State) : Host.Outcome State Fault Refusal :=
  unlessFm f <|
  orError (s.sectorsOk && decide (s.plen.toNat ≤ s.cfg.pulseCap)) .badConfig s <|
  finish (decodeEffect f) s

/-! ## Track encode -/

/-- MFM_GAP_BYTE (00_scope.md R10). -/
def gapByte : Byte := 0x4E#8

/-- MARK_IAM (00_scope.md R10). -/
def markIam : Byte := 0xFC#8

/-- `k` copies of a byte. -/
def fill (k : Nat) (b : Byte) : List Item := List.replicate k (.byte b)

/-- A record with its CRC (45_track_decode_encode.md R244, 30_encoding.md R103). -/
def withCrc (cfg : Config) (rec : List Byte) : List Byte := rec ++ crcBytes (crc16 rec (preloadMfm cfg))

/-- The presync zeros, the three SYNC_A1 words and a record (45_track_decode_encode.md R243, 30_encoding.md R103). -/
def recordItems (cfg : Config) (rec : List Byte) : List Item :=
  fill cfg.gapPresync 0x00#8 ++ List.replicate 3 (.word syncA1) ++ (withCrc cfg rec).map .byte

/-- The body of an IDAM record (30_encoding.md R103). -/
def idamBody (cfg : Config) (cyl head : Byte) (r : Nat) : List Byte :=
  [markIdam, cyl, head, BitVec.ofNat 8 r, BitVec.ofNat 8 cfg.sizeCode]

/-- The items of sector number `r` with its payload (45_track_decode_encode.md R243). -/
def sectorItems (cfg : Config) (cyl head : Byte) (r : Nat) (payload : List Byte) : List Item :=
  fill cfg.gap1 gapByte ++ recordItems cfg (idamBody cfg cyl head r) ++ fill cfg.gap2 gapByte
    ++ recordItems cfg (markDam :: payload) ++ fill cfg.gap3 gapByte

/-- The index-area field (45_track_decode_encode.md R243). -/
def indexItems (cfg : Config) : List Item :=
  fill cfg.gap4a gapByte ++ fill cfg.gapPresync 0x00#8 ++ List.replicate 3 (.word syncC2) ++ [.byte markIam]

/-- The sectors from number `r` on, `k` of them. -/
def sectorsFrom (s : State) : Nat → Nat → List Item
  | 0, _ => []
  | k + 1, r =>
    sectorItems s.cfg s.cyl s.head r (s.readBytes (slotAddr s.cfg (r - 1)) s.cfg.sectorBytes)
      ++ sectorsFrom s k (r + 1)

/-- `layout(n, C, H)` (45_track_decode_encode.md R243), reading C, H and the slots from the state. -/
def layout (s : State) (n : Nat) : List Item := indexItems s.cfg ++ sectorsFrom s n 1

/-- The modulator as ENCODE starts it (45_track_decode_encode.md R242): WPOS ← 0, FULL ← 0, no pending cells. -/
def encodeStart (packed : Bool) (s : State) : Modulator where
  t1 := s.t1.toNat
  packed := packed
  run := 0
  prev := false
  count := 0
  stopped := false
  full := false
  room := s.outcap.toNat
  outRev := []

/-- The padding (45_track_decode_encode.md R245): gap bytes until the modulator stops. `fuel` bounds them: each that does not
stop takes at least one byte of room, so one more than the room never runs out. -/
def pad : Nat → Modulator → Modulator
  | 0, m => m
  | fuel + 1, m => if m.stopped then m else pad fuel (m.byte gapByte)

/-- The modulator after the layout (45_track_decode_encode.md R242). -/
def encodeLayout (packed : Bool) (s : State) : Modulator :=
  (encodeStart packed s).items (layout s s.nsect.toNat)

/-- The effect of ENCODE (45_track_decode_encode.md R242, R246, R247). -/
def encodeEffect (packed : Bool) (s : State) : State :=
  let m := encodeLayout packed s
  modulated (pad (m.room + 1) m) m.stopped { s with wpos := 0#32 }

/-- ENCODE (45_track_decode_encode.md R242). -/
def execEncode (f : Flags) (s : State) : Host.Outcome State Fault Refusal :=
  unlessFm f <|
  orError (s.sectorsOk && decide (s.outcap.toNat ≤ s.cfg.pulseCap) && s.cellLengthOk f.packed) .badConfig s <|
  finish (encodeEffect f.packed) s

end Sys2Proof.Machine
end

