-- ==== Sys2Proof/Machine/TrackBuffer.lean ====
section
/-! DEFINITION. NOP, CLRVALID and MARKWR (46_track_buffer_system.md). -/
namespace Sys2Proof.Machine

/-- NOP (46_track_buffer_system.md R270): the command completes and changes nothing else. -/
def execNop (_f : Flags) (s : State) : Host.Outcome State Fault Refusal := finish id s

/-- CLRVALID (46_track_buffer_system.md R271): VALID ← 0. -/
def execClrvalid (_f : Flags) (s : State) : Host.Outcome State Fault Refusal :=
  finish (fun s => { s with valid := 0#32 }) s

/-- The effect of MARKWR (46_track_buffer_system.md R273): VALID[ARG0] ← 1, CACHE.DIRTY ← 1. -/
def markWritten (s : State) : State :=
  { s with valid := setValid s.valid s.arg0.toNat, cache := { s.cache with dirty := true } }

/-- MARKWR (46_track_buffer_system.md R273). -/
def execMarkwr (_f : Flags) (s : State) : Host.Outcome State Fault Refusal :=
  orError s.sectorsOk .badConfig s <|
  orError (decide (s.arg0.toNat < s.nsect.toNat)) .badArg s <|
  finish markWritten s

end Sys2Proof.Machine
end

