-- ==== Sys2Proof/Machine/Dispatch.lean ====
section
/-! DEFINITION. The meaning of every instruction, one arm per constructor. -/
namespace Sys2Proof.Machine

/-- Performs one instruction: a command's PERFORM (20_memory.md R64), or an element of the packed stream as UNPACK takes it
(30_encoding.md R98). -/
def exec (i : Instr) (s : State) : Host.Outcome State Fault Refusal :=
  match i with
  | .nop f => Sys2Proof.Machine.execNop f s
  | .classify f => Sys2Proof.Machine.execClassify f s
  | .readsym f => Sys2Proof.Machine.execReadsym f s
  | .sync f => Sys2Proof.Machine.execSync f s
  | .demod f => Sys2Proof.Machine.execDemod f s
  | .crc f => Sys2Proof.Machine.execCrc f s
  | .pack f => Sys2Proof.Machine.execPack f s
  | .unpack f => Sys2Proof.Machine.execUnpack f s
  | .mod f => Sys2Proof.Machine.execMod f s
  | .decode f => Sys2Proof.Machine.execDecode f s
  | .encode f => Sys2Proof.Machine.execEncode f s
  | .clrvalid f => Sys2Proof.Machine.execClrvalid f s
  | .markwr f => Sys2Proof.Machine.execMarkwr f s
  | .endMark => Sys2Proof.Machine.execEndMark s
  | .gw1 b0 => Sys2Proof.Machine.execGw1 b0 s
  | .gw2 b0 b1 => Sys2Proof.Machine.execGw2 b0 b1 s
  | .gw2End b0 => Sys2Proof.Machine.execGw2End b0 s
  | .gw6 p0 p1 p2 p3 => Sys2Proof.Machine.execGw6 p0 p1 p2 p3 s
  | .gw6Skip b1 p0 p1 p2 p3 => Sys2Proof.Machine.execGw6Skip b1 p0 p1 p2 p3 s

end Sys2Proof.Machine
end

