-- ==== Sys2Proof/Machine/Step.lean ====
section
/-! DEFINITION. One step of the machine: PERFORM of the pending command, or the turn that comes next (20_memory.md R64,
log 4); and how an instruction of the opcode table is placed so that the next step runs it (log 5). -/
namespace Sys2Proof.Machine

/-- The block's one step, PERFORM (20_memory.md R64): the latched command word is decoded and run to its end; a word that is
no instruction ends in CmdError(ILLEGAL_CMD) (30_encoding.md R94). -/
def perform (s : State) : Host.Outcome State Fault Refusal :=
  match decodeCommand s.cmd with
  | .ok i => exec i s
  | .error _ => .next (s.cmdError .illegalCmd)

/-- The block's turn: PERFORM is enabled iff PHASE = PENDING (20_memory.md R64). -/
def blockTurn (s : State) : Host.Outcome State Fault Refusal :=
  match s.phase with
  | .pending => perform s
  | .idle => .next s

/-- The host's turn: a host that has faulted makes no access any more (20_memory.md R63, 93_implementation_defined.md). -/
def hostTurn (op : BusOp) (s : State) : State :=
  match s.hostFault with
  | none => s.hostAccess op
  | some _ => s

/-- With no turn left, a pending command is performed (weak fairness, 20_memory.md R64); otherwise the block waits for its
host, which may have stopped on a bus error. -/
def lastTurn (s : State) : Host.Outcome State Fault Refusal :=
  match s.phase with
  | .pending => perform s
  | .idle =>
    match s.hostFault with
    | none => .next s
    | some e => .fault (.hostBusError e.addr e.width)

/-- `poll`: while a command is pending the block moves and the host goes on polling; then the host reads STATUS with
BUSY = 0 (30_encoding.md R104). -/
def pollTurn (ts : List Turn) (s : State) : Host.Outcome State Fault Refusal :=
  match s.phase with
  | .pending => perform s
  | .idle => .next (hostTurn (.read Reg.status.addr .word) { s with turns := ts })

/-- One step. -/
def step (s : State) : Host.Outcome State Fault Refusal :=
  match s.turns with
  | [] => lastTurn s
  | .block :: ts => blockTurn { s with turns := ts }
  | .host op :: ts => .next (hostTurn op { s with turns := ts })
  | .poll :: ts => pollTurn ts s
  | .reset :: ts => .next { s.applyReset with turns := ts }

/-- The command that consumes one element of a packed stream: UNPACK (43_pulse_codec.md R178). -/
def unpackWord : Word := 0x00000007#32

/-- The element that stands at CURSOR, as UNPACK fetches it from PULSE. -/
def fetchElement (s : State) : Except Reject (Instr × List Byte) := decodeElement (s.pulseFrom s.cursor.toNat)

/-- An instruction of the opcode table placed where the next step takes it: a command word is issued; an element is put at
CURSOR in PULSE, PLEN set behind it, and UNPACK issued. The block's turn comes first. (log 5) -/
def State.withFetchWord (s : State) (nbits w : Nat) : State :=
  if isCommandWidth nbits then { s.issue (BitVec.ofNat 32 w) with turns := .block :: s.turns }
  else
    let n := min longestElement s.cfg.pulseCap
    let c := if s.cursor.toNat + n ≤ s.cfg.pulseCap then s.cursor.toNat else 0
    let placed := s.storeBytes (pulseBase + c) (bytesOfNat n (w % 2 ^ nbits))
    { placed.issue unpackWord with
      cursor := BitVec.ofNat 32 c
      plen := BitVec.ofNat 32 (c + n)
      turns := .block :: s.turns }

end Sys2Proof.Machine
end

