-- ==== Sys2Proof/Machine/Volume.lean ====
section
/-! DEFINITION. The host sequences of 47_host_sequences.md: surrounding software that drives the block through its registers
and memories (00_scope.md R7). Nothing the step does depends on this file (log 24). -/
namespace Sys2Proof.Machine

/-! ## Collaborators (R290) -/

/-- How long a capture lasts, `revolutions_or_ms` (47_host_sequences.md R290). -/
inductive CaptureSpan where
  | revolutions (n : Nat)
  | ms (n : Nat)
deriving DecidableEq, Repr

/-- What one successful capture returned: the pulse bytes (`count` is their number), `index_offset`, which no rule uses, and
whether the bytes are packed (47_host_sequences.md R290). -/
structure Capture where
  bytes : List Byte
  indexOffset : Nat
  packed : Bool
deriving DecidableEq, Repr

/-- The calls the host makes to its collaborators, with their arguments (47_host_sequences.md R290). -/
inductive Call where
  | capture (maxSamples : Nat) (waitForIndex : Bool) (span : CaptureSpan)
  | generate (bytes : List Byte) (count : Nat)
  | seek (cylinder : Nat)
  | selectHead (head : Nat)
  | setDensity (hd : Bool)
  | isWriteProtected
deriving DecidableEq, Repr

/-- The collaborators: black boxes whose results are free inputs (47_host_sequences.md R290), here the results still to come
in the order of the calls. A call past the end of its list fails. `calls` records the calls made, the last one first. -/
structure Drive where
  captures : List (Option Capture)
  seeks : List Bool
  selects : List Bool
  densities : List Bool
  generates : List Bool
  protects : List Bool
  calls : List Call
deriving DecidableEq, Repr

/-! ## Formats (R291, R292, R296, R297, R301, R303) -/

/-- FormatInfo, with the density and the size code of its sectors (47_host_sequences.md R292). -/
structure Format where
  cylinders : Nat
  spt : Nat
  bitNs : Nat
  trackMs : Nat
  hd : Bool
  sizeCode : Nat
deriving DecidableEq, Repr

/-- The six formats (47_host_sequences.md R292). -/
inductive FormatName where
  | f1440K | f1200K | f720K | f360K | f720K360Rpm | f360K360Rpm
deriving DecidableEq, Repr

/-- Every format has SIZE_CODE = 2 (47_host_sequences.md R292). -/
def formatSizeCode : Nat := 2

/-- The format table (47_host_sequences.md R292). -/
def FormatName.info : FormatName → Format
  | .f1440K => ⟨80, 18, 1000, 200, true, formatSizeCode⟩
  | .f1200K => ⟨80, 15, 1000, 167, true, formatSizeCode⟩
  | .f720K => ⟨80, 9, 2000, 200, false, formatSizeCode⟩
  | .f360K => ⟨40, 9, 2000, 200, false, formatSizeCode⟩
  | .f720K360Rpm => ⟨80, 9, 1667, 167, false, formatSizeCode⟩
  | .f360K360Rpm => ⟨40, 9, 1667, 167, false, formatSizeCode⟩

/-- Every format has two heads (47_host_sequences.md R292, R297). -/
def heads : Nat := 2

/-- A block can take a format that has its SIZE_CODE and no more sectors than it holds (47_host_sequences.md R292). That another
SIZE_CODE bars the format is the model's reading (log 24). -/
def Format.fits (f : Format) (cfg : Config) : Bool := decide (f.sizeCode = cfg.sizeCode) && decide (f.spt ≤ cfg.maxSectors)

/-- T1, T2 and T3 from a bit time and the sample clock F_SAMPLE (47_host_sequences.md R291). -/
def thresholds (fSample bitNs : Nat) : Nat × Nat × Nat :=
  (bitNs * fSample / 10 ^ 9, 5 * bitNs * fSample / (2 * 10 ^ 9), 7 * bitNs * fSample / (2 * 10 ^ 9))

/-- The candidate bit times of autodetection, in order (47_host_sequences.md R295). -/
def candidates : List Nat := [2000, 1000, 867, 1667]

/-- `boot_signature` (47_host_sequences.md R296). -/
def bootSignature (b0 b1 b2 : Byte) : Bool :=
  decide (b0 = 0xEB#8) && decide (0x1E ≤ b1.toNat) && decide (b2 = 0x90#8)

/-- The format the BIOS Parameter Block of a boot sector gives, or none where the candidate fails (47_host_sequences.md
R297). -/
def bpbFormat (cfg : Config) (bitNs : Nat) (boot : List Byte) : Option Format :=
  let spt := leValue ((boot.drop 0x18).take 2)
  let total := leValue ((boot.drop 0x13).take 2)
  let f : Format :=
    ⟨total / (spt * heads), spt, bitNs, if bitNs = 1000 ∨ bitNs = 2000 then 200 else 167, decide (bitNs ≤ 1000),
      formatSizeCode⟩
  if spt = 0 ∨ f.fits cfg = false ∨ total = 0 then none else some f

/-- The cache key (47_host_sequences.md R301). -/
def cacheKey (track head : Nat) : Nat := track * heads + head

/-- Track, head and subsector of a block number (47_host_sequences.md R303). -/
def blockPlace (spt b : Nat) : Nat × Nat × Nat := (b / (heads * spt), b / spt % heads, b % spt)

/-- Whether a block number lies on the volume (47_host_sequences.md R303). -/
def blockInRange (f : Format) (b : Nat) : Bool := decide (b < f.cylinders * heads * f.spt)

/-- The exported form of a track: its image and one byte per sector (46_track_buffer_system.md R274). With NSECT > MAX_SECTORS,
where TRACK has no NSECT × SECTOR_BYTES bytes and R274 names no outcome, the bytes past TRACK are unlisted draws, and their
sectors read as VALID has them, not valid (DESIGN CHOICE, log 23). -/
def exported (s : State) : List Byte × List Byte :=
  (s.readBytes trackBase (s.nsect.toNat * s.cfg.sectorBytes),
   (List.range s.nsect.toNat).map (fun i => if validBit s.valid i then 0x01#8 else 0x00#8))

/-! ## The volume (R293) -/

/-- The states of a volume; Ready with CACHE.DIRTY = 1 is Dirty (47_host_sequences.md R293). -/
inductive VolumeState where
  | empty
  | detecting
  | ready
deriving DecidableEq, Repr

/-- A host volume: it owns one block (47_host_sequences.md R293). `fSample` and `writeOutcap` are the OPEN parameters F_SAMPLE
(R291) and WRITE_OUTCAP (R306); `packedOut` says whether the generate path is packed (R306). `doubleStep` is false where no
probe has been run: the spec gives it no value there (DESIGN CHOICE, log 24). -/
structure Volume where
  block : State
  drive : Drive
  state : VolumeState
  format : Option Format
  doubleStep : Bool
  fSample : Nat
  writeOutcap : Nat
  packedOut : Bool
deriving DecidableEq, Repr

namespace Volume

/-- `wr NAME, value` (30_encoding.md R104). -/
def wr (r : Reg) (n : Nat) (v : Volume) : Volume := { v with block := v.block.hostWrite r.addr .word (toWord n) }

/-- `cmd MNEMONIC` (30_encoding.md R104): the issue and the PERFORM that ends it. The words used here have F = 0, so none is
refused. -/
def cmd (i : Instr) (v : Volume) : Volume :=
  match encode i with
  | .command w =>
    match perform (v.block.hostWrite Reg.cmd.addr .word w) with
    | .next s => { v with block := s }
    | .fault _ => v
    | .refused _ => v
  | .element _ => v

/-- The flags of a command. -/
def flags (packed clrv : Bool) : Flags := ⟨packed, clrv, false⟩

/-- `cmd CLRVALID` -/
def clearValid (v : Volume) : Volume := v.cmd (.clrvalid (flags false false))

/-- `seek(cylinder)` (47_host_sequences.md R290). -/
def seek (cyl : Nat) (v : Volume) : Bool × Volume :=
  (v.drive.seeks.headD false,
   { v with drive := { v.drive with seeks := v.drive.seeks.tail, calls := .seek cyl :: v.drive.calls } })

/-- `select_head(head)` (47_host_sequences.md R290). -/
def selectHead (head : Nat) (v : Volume) : Bool × Volume :=
  (v.drive.selects.headD false,
   { v with drive := { v.drive with selects := v.drive.selects.tail, calls := .selectHead head :: v.drive.calls } })

/-- `set_density(hd)` (47_host_sequences.md R290). -/
def setDensity (hd : Bool) (v : Volume) : Bool × Volume :=
  (v.drive.densities.headD false,
   { v with drive := { v.drive with densities := v.drive.densities.tail, calls := .setDensity hd :: v.drive.calls } })

/-- `is_write_protected()` (47_host_sequences.md R290), which the caller of `write_sector` asks first (R305). A call past the
end of its list answers that the medium is protected. -/
def isWriteProtected (v : Volume) : Bool × Volume :=
  (v.drive.protects.headD true,
   { v with drive := { v.drive with protects := v.drive.protects.tail, calls := .isWriteProtected :: v.drive.calls } })

/-- `generate(PULSE, PLEN)` (47_host_sequences.md R290). -/
def generate (v : Volume) : Bool × Volume :=
  (v.drive.generates.headD false,
   { v with drive := { v.drive with
      generates := v.drive.generates.tail
      calls := .generate (v.block.readBytes pulseBase v.block.plen.toNat) v.block.plen.toNat :: v.drive.calls } })

/-- `seek(cylinder) and select_head(head)`, the second only after the first succeeded. -/
def seekTo (cyl head : Nat) (v : Volume) : Bool × Volume :=
  match v.seek cyl with
  | (false, v) => (false, v)
  | (true, v) => v.selectHead head

/-- `capture(max_samples, wait_for_index, revolutions_or_ms)` (47_host_sequences.md R290): on success the bytes are placed in
PULSE and PLEN is written; the answer says whether they are packed. More bytes than asked for are cut (log 24). -/
def capture (maxSamples : Nat) (waitForIndex : Bool) (span : CaptureSpan) (v : Volume) : Option Bool × Volume :=
  let v' := { v with drive := { v.drive with
    captures := v.drive.captures.tail
    calls := .capture maxSamples waitForIndex span :: v.drive.calls } }
  match v.drive.captures.headD none with
  | none => (none, v')
  | some c =>
    let bytes := c.bytes.take maxSamples
    (some c.packed, { v' with block := v'.block.storeBytes pulseBase bytes }.wr .plen bytes.length)

/-- `capture(PULSE_CAP, wait_for_index = true, revolutions = 1)` (47_host_sequences.md R295). R300 and R302 leave the arguments
of their captures out; the model makes the same call there (DESIGN CHOICE, log 24). -/
def captureTrack (v : Volume) : Option Bool × Volume := v.capture v.block.cfg.pulseCap true (.revolutions 1)

/-- T1, T2 and T3 written for a bit time (47_host_sequences.md R291); a register takes its width of the number. -/
def setThresholds (bitNs : Nat) (v : Volume) : Volume :=
  let (t1, t2, t3) := thresholds v.fSample bitNs
  ((v.wr .t1 t1).wr .t2 t2).wr .t3 t3

/-- T2 and T3 written for a candidate bit time (47_host_sequences.md R295). -/
def setDecodeThresholds (bitNs : Nat) (v : Volume) : Volume :=
  let (_, t2, t3) := thresholds v.fSample bitNs
  (v.wr .t2 t2).wr .t3 t3

/-- The cache emptied: `wr CACHE, 0` then `cmd CLRVALID` (47_host_sequences.md R294). -/
def emptied (v : Volume) : Volume := (v.wr .cache 0).clearValid

/-- A concrete format adopted (47_host_sequences.md R292, R294); one that does not fit the block is not. -/
def adopt (f : Format) (v : Volume) : Bool × Volume :=
  if f.fits v.block.cfg = false then (false, v)
  else
    match ((v.wr .nsect f.spt).setThresholds f.bitNs).setDensity f.hd with
    | (true, v) => (true, { v with state := .ready, format := some f })
    | (false, v) => (false, v)

/-- The double-step probe (47_host_sequences.md R300). A failing seek, head select or capture ends it and is surfaced (R290);
that the closing CLRVALID and seek are then not made, and that a failing closing seek fails the probe too, is the model's
reading (log 26). -/
def probeDoubleStep (f : Format) (v : Volume) : Bool × Volume :=
  match v.seekTo 2 0 with
  | (false, v) => (false, v)
  | (true, v) =>
    match v.captureTrack with
    | (none, v) => (false, v)
    | (some packed, v) =>
      let v := (v.wr .nsect f.spt).cmd (.decode (flags packed true))
      let double := v.block.status.idamv && decide (v.block.lastidam.toNat % 256 = 1)
      { v with doubleStep := double }.clearValid.seek 0

/-- The volume after a failed autodetection: Empty, no format assumed (47_host_sequences.md R298). -/
def failed (v : Volume) : Volume := { v with state := .empty, format := none, doubleStep := false }

/-- The acceptance of a candidate (47_host_sequences.md R297, R300). A failure in the probe is a failure of the autodetection
(R298; log 26). Where no probe is run, `doubleStep` is false (DESIGN CHOICE, log 24). -/
def accept (f : Format) (v : Volume) : Bool × Volume :=
  match ((v.wr .nsect f.spt).setThresholds f.bitNs).setDensity f.hd with
  | (false, v) => (false, v.failed)
  | (true, v) =>
    let v := { v.wr .cache 0 with state := .ready, format := some f, doubleStep := false }
    if f.cylinders = 40 then
      match v.probeDoubleStep f with
      | (true, v) => (true, v)
      | (false, v) => (false, v.failed)
    else (true, v)

/-- The candidates in order (47_host_sequences.md R295, R298). -/
def tryCandidates (packed : Bool) : List Nat → Volume → Bool × Volume
  | [], v => (false, v.failed)
  | bitNs :: rest, v =>
    let v := (v.setDecodeThresholds bitNs).cmd (.decode (flags packed true))
    let boot := v.block.readBytes trackBase v.block.cfg.sectorBytes
    if v.block.result = 1#32 ∧ bootSignature (boot.getD 0 0#8) (boot.getD 1 0#8) (boot.getD 2 0#8) = true then
      match bpbFormat v.block.cfg bitNs boot with
      | some f => v.accept f
      | none => tryCandidates packed rest v
    else tryCandidates packed rest v

/-- Autodetection (47_host_sequences.md R295, R298). -/
def autodetect (v : Volume) : Bool × Volume :=
  match v.seekTo 0 0 with
  | (false, v) => (false, v.failed)
  | (true, v) =>
    match v.captureTrack with
    | (none, v) => (false, v.failed)
    | (some packed, v) => tryCandidates packed candidates (v.wr .nsect 1)

/-- `insert(format_hint)` (47_host_sequences.md R294); `none` is "autodetect". `doubleStep` starts false, and stays so for a
concrete format, for which no rule runs the probe (DESIGN CHOICE, log 24). -/
def insert (hint : Option FormatName) (v : Volume) : Bool × Volume :=
  let v := { v.emptied with state := .empty, format := none, doubleStep := false }
  match hint with
  | some n => v.adopt n.info
  | none => { v with state := .detecting }.autodetect

/-- The physical track of a logical one (47_host_sequences.md R302). -/
def physical (v : Volume) (track : Nat) : Nat := if v.doubleStep then 2 * track else track

/-- Whether every sector 1..NSECT is valid. -/
def allValid (s : State) : Bool := decide (countValid s.valid s.nsect.toNat = s.nsect.toNat)

/-- CACHE with TAG = key, TAGV = 1, DIRTY = 0 (47_host_sequences.md R302, R306). -/
def setTag (key : Nat) (v : Volume) : Volume := v.wr .cache (key % 2 ^ 16 * 2 ^ 16 + 2)

/-- `sync()` (47_host_sequences.md R306). With T1 = 0 the host must not run ENCODE (R291): the sync fails there. An ENCODE that
ends in a CmdError, for which R306 names no outcome and R310 gives no guarantee, fails the sync too. In both cases generate is
not called and DIRTY is kept (DESIGN CHOICE, log 27). -/
def sync (v : Volume) : Bool × Volume :=
  if v.block.cache.dirty = false then (true, v)
  else if allValid v.block = false then (false, v)
  else
    let tag := v.block.cache.tag.toNat
    match v.seekTo (v.physical (tag / heads)) (tag % heads) with
    | (false, v) => (false, v)
    | (true, v) =>
      let v := ((v.wr .cyl (tag / heads)).wr .head (tag % heads)).wr .outcap v.writeOutcap
      if v.block.t1 = 0#16 then (false, v)
      else
        let v := v.cmd (.encode (flags v.packedOut false))
        if v.block.status.err || v.block.status.trunc then (false, v)
        else
          match v.generate with
          | (false, v) => (false, v)
          | (true, v) => (true, v.setTag tag)

/-- The attempts of `read_track` (47_host_sequences.md R302): `left` of them remain, the first has `first = true`. -/
def attempts : Nat → Bool → Volume → Volume
  | 0, _, v => v
  | left + 1, first, v =>
    let v :=
      match v.captureTrack with
      | (some packed, v) => v.cmd (.decode (flags packed first))
      | (none, v) => if first then v.clearValid else v
    if v.block.result.toNat = v.block.nsect.toNat then v else attempts left false v

/-- `read_track(logical_track, head)` once a dirty track has been written back (47_host_sequences.md R302). -/
def fetchTrack (track head : Nat) (v : Volume) : Bool × Volume :=
  match v.seekTo (v.physical track) head with
  | (false, v) => (false, v.clearValid.wr .cache 0)
  | (true, v) => (true, (attempts 5 true v).setTag (cacheKey track head))

/-- `read_track(logical_track, head)` (47_host_sequences.md R302). -/
def readTrack (track head : Nat) (v : Volume) : Bool × Volume :=
  if v.block.cache.dirty then
    match v.sync with
    | (false, v) => (false, v)
    | (true, v) => v.fetchTrack track head
  else v.fetchTrack track head

/-- The cache lookup (47_host_sequences.md R301). -/
def hit (track head : Nat) (v : Volume) : Bool :=
  v.block.cache.tagv && decide (v.block.cache.tag.toNat = cacheKey track head)

/-- The track made current: nothing on a hit, `read_track` on a miss (47_host_sequences.md R301, R304). -/
def ensure (track head : Nat) (v : Volume) : Bool × Volume :=
  if v.hit track head then (true, v) else v.readTrack track head

/-- `read_sector(b)` (47_host_sequences.md R303, R304). On a volume with no format the access fails and changes nothing; the
spec is silent there (DESIGN CHOICE, log 24). -/
def readSector (b : Nat) (v : Volume) : Option (List Byte) × Volume :=
  match v.format with
  | none => (none, v)
  | some f =>
    if blockInRange f b then
      let (track, head, sub) := blockPlace f.spt b
      match v.ensure track head with
      | (false, v) => (none, v)
      | (true, v) =>
        (if validBit v.block.valid sub then some (v.block.readBytes (slotAddr v.block.cfg sub) v.block.cfg.sectorBytes)
         else none, v)
    else (none, v)

/-- `write_sector(b, data)` (47_host_sequences.md R303, R305): on a miss `read_track` is called and its result ignored. That this
holds also where the `sync` of a dirty track failed, so that the slot of the track still cached is written and the write succeeds,
is the model's choice of R305 over 92_eei_decisions.md D28, by which a failed sync fails the access (DESIGN CHOICE, log 28). The
spec is silent on three cases (DESIGN CHOICE, log 24): on a volume with no format the access fails and changes nothing; data longer
than a sector is cut to it; data shorter than a sector is written to the front of the slot, whose other bytes stay, and the
sector is marked valid all the same. -/
def writeSector (b : Nat) (data : List Byte) (v : Volume) : Bool × Volume :=
  match v.format with
  | none => (false, v)
  | some f =>
    if blockInRange f b then
      let (track, head, sub) := blockPlace f.spt b
      let v := (v.ensure track head).2
      let v := { v with block := v.block.storeBytes (slotAddr v.block.cfg sub) (data.take v.block.cfg.sectorBytes) }
      (true, (v.wr .arg0 sub).cmd (.markwr (flags false false)))
    else (false, v)

/-- Media removal (47_host_sequences.md R308); the format is forgotten with the medium (log 24). -/
def remove (v : Volume) : Volume :=
  { v.clearValid.wr .cache 0 with state := .empty, format := none, doubleStep := false }

end Volume

end Sys2Proof.Machine
end

