-- ==== Sys2Proof/Safety.lean ====
section
/-! DEFINITION. What a safe run is, in the terms the statements use: the invariant of the machine, the steps that may stop,
and the frames of memory and registers. -/
namespace Sys2Proof.Machine

/-- An address of REC, TRACK or PULSE (20_memory.md R62). -/
abbrev memoryAddr (cfg : Config) (a : Nat) : Prop :=
  regionOf cfg a = some .recMem ∨ regionOf cfg a = some .track ∨ regionOf cfg a = some .pulse

/-- The invariant of the machine. -/
structure Inv (s : State) : Prop where
  /-- the parameters are in their ranges (00_scope.md R9) -/
  legal : s.cfg.legal
  /-- memory is in its canonical form (log 2) -/
  memWf : s.mem.wf
  /-- only bytes of REC, TRACK and PULSE have been written (20_memory.md R62, R71) -/
  memMapped : ∀ c ∈ s.mem, memoryAddr s.cfg c.1
  /-- VALID[i] = 0 for every i ≥ min(NSECT, MAX_SECTORS) (10_state.md R49) -/
  validInRange : ∀ i, min s.nsect.toNat s.cfg.maxSectors ≤ i → validBit s.valid i = false
  /-- ERRCODE is 0 exactly while ERR is 0 (10_state.md R24, 20_memory.md R64, 60_exceptions.md R333) -/
  errcodeSet : s.status.errcode = 0#4 ↔ s.status.err = false
  /-- codes 4 to 15 are never produced (60_exceptions.md R331) -/
  errcodeKnown : s.status.errcode.toNat ≤ 3
  /-- a pending command has not completed (20_memory.md R64) -/
  pendingClear : s.phase = .pending → s.status.done = false ∧ s.status.err = false

/-- The framing commands in FM mode, which have no meaning (30_encoding.md R96). -/
def isFmFraming : Instr → Bool
  | .nop _ => false
  | .classify _ => false
  | .readsym _ => false
  | .sync f => f.fm
  | .demod f => f.fm
  | .crc _ => false
  | .pack _ => false
  | .unpack _ => false
  | .mod f => f.fm
  | .decode f => f.fm
  | .encode f => f.fm
  | .clrvalid _ => false
  | .markwr _ => false
  | .endMark => false
  | .gw1 _ => false
  | .gw2 _ _ => false
  | .gw2End _ => false
  | .gw6 _ _ _ _ => false
  | .gw6Skip _ _ _ _ _ => false

/-- A command the host may leave pending: its word is no framing command in FM mode (60_exceptions.md R337). -/
def safePending (s : State) : Prop := ∀ i, decodeCommand s.cmd = .ok i → isFmFraming i = false

/-- Every byte of memory reads as before. -/
def sameMemory (s t : State) : Prop := ∀ a, t.readByte a = s.readByte a

/-- Every byte of memory outside `n` bytes from `lo` on reads as before. -/
def sameMemoryBut (s t : State) (lo n : Nat) : Prop := ∀ a, a < lo ∨ lo + n ≤ a → t.readByte a = s.readByte a

/-- What no command writes (10_state.md R22, R23, R25 to R29, R31, R34), and what is not the block's: the parameters, the
draws, the turns and the host's records. -/
structure SameSetup (s t : State) : Prop where
  cfg : t.cfg = s.cfg
  cmd : t.cmd = s.cmd
  irqen : t.irqen = s.irqen
  t2 : t.t2 = s.t2
  t3 : t.t3 = s.t3
  t1 : t.t1 = s.t1
  nsect : t.nsect = s.nsect
  cyl : t.cyl = s.cyl
  head : t.head = s.head
  outcap : t.outcap = s.outcap
  arg0 : t.arg0 = s.arg0
  arg1 : t.arg1 = s.arg1
  epoch : t.epoch = s.epoch
  draws : t.draws = s.draws
  turns : t.turns = s.turns
  hostFault : t.hostFault = s.hostFault
  busRead : t.busRead = s.busRead

/-! ## The pulse stream, byte by byte -/

/-- P[c], one byte of PULSE (00_scope.md R13). -/
def pulseByte (s : State) (c : Nat) : Byte := s.readByte (pulseBase + c)

/-- `next(c)` as a duration and the position after it (41_classifier_sync.md R122). -/
def nextAt (packed : Bool) (s : State) (c : Nat) : Option (Nat × Nat) :=
  (nextElem packed (s.pulseFrom c) c).map (fun p => (p.1.dur, p.1.after))

/-- The pulse stream from a position on: durations and the positions after them, up to END. -/
def isStream (packed : Bool) (s : State) : Nat → List (Nat × Nat) → Prop
  | c, [] => nextAt packed s c = none
  | c, (d, c') :: es => nextAt packed s c = some (d, c') ∧ isStream packed s c' es

/-- Where `m` reads from `c` on leave the position: a read past the end does not move (41_classifier_sync.md R124). -/
def posAfter : Nat → List (Nat × Nat) → Nat → Nat
  | c, _, 0 => c
  | c, [], _ + 1 => c
  | _, (_, c') :: es, m + 1 => posAfter c' es m

/-- The ordinal of a duration's symbol (41_classifier_sync.md R120). -/
def symbolCode (t2 t3 d : Nat) : Nat := if d ≤ t2 then 0 else if d ≤ t3 then 1 else 2

/-- The ordinals `m` reads give: past the end, the sentinel Short (41_classifier_sync.md R124). -/
def symbolCodes (t2 t3 : Nat) : List (Nat × Nat) → Nat → List Nat
  | _, 0 => []
  | [], m + 1 => 0 :: symbolCodes t2 t3 [] m
  | (d, _) :: es, m + 1 => symbolCode t2 t3 d :: symbolCodes t2 t3 es m

/-- The sync register after some symbols, from 0: `trunc_28((state << 2) | s)` for each (41_classifier_sync.md R127). -/
def shiftedIn (codes : List Nat) : BitVec 28 :=
  codes.foldl (fun state k => BitVec.ofNat 28 (state.toNat * 4 + k)) 0#28

/-! ## Cells -/

/-- The cells of a symbol by its ordinal (44_line_code.md R200). -/
def codeCells (k : Nat) : List Bool := List.replicate (k + 1) false ++ [true]

/-- The data cells among cells whose first has the type `p` (44_line_code.md R201). -/
def dataCells : Parity → List Bool → List Bool
  | _, [] => []
  | .clock, _ :: xs => dataCells .data xs
  | .data, x :: xs => x :: dataCells .clock xs

/-- The type of the cell that follows `n` cells (44_line_code.md R201). -/
def parityAfter (p : Parity) (n : Nat) : Parity := if n % 2 = 0 then p else p.next

/-- Bytes as their bits, most significant first: bit `8i + k` is bit `7 − k` of byte `i` (44_line_code.md R202). -/
def bitsAgree (bytes : List Byte) (bits : List Bool) : Prop :=
  ∀ i j, i < bytes.length → j < 8 → (bytes.getD i 0#8).getLsbD (7 - j) = bits.getD (8 * i + j) false

/-- The clock and data cells of data bits after a data cell `prev` (30_encoding.md R101). -/
def mfmCells : Bool → List Bool → List Bool
  | _, [] => []
  | prev, d :: ds => (!(prev || d)) :: d :: mfmCells d ds

/-- The 16 cells of a sync word, bit 15 first (44_line_code.md R207). -/
def wordCells (w : BitVec 16) : List Bool := (List.range 16).map (fun i => w.getLsbD (15 - i))

/-- The cells of items in order, after a data cell `prev` (44_line_code.md R204, R207). -/
def itemsCells : Bool → List Item → List Bool
  | _, [] => []
  | prev, .byte b :: is =>
    mfmCells prev ((List.range 8).map (fun j => b.getLsbD (7 - j))) ++ itemsCells (b.getLsbD 0) is
  | _, .word w :: is => wordCells w ++ itemsCells (w.getLsbD 0) is

/-- The intervals cells close: the number of cells up to and including each 1 cell, `run` cells having gone before
(44_line_code.md R205). -/
def intervals : Nat → List Bool → List Nat
  | _, [] => []
  | run, true :: xs => (run + 1) :: intervals 0 xs
  | run, false :: xs => intervals (run + 1) xs

/-- The cells after the last 1 cell, `run` cells having gone before (44_line_code.md R205). -/
def openRun : Nat → List Bool → Nat
  | run, [] => run
  | _, true :: xs => openRun 0 xs
  | run, false :: xs => openRun (run + 1) xs

/-- The cells before 1 cell number `k`, counted from 0; all of them where there is none (44_line_code.md R208). -/
def cellsBefore : Nat → List Bool → List Bool
  | _, [] => []
  | 0, true :: _ => []
  | k + 1, true :: xs => true :: cellsBefore k xs
  | k, false :: xs => false :: cellsBefore k xs

/-- The last data cell among clock and data cells in turn, or `prev` where there is none (44_line_code.md R205). -/
def lastData : Bool → List Bool → Bool
  | _, _ :: d :: xs => lastData d xs
  | prev, _ => prev

/-- The bytes a duration is written as (44_line_code.md R205): packed, or one byte that saturates at 255. -/
def durationBytes (packed : Bool) (d : Nat) : List Byte :=
  if packed then packBytes (min d (2 ^ 28 - 1)) else [BitVec.ofNat 8 (min d 255)]

/-- How many of some elements fit one after the other into `room` bytes (43_pulse_codec.md R176, 44_line_code.md R208). -/
def fitCount : Nat → List (List Byte) → Nat
  | _, [] => 0
  | room, e :: es => if e.length ≤ room then fitCount (room - e.length) es + 1 else 0

/-- What a modulation of cells writes (44_line_code.md R205, R208). -/
structure Emission where
  /-- the bytes, the terminating 0x00 included -/
  bytes : List Byte
  /-- the number of durations -/
  count : Nat
  /-- whether a duration did not fit -/
  stopped : Bool
  /-- the cells processed -/
  cells : List Bool

/-- What cells are written as into `room` bytes, `run` cells having gone before (44_line_code.md R205, R208; 43_pulse_codec.md
R176). A set FULL lets nothing be written. -/
def emission (packed full : Bool) (t1 room run : Nat) (cells : List Bool) : Emission :=
  let elems := (intervals run cells).map (fun k => durationBytes packed (k * t1))
  let k := if full then 0 else fitCount room elems
  let written := (elems.take k).flatten
  let stopped := decide (k < elems.length)
  { bytes := if packed && !full && stopped && decide (written.length < room) then written ++ [0x00#8] else written
    count := k
    stopped := stopped
    cells := cellsBefore k cells }

/-! ## Records -/

/-- A sync search from `c` and the `n` bytes demodulated behind the mark, with the position and the cell parity after them;
none where the search fails (45_track_decode_encode.md R232). -/
def recordBehind (packed : Bool) (s : State) (n c : Nat) : Option (List Byte × Nat × Parity) :=
  let (r, reg) := (s.readerAt packed c).syncSearch s.t2.toNat s.t3.toNat
  if reg = magicMfm then
    let (bytes, r', p) := r.demod s.t2.toNat s.t3.toNat n .clock
    some (bytes, r'.cursor, p)
  else none

/-- A record passes its checks (45_track_decode_encode.md R232): its mark, and residue 0 from PRELOAD_MFM. -/
abbrev validRecord (cfg : Config) (mark : Byte) (rec : List Byte) : Prop :=
  rec.getD 0 0#8 = mark ∧ crc16 rec (crc16 [0xA1#8, 0xA1#8, 0xA1#8] cfg.crcBase) = 0#16

/-- How many of the sectors 1..n are valid (45_track_decode_encode.md R230). -/
def validCount (valid : Word) (n : Nat) : Nat := ((List.range n).filter (fun i => valid.getLsbD i)).length

/-- One read of DECODE's loop: the sync mark it found and what it demodulated behind it (45_track_decode_encode.md R232). -/
structure TrackRecord where
  /-- the sector whose DAM is read; none while an IDAM is looked for -/
  wanted : Option Nat
  bytes : List Byte
  /-- the position after the bytes -/
  after : Nat
  /-- the type of the cell after them -/
  parity : Parity
deriving DecidableEq, Repr

/-- How many bytes a read takes: 7 of a header, mark, payload and CRC of a sector (45_track_decode_encode.md R232, R236). -/
def readLength (cfg : Config) : Option Nat → Nat
  | none => 7
  | some _ => cfg.sectorBytes + 3

/-- A read that is an IDAM with its mark and CRC right (45_track_decode_encode.md R232, R233). -/
abbrev isIdam (cfg : Config) (r : TrackRecord) : Prop := r.wanted = none ∧ validRecord cfg 0xFE#8 r.bytes

/-- LASTIDAM for a header: cylinder in [7:0], head in [15:8], sector in [23:16], size code in [31:24]
(45_track_decode_encode.md R233). -/
def headerWord (hdr : List Byte) : Word := hdr.getD 4 0#8 ++ hdr.getD 3 0#8 ++ hdr.getD 2 0#8 ++ hdr.getD 1 0#8

/-- The sector whose DAM the loop looks for after a read: the one an IDAM names, in 1..n, not valid, of this block's size code
(45_track_decode_encode.md R234). -/
def wantedAfter (cfg : Config) (n : Nat) (valid : Word) (r : TrackRecord) : Option Nat :=
  let sector := (r.bytes.getD 3 0#8).toNat
  if isIdam cfg r ∧ 1 ≤ sector ∧ sector ≤ n ∧ valid.getLsbD (sector - 1) = false ∧
      (r.bytes.getD 4 0#8).toNat = cfg.sizeCode then some sector
  else none

/-- VALID after a read: a DAM with its mark and CRC right sets its sector's bit (45_track_decode_encode.md R236, R237). -/
def validAfter (cfg : Config) (valid : Word) (r : TrackRecord) : Word :=
  match r.wanted with
  | none => valid
  | some sector => if validRecord cfg 0xFB#8 r.bytes then valid ||| (1#32 <<< (sector - 1)) else valid

/-- The reads of DECODE's loop from a position on, looking for a header (`none`) or for the DAM of a sector
(45_track_decode_encode.md R232, R235, R238): it ends before a header where every sector is valid, and where a sync search
fails. -/
def readsTrack (packed : Bool) (s : State) (n : Nat) : Option Nat → Word → Nat → List TrackRecord → Prop
  | wanted, valid, c, [] =>
    (wanted = none ∧ validCount valid n = n) ∨ recordBehind packed s (readLength s.cfg wanted) c = none
  | wanted, valid, c, r :: rs =>
    (wanted = none → validCount valid n ≠ n) ∧ r.wanted = wanted ∧
      recordBehind packed s (readLength s.cfg wanted) c = some (r.bytes, r.after, r.parity) ∧
      readsTrack packed s n (wantedAfter s.cfg n valid r) (validAfter s.cfg valid r) r.after rs

/-- VALID after some reads. -/
def validAtEnd (cfg : Config) (valid : Word) (rs : List TrackRecord) : Word := rs.foldl (validAfter cfg) valid

/-- The position after some reads from `c` on. -/
def readEnd (c : Nat) (rs : List TrackRecord) : Nat := rs.foldl (fun _ r => r.after) c

/-- The type of the next cell after some reads; before the first it is PARITY. -/
def parityAtEnd (p : Parity) (rs : List TrackRecord) : Parity := rs.foldl (fun _ r => r.parity) p

/-! ## Runs of commands -/

/-- PACK of values one after the other, each placed in ARG0 (43_pulse_codec.md R180). -/
def packRun (f : Flags) : List Word → State → Option State
  | [], s => some s
  | v :: vs, s =>
    match exec (.pack f) { s with arg0 := v } with
    | .next t => packRun f vs t
    | .fault _ => none
    | .refused _ => none

/-- The results of `n` UNPACKs one after the other (43_pulse_codec.md R180). -/
def unpackRun (f : Flags) : Nat → State → List Word
  | 0, _ => []
  | n + 1, s =>
    match exec (.unpack f) s with
    | .next t => t.result :: unpackRun f n t
    | .fault _ => []
    | .refused _ => []

/-! ## The tables of the commands -/

/-- What the "writes" column of the opcode map names (30_encoding.md R92). -/
inductive Resource where
  | result | cursor | syncreg | parity | encoder | syncFlag | eof | full | trunc | idamv | wpos | plen | valid | synccnt
  | lastidam | dirty | recMem | track | pulse
deriving DecidableEq, Repr

/-- A resource holds the same after a step as before. -/
def Resource.same (s t : State) : Resource → Prop
  | .result => t.result = s.result
  | .cursor => t.cursor = s.cursor
  | .syncreg => t.syncreg = s.syncreg
  | .parity => t.dstate.parity = s.dstate.parity
  | .encoder => t.dstate.encPrev = s.dstate.encPrev ∧ t.dstate.encRun = s.dstate.encRun
  | .syncFlag => t.status.sync = s.status.sync
  | .eof => t.status.eof = s.status.eof
  | .full => t.status.full = s.status.full
  | .trunc => t.status.trunc = s.status.trunc
  | .idamv => t.status.idamv = s.status.idamv
  | .wpos => t.wpos = s.wpos
  | .plen => t.plen = s.plen
  | .valid => t.valid = s.valid
  | .synccnt => t.synccnt = s.synccnt
  | .lastidam => t.lastidam = s.lastidam
  | .dirty => t.cache.dirty = s.cache.dirty
  | .recMem => ∀ a, recBase ≤ a → a < recBase + s.cfg.recCap → t.readByte a = s.readByte a
  | .track => ∀ a, trackBase ≤ a → a < trackBase + s.cfg.trackBytes → t.readByte a = s.readByte a
  | .pulse => ∀ a, pulseBase ≤ a → t.readByte a = s.readByte a

/-- The "writes" column of the opcode map (30_encoding.md R92). An element form writes what UNPACK writes (log 6). -/
def Resource.writtenBy : Instr → List Resource
  | .nop _ => []
  | .classify _ => [.result]
  | .readsym _ => [.result, .cursor, .eof]
  | .sync _ => [.result, .cursor, .syncreg, .parity, .syncFlag, .eof]
  | .demod _ => [.recMem, .result, .cursor, .parity, .eof]
  | .crc _ => [.result]
  | .pack _ => [.pulse, .wpos, .plen, .result, .full]
  | .unpack _ => [.result, .cursor, .eof]
  | .mod _ => [.pulse, .wpos, .plen, .encoder, .result, .full, .trunc]
  | .decode _ => [.valid, .track, .cursor, .result, .synccnt, .syncreg, .lastidam, .parity, .idamv, .eof]
  | .encode _ => [.pulse, .wpos, .plen, .encoder, .result, .full, .trunc]
  | .clrvalid _ => [.valid]
  | .markwr _ => [.valid, .dirty]
  | .endMark => [.result, .cursor, .eof]
  | .gw1 _ => [.result, .cursor, .eof]
  | .gw2 _ _ => [.result, .cursor, .eof]
  | .gw2End _ => [.result, .cursor, .eof]
  | .gw6 _ _ _ _ => [.result, .cursor, .eof]
  | .gw6Skip _ _ _ _ _ => [.result, .cursor, .eof]

/-- PLEN > PULSE_CAP, or CURSOR > PLEN (60_exceptions.md R335). -/
def badStream (s : State) : Prop := s.cfg.pulseCap < s.plen.toNat ∨ s.plen.toNat < s.cursor.toNat

/-- T1 = 0, or 4 × T1 > 255 in raw form (60_exceptions.md R335). -/
def badCell (packed : Bool) (s : State) : Prop := s.t1.toNat = 0 ∨ (packed = false ∧ 255 < 4 * s.t1.toNat)

/-- NSECT = 0, or NSECT > MAX_SECTORS (60_exceptions.md R335). -/
def badSectors (s : State) : Prop := s.nsect.toNat = 0 ∨ s.cfg.maxSectors < s.nsect.toNat

/-- The BAD_CONFIG column of the check table (60_exceptions.md R335); an element form is checked as UNPACK (log 6). -/
def badConfig : Instr → State → Prop
  | .nop _, _ => False
  | .classify _, _ => False
  | .readsym _, s => badStream s
  | .sync _, s => badStream s
  | .demod _, s => badStream s
  | .crc _, _ => False
  | .pack _, s => s.outcap.toNat < s.wpos.toNat ∨ s.cfg.pulseCap < s.outcap.toNat
  | .unpack _, s => badStream s
  | .mod f, s => s.outcap.toNat < s.wpos.toNat ∨ s.cfg.pulseCap < s.outcap.toNat ∨ badCell f.packed s
  | .decode _, s => badSectors s ∨ s.cfg.pulseCap < s.plen.toNat
  | .encode f, s => badSectors s ∨ s.cfg.pulseCap < s.outcap.toNat ∨ badCell f.packed s
  | .clrvalid _, _ => False
  | .markwr _, s => badSectors s
  | .endMark, s => badStream s
  | .gw1 _, s => badStream s
  | .gw2 _ _, s => badStream s
  | .gw2End _, s => badStream s
  | .gw6 _ _ _ _, s => badStream s
  | .gw6Skip _ _ _ _ _, s => badStream s

/-- The BAD_ARG column of the check table (60_exceptions.md R335). -/
def badArg : Instr → State → Prop
  | .nop _, _ => False
  | .classify _, _ => False
  | .readsym _, _ => False
  | .sync _, _ => False
  | .demod _, s => s.arg0.toNat = 0 ∨ s.cfg.recCap < s.arg0.toNat
  | .crc _, s => s.cfg.recCap < s.arg0.toNat
  | .pack _, s => s.arg0.toNat = 0
  | .unpack _, _ => False
  | .mod _, s => s.arg1.toNat % 4 = 3 ∨ s.arg0.toNat = 0 ∨ s.cfg.recCap < s.arg0.toNat
  | .decode _, _ => False
  | .encode _, _ => False
  | .clrvalid _, _ => False
  | .markwr _, s => s.nsect.toNat ≤ s.arg0.toNat
  | .endMark, _ => False
  | .gw1 _, _ => False
  | .gw2 _ _, _ => False
  | .gw2End _, _ => False
  | .gw6 _ _ _ _, _ => False
  | .gw6Skip _ _ _ _ _, _ => False

/-- The bits of a register that a host write stores (10_state.md R21); CMD and STATUS have rules of their own. -/
def Reg.writable : Reg → Word
  | .id | .cmd | .status | .result | .syncreg | .lastidam | .synccnt | .valid => 0x00000000#32
  | .irqen => 0x00000003#32
  | .t1 => 0x0000FFFF#32
  | .nsect | .cyl | .head => 0x000000FF#32
  | .dstate => 0x00000F03#32
  | .cache => 0xFFFF0003#32
  | .t2 | .t3 | .plen | .outcap | .cursor | .wpos | .arg0 | .arg1 => 0xFFFFFFFF#32

/-- The next move is the block's, if a command is pending: its own turn, a poll, or no turn left (20_memory.md R64, log 4). -/
def blockMoves (s : State) : Prop := s.turns = [] ∨ ∃ ts, s.turns = .block :: ts ∨ s.turns = .poll :: ts

/-- The next step is the block's PERFORM of this command (20_memory.md R64). -/
def performs (s : State) (i : Instr) : Prop := s.phase = .pending ∧ blockMoves s ∧ decodeCommand s.cmd = .ok i

/-- The state a command error leaves: the state at issue but for STATUS and PHASE (60_exceptions.md R333, R334). -/
def afterError (code : BitVec 4) (s : State) : State :=
  { s with phase := .idle, status := { s.status with done := true, err := true, errcode := code } }

end Sys2Proof.Machine
end

