-- ==== Sys2Proof/Certificates/Slice0/Obligations.lean ====
section
/-! DEFINITION. The statements for the provers, in the order of the spec: encodings, the step and its invariant, errors,
reset, then command by command, then the whole machine, the host's accesses and the host sequences. -/

open Sys2Proof Sys2Proof.Machine

/-! ## Encodings -/

/-- Words and bytes written out from 30_encoding.md R91, R92, R98 and from the command rules, and what they decode to. -/
def Obligations.SpecWordsDecode : Prop :=
  decodeCommand 0x00000000#32 = .ok (.nop ⟨false, false, false⟩) ∧
  decodeCommand 0x00000103#32 = .ok (.sync ⟨true, false, false⟩) ∧
  decodeCommand 0x00000209#32 = .ok (.decode ⟨false, true, false⟩) ∧
  decodeCommand 0x0000010A#32 = .ok (.encode ⟨true, false, false⟩) ∧
  decodeCommand 0x00000408#32 = .ok (.mod ⟨false, false, true⟩) ∧
  decodeCommand 0x0000000D#32 = .error .reservedOpcode ∧
  decodeCommand 0x00000800#32 = .error .reservedBits ∧
  decodeElement [0x0A#8, 0xFA#8] = .ok (.gw1 0x0A#8, [0xFA#8]) ∧
  decodeElement [0xFA#8, 0x33#8, 0x00#8] = .ok (.gw2 0xFA#8 0x33#8, [0x00#8]) ∧
  decodeElement [0xFE#8, 0x00#8] = .ok (.gw2End 0xFE#8, []) ∧
  decodeElement [0xFF#8, 0x02#8, 0xEB#8, 0x17#8, 0x01#8, 0x01#8, 0x28#8] =
    .ok (.gw6 0xEB#8 0x17#8 0x01#8 0x01#8, [0x28#8]) ∧
  decodeElement [0xFF#8, 0x03#8, 0x00#8, 0x01#8, 0x02#8, 0x03#8] = .ok (.gw6Skip 0x03#8 0x00#8 0x01#8 0x02#8 0x03#8, []) ∧
  decodeElement [0xFF#8, 0x02#8, 0xEB#8, 0x17#8, 0x01#8] = .error .truncated

/-- Decoding an encoded well-formed instruction gives it back with every operand, for an element whatever bytes follow it
(30_encoding.md R91, R92, R98). -/
def Obligations.DecodeOfEncode : Prop :=
  ∀ i : Instr, WellFormed i = true →
    (∀ w, encode i = .command w → decodeCommand w = .ok i) ∧
    (∀ bytes rest, encode i = .element bytes → decodeElement (bytes ++ rest) = .ok (i, rest))

/-- What the decoder accepts is the encoding of the instruction it gives, which is well formed: each word has one meaning
(30_encoding.md R91, R92, R94, R98). -/
def Obligations.EncodeOfDecode : Prop :=
  (∀ w i, decodeCommand w = .ok i → WellFormed i = true ∧ encode i = .command w) ∧
  (∀ bytes i rest, decodeElement bytes = .ok (i, rest) →
    WellFormed i = true ∧ ∃ pre, encode i = .element pre ∧ bytes = pre ++ rest)

/-- An illegal command word ends in ILLEGAL_CMD with no other change, on every turn of the block, and every other word is a
command (30_encoding.md R94, R97). The turns are the model's own (log 4, log 12). -/
def Obligations.IllegalCommandWords : Prop :=
  ∀ s : State,
    (s.phase = .pending → 0x0D ≤ s.cmd.toNat % 256 ∨ s.cmd.toNat / 2048 ≠ 0 →
      (s.turns = [] → step s = .next (afterError 1#4 s)) ∧
      (∀ ts, s.turns = .poll :: ts → step s = .next (afterError 1#4 s)) ∧
      (∀ ts, s.turns = .block :: ts → step s = .next (afterError 1#4 { s with turns := ts }))) ∧
    (s.cmd.toNat % 256 < 0x0D → s.cmd.toNat / 2048 = 0 → ∃ i, decodeCommand s.cmd = .ok i)

/-! ## The step -/

/-- When the block's turn comes, the step is the meaning of the latched command (20_memory.md R64); the fetch used by the
host's check is such a step. The turns are the model's own (log 4, log 5). -/
def Obligations.StepPerformsTheCommand : Prop :=
  (∀ (s : State) (i : Instr), s.phase = .pending → decodeCommand s.cmd = .ok i →
    (s.turns = [] → step s = exec i s) ∧
    (∀ ts, s.turns = .poll :: ts → step s = exec i s) ∧
    (∀ ts, s.turns = .block :: ts → step s = exec i { s with turns := ts })) ∧
  (∀ (s : State) (w : Word) (i : Instr), decodeCommand w = .ok i →
    step (s.withFetchWord 32 w.toNat) = exec i (s.issue w))

/-- UNPACK does what the element at CURSOR stands for, and END where no whole element stands there (30_encoding.md R98,
43_pulse_codec.md R173); so does the step of the host's check. The meanings of the element forms are the model's reading
(log 6, log 5). -/
def Obligations.UnpackRunsTheElementAtCursor : Prop :=
  ∀ (f : Flags) (s : State),
    (∀ i rest, fetchElement s = .ok (i, rest) → exec (.unpack f) s = exec i s) ∧
    (∀ e, fetchElement s = .error e → exec (.unpack f) s = exec .endMark s) ∧
    (∀ nbits w i, s.cfg.legal → 6 ≤ s.cfg.pulseCap → nbits ≠ 32 → decodeTableWord nbits w = some i →
      step (s.withFetchWord nbits w) = exec i { s.withFetchWord nbits w with turns := s.turns })

/-- Every other turn (20_memory.md R63, R64; 70_reset_and_hazards.md R370): the host makes its access, a host that has
faulted makes none, the platform resets, a block with no pending command waits; with no turn left it waits for its host, or the
host's recorded bus error is the end. The turns are the model's own (log 4, log 12), and when the fault is answered is its
reading (log 7). -/
def Obligations.StepTakesTheTurn : Prop :=
  ∀ (s : State) (ts : List Turn),
    (∀ op, s.turns = .host op :: ts → s.hostFault = none → step s = .next (State.hostAccess { s with turns := ts } op)) ∧
    (∀ op e, s.turns = .host op :: ts → s.hostFault = some e → step s = .next { s with turns := ts }) ∧
    (s.turns = .reset :: ts → step s = .next { s.applyReset with turns := ts }) ∧
    (s.turns = .block :: ts → s.phase = .idle → step s = .next { s with turns := ts }) ∧
    (s.turns = .poll :: ts → s.phase = .idle → s.hostFault = none →
      step s = .next (State.hostAccess { s with turns := ts } (.read Reg.status.addr .word))) ∧
    (∀ e, s.turns = .poll :: ts → s.phase = .idle → s.hostFault = some e → step s = .next { s with turns := ts }) ∧
    (s.turns = [] → s.phase = .idle → s.hostFault = none → step s = .next s) ∧
    (∀ e, s.turns = [] → s.phase = .idle → s.hostFault = some e → step s = .fault (.hostBusError e.addr e.width))

/-- Every step keeps the invariant `Inv`: legal parameters, canonical memory that lists only REC, TRACK and PULSE, VALID clear
above min(NSECT, MAX_SECTORS) (10_state.md R49), ERRCODE consistent with ERR and at most 3 (60_exceptions.md R331), and a
pending command not done. -/
def Obligations.StepKeepsInv : Prop := ∀ s t : State, Inv s → step s = .next t → Inv t

/-- Reset meets the invariant, with the default parameters and with every legal choice of them. -/
def Obligations.ResetMeetsInv : Prop := Inv State.reset ∧ ∀ cfg : Config, cfg.legal → Inv (State.resetWith cfg)

/-- A step stops only where the spec stops: a fault is the recorded bus error of a host that has nothing left to do
(20_memory.md R63; that it waits for the block is the model's reading, log 7), a refusal is a framing command in FM mode
(30_encoding.md R96). -/
def Obligations.StepStopsOnlyAsSpecified : Prop :=
  ∀ s : State,
    (∀ r, step s = .fault r →
      s.phase = .idle ∧ s.turns = [] ∧ ∃ e, s.hostFault = some e ∧ r = .hostBusError e.addr e.width) ∧
    (∀ r, step s = .refused r → r = .fmFramingNotInSource ∧ ∃ i, performs s i ∧ isFmFraming i = true)

/-- Issue and PERFORM (20_memory.md R64): the write of CMD latches the command and clears DONE, ERR and ERRCODE; the block's
step is enabled iff a command is pending; every pending command but a refused one completes in its one step. The turns are the
model's own (log 4). -/
def Obligations.IssuedCommandCompletes : Prop :=
  (∀ (s : State) (v : Word), s.phase = .idle →
    s.hostWrite Reg.cmd.addr .word v =
      { s with
        cmd := v
        phase := .pending
        status := { s.status with done := false, err := false, errcode := 0#4 }
        busRead := none }) ∧
  (∀ s : State, s.phase = .idle → blockTurn s = .next s) ∧
  (∀ s : State, s.phase = .pending → safePending s →
    s.turns = [] ∨ (∃ ts, s.turns = .block :: ts) ∨ (∃ ts, s.turns = .poll :: ts) →
    ∃ t, step s = .next t ∧ t.phase = .idle ∧ t.status.done = true ∧ t.busy = false ∧ t.cmd = s.cmd)

/-! ## Refusals and errors -/

/-- FM refusal (30_encoding.md R96): SYNC, DEMOD, MOD, DECODE and ENCODE with MODE = 1 are refused in every state; the other
eight commands ignore MODE. -/
def Obligations.FmFramingIsRefused : Prop :=
  (∀ (p c : Bool) (s : State),
    exec (.sync ⟨p, c, true⟩) s = .refused .fmFramingNotInSource ∧
    exec (.demod ⟨p, c, true⟩) s = .refused .fmFramingNotInSource ∧
    exec (.mod ⟨p, c, true⟩) s = .refused .fmFramingNotInSource ∧
    exec (.decode ⟨p, c, true⟩) s = .refused .fmFramingNotInSource ∧
    exec (.encode ⟨p, c, true⟩) s = .refused .fmFramingNotInSource) ∧
  (∀ (p c m : Bool) (s : State),
    exec (.classify ⟨p, c, m⟩) s = exec (.classify ⟨p, c, false⟩) s ∧
    exec (.readsym ⟨p, c, m⟩) s = exec (.readsym ⟨p, c, false⟩) s ∧
    exec (.crc ⟨p, c, m⟩) s = exec (.crc ⟨p, c, false⟩) s ∧
    exec (.pack ⟨p, c, m⟩) s = exec (.pack ⟨p, c, false⟩) s ∧
    exec (.unpack ⟨p, c, m⟩) s = exec (.unpack ⟨p, c, false⟩) s ∧
    exec (.nop ⟨p, c, m⟩) s = exec (.nop ⟨p, c, false⟩) s ∧
    exec (.clrvalid ⟨p, c, m⟩) s = exec (.clrvalid ⟨p, c, false⟩) s ∧
    exec (.markwr ⟨p, c, m⟩) s = exec (.markwr ⟨p, c, false⟩) s)

/-- Unused flags (30_encoding.md R95): a command is legal with any flags, and a flag the "flags used" column of R92 does not
list for it changes nothing. -/
def Obligations.UnusedFlagsAreIgnored : Prop :=
  (∀ (op : Nat) (p c m : Bool), op < 0x0D →
    ∃ i, decodeCommand (BitVec.ofNat 32 (op + p.toNat * 256 + c.toNat * 512 + m.toNat * 1024)) = .ok i) ∧
  ∀ (f g : Flags) (s : State),
    exec (.nop f) s = exec (.nop g) s ∧
    exec (.classify f) s = exec (.classify g) s ∧
    exec (.crc f) s = exec (.crc g) s ∧
    exec (.pack f) s = exec (.pack g) s ∧
    exec (.unpack f) s = exec (.unpack g) s ∧
    exec (.clrvalid f) s = exec (.clrvalid g) s ∧
    exec (.markwr f) s = exec (.markwr g) s ∧
    (f.packed = g.packed → exec (.readsym f) s = exec (.readsym g) s) ∧
    (f.packed = g.packed → f.fm = g.fm →
      exec (.sync f) s = exec (.sync g) s ∧
      exec (.demod f) s = exec (.demod g) s ∧
      exec (.mod f) s = exec (.mod g) s ∧
      exec (.encode f) s = exec (.encode g) s)

/-- The check table (60_exceptions.md R335) in the priority of R336: a row's BAD_CONFIG condition ends the command with code
2, else its BAD_ARG condition with code 3, else the command completes with no error. An element form is checked as UNPACK
(log 6). -/
def Obligations.CheckTable : Prop :=
  ∀ (i : Instr) (s : State), isFmFraming i = false →
    (badConfig i s → exec i s = .next (afterError 2#4 s)) ∧
    (¬ badConfig i s → badArg i s → exec i s = .next (afterError 3#4 s)) ∧
    (¬ badConfig i s → ¬ badArg i s →
      ∃ t, exec i s = .next t ∧ t.phase = .idle ∧ t.status.done = true ∧ t.status.err = s.status.err ∧
        t.status.errcode = s.status.errcode)

/-- Errors are precise (60_exceptions.md R334): a command that raises ERR leaves the state as it was at issue apart from
STATUS and PHASE. -/
def Obligations.ErrorsArePrecise : Prop :=
  ∀ s t : State, perform s = .next t → s.status.err = false → t.status.err = true →
    ∃ code, (code = 1#4 ∨ code = 2#4 ∨ code = 3#4) ∧ t = afterError code s

/-! ## Reset -/

/-- Reset values (70_reset_and_hazards.md R371): every register reads 0 but ID, PHASE is IDLE and IRQ is 0, after power-up
with any parameters and after a reset in any state. -/
def Obligations.ResetValues : Prop :=
  ∀ s : State, (s = State.reset ∨ (∃ cfg, s = State.resetWith cfg) ∨ ∃ s', s = State.applyReset s') →
    s.readReg .id = 0x464C0007#32 ∧ (∀ r, r ≠ .id → s.readReg r = 0#32) ∧ s.phase = .idle ∧ s.irq = false

/-- The reset event (70_reset_and_hazards.md R370, R372): a pending command is ended without being performed, and every byte
of the memories is a fresh draw. That draws are numbered by resets is the model's own (log 2). -/
def Obligations.ResetEndsThePendingCommand : Prop :=
  ∀ (s : State) (ts : List Turn), s.turns = .reset :: ts →
    ∃ t, step s = .next t ∧ t.phase = .idle ∧ t.status = Status.reset ∧ t.cmd = 0#32 ∧ t.valid = 0#32 ∧
      t.cfg = s.cfg ∧ t.turns = ts ∧ ∀ a, t.readByte a = Config.powerOnByte (s.epoch + 1) a

/-! ## NOP, CLRVALID, MARKWR -/

/-- NOP and CLRVALID (46_track_buffer_system.md R270, R271): NOP sets DONE and changes nothing else; CLRVALID clears VALID and
changes nothing else but the completion. -/
def Obligations.NopAndClrvalid : Prop :=
  ∀ (f : Flags) (s : State),
    exec (.nop f) s = .next { s with phase := .idle, status := { s.status with done := true } } ∧
    exec (.clrvalid f) s = .next { s with phase := .idle, status := { s.status with done := true }, valid := 0#32 }

/-- MARKWR (46_track_buffer_system.md R273): with 1 ≤ NSECT ≤ MAX_SECTORS and ARG0 < NSECT, VALID[ARG0] and CACHE.DIRTY are
set; no other bit of VALID, and nothing else but the completion, changes. -/
def Obligations.MarkwrMarksTheSlot : Prop :=
  ∀ (f : Flags) (s : State), 1 ≤ s.nsect.toNat → s.nsect.toNat ≤ s.cfg.maxSectors → s.arg0.toNat < s.nsect.toNat →
    ∃ v : Word, (∀ i, i < 32 → v.getLsbD i = (s.valid.getLsbD i || decide (i = s.arg0.toNat))) ∧
      exec (.markwr f) s =
        .next { s with
          phase := .idle
          status := { s.status with done := true }
          valid := v
          cache := { s.cache with dirty := true } }

/-! ## Classifier and sync search -/

/-- CLASSIFY (41_classifier_sync.md R120, R125): RESULT ← 0 if ARG0 ≤ T2, else 1 if ARG0 ≤ T3, else 2; nothing else but the
completion changes. -/
def Obligations.ClassifyResult : Prop :=
  ∀ (f : Flags) (s : State),
    exec (.classify f) s =
      .next { s with
        phase := .idle
        status := { s.status with done := true }
        result := if s.arg0.toNat ≤ s.t2.toNat then 0#32 else if s.arg0.toNat ≤ s.t3.toNat then 1#32 else 2#32 }

/-- The classifier as a function of the duration (41_classifier_sync.md R130, R121): for T2 < T3 non-decreasing, with exactly
the boundaries T2 and T3; for T2 ≥ T3 no duration is Medium. -/
def Obligations.ClassifierIsMonotone : Prop :=
  (∀ t2 t3 : Nat, t2 < t3 →
    (∀ d d', d ≤ d' → (classifyDur d t2 t3).ordinal ≤ (classifyDur d' t2 t3).ordinal) ∧
    (∀ d, (classifyDur d t2 t3).ordinal = 0 ↔ d ≤ t2) ∧
    (∀ d, (classifyDur d t2 t3).ordinal = 1 ↔ t2 < d ∧ d ≤ t3) ∧
    (∀ d, (classifyDur d t2 t3).ordinal = 2 ↔ t3 < d)) ∧
  (∀ t2 t3 : Nat, t3 ≤ t2 → ∀ d, classifyDur d t2 t3 = if d ≤ t2 then .short else .long)

/-- `next` (41_classifier_sync.md R122) in both forms, the packed one as `parse` reads it byte by byte (43_pulse_codec.md R173
to R175). -/
def Obligations.NextReadsTheStream : Prop :=
  ∀ (s : State) (c : Nat),
    nextAt false s c =
      (if c < s.plen.toNat ∧ pulseByte s c ≠ 0#8 then some ((pulseByte s c).toNat, c + 1) else none) ∧
    nextAt true s c =
      (if s.plen.toNat ≤ c then none
      else if pulseByte s c = 0#8 then none
      else if (pulseByte s c).toNat ≤ 0xF9 then some ((pulseByte s c).toNat, c + 1)
      else if (pulseByte s c).toNat ≤ 0xFE then
        if s.plen.toNat ≤ c + 1 ∨ pulseByte s (c + 1) = 0#8 then none
        else some (250 + ((pulseByte s c).toNat - 250) * 255 + ((pulseByte s (c + 1)).toNat - 1), c + 2)
      else if s.plen.toNat < c + 6 then none
      else if pulseByte s (c + 1) = 0x02#8 then
        some ((pulseByte s (c + 2)).toNat / 2 + (pulseByte s (c + 3)).toNat / 2 * 2 ^ 7
          + (pulseByte s (c + 4)).toNat / 2 * 2 ^ 14 + (pulseByte s (c + 5)).toNat / 2 * 2 ^ 21, c + 6)
      else nextAt true s (c + 6))

/-- READSYM (41_classifier_sync.md R124, R126): at END the sentinel 0x100 and CURSOR where it was; otherwise the ordinal of
the next symbol and CURSOR behind it, never past PLEN. Nothing else but EOF and the completion changes. -/
def Obligations.ReadsymResult : Prop :=
  ∀ (f : Flags) (s : State), s.plen.toNat ≤ s.cfg.pulseCap → s.cursor.toNat ≤ s.plen.toNat →
    (nextAt f.packed s s.cursor.toNat = none →
      exec (.readsym f) s =
        .next { s with
          phase := .idle
          status := { s.status with done := true, eof := true }
          result := 0x00000100#32 }) ∧
    (∀ d c', nextAt f.packed s s.cursor.toNat = some (d, c') →
      c' ≤ s.plen.toNat ∧
      exec (.readsym f) s =
        .next { s with
          phase := .idle
          status := { s.status with done := true, eof := (nextAt f.packed s c').isNone }
          result := BitVec.ofNat 32 (symbolCode s.t2.toNat s.t3.toNat d)
          cursor := BitVec.ofNat 32 c' })

/-- SYNC (41_classifier_sync.md R127, R129): symbols are shifted in from CURSOR until the register is 0x9926499 or the stream
ends. A mark takes at least 14 symbols and sets PARITY to CLOCK; RESULT and STATUS.SYNC say whether it was found, SYNCREG is
the last register, CURSOR stands behind the last symbol read. -/
def Obligations.SyncFindsTheMark : Prop :=
  ∀ (f : Flags) (s : State), f.fm = false → s.plen.toNat ≤ s.cfg.pulseCap → s.cursor.toNat ≤ s.plen.toNat →
    ∃ es, isStream f.packed s s.cursor.toNat es ∧
    ∃ m, m ≤ es.length ∧
      let reg := fun k => shiftedIn (symbolCodes s.t2.toNat s.t3.toNat es k)
      let pos := posAfter s.cursor.toNat es m
      (∀ k, k < m → reg k ≠ 0x9926499#28) ∧
      (reg m = 0x9926499#28 ∧ 14 ≤ m ∨ reg m ≠ 0x9926499#28 ∧ m = es.length) ∧
      pos ≤ s.plen.toNat ∧
      exec (.sync f) s =
        .next { s with
          phase := .idle
          status := { s.status with
            done := true
            sync := decide (reg m = 0x9926499#28)
            eof := (nextAt f.packed s pos).isNone }
          result := if reg m = 0x9926499#28 then 1#32 else 0#32
          cursor := BitVec.ofNat 32 pos
          syncreg := reg m
          dstate := { s.dstate with
            parity := if reg m = 0x9926499#28 then .clock else s.dstate.parity } }

/-! ## CRC -/

/-- The CRC of a byte sequence (42_crc.md R150, R151) and the table form of its step with the entries the rule lists (R152). -/
def Obligations.CrcEngine : Prop :=
  (∀ (crc : BitVec 16) (b : Byte),
    crcStep crc b =
      (List.range 8).foldl (fun x _ => if x.getLsbD 15 then (x <<< 1) ^^^ 0x1021#16 else x <<< 1)
        (crc ^^^ (b.setWidth 16 <<< 8))) ∧
  (∀ init : BitVec 16, crc16 [] init = init) ∧
  (∀ (bytes : List Byte) (b : Byte) (init : BitVec 16), crc16 (bytes ++ [b]) init = crcStep (crc16 bytes init) b) ∧
  (∀ (crc : BitVec 16) (b : Byte), crcStep crc b = (crc <<< 8) ^^^ crcStep 0#16 (crc.extractLsb' 8 8 ^^^ b)) ∧
  crcStep 0#16 0x00#8 = 0x0000#16 ∧ crcStep 0#16 0x01#8 = 0x1021#16 ∧ crcStep 0#16 0x02#8 = 0x2042#16 ∧
  crcStep 0#16 0x80#8 = 0x9188#16 ∧ crcStep 0#16 0xFF#8 = 0x1EF0#16

/-- Zero residue, for every initial value (42_crc.md R154): a record followed by its CRC, high byte first, folds to 0; and the
check of a record in DECODE is this test, from PRELOAD_MFM. -/
def Obligations.CrcResidueIsZero : Prop :=
  (∀ (rec : List Byte) (init : BitVec 16),
    crc16 (rec ++ [(crc16 rec init).extractLsb' 8 8, (crc16 rec init).extractLsb' 0 8]) init = 0#16) ∧
  (∀ (cfg : Config) (rec : List Byte) (mark : Byte),
    recordOk cfg rec mark = true ↔
      rec.head? = some mark ∧ crc16 rec (crc16 [0xA1#8, 0xA1#8, 0xA1#8] cfg.crcBase) = 0#16)

/-- One flipped bit changes the residue, whatever the length of the record (42_crc.md R158). -/
def Obligations.CrcDetectsOneFlippedBit : Prop :=
  ∀ (rec : List Byte) (init : BitVec 16) (i k : Nat), i < rec.length → k < 8 → crc16 rec init = 0#16 →
    crc16 (rec.set i (rec.getD i 0#8 ^^^ (1#8 <<< k))) init ≠ 0#16

/-- CRC (42_crc.md R155): with ARG0 ≤ REC_CAP, RESULT ← the CRC of REC[0 .. ARG0−1] from ARG1[15:0]; nothing else but the
completion changes. -/
def Obligations.CrcResult : Prop :=
  ∀ (f : Flags) (s : State), s.arg0.toNat ≤ s.cfg.recCap →
    exec (.crc f) s =
      .next { s with
        phase := .idle
        status := { s.status with done := true }
        result := (crc16 ((List.range s.arg0.toNat).map (fun i => s.readByte (recBase + i)))
          (BitVec.ofNat 16 s.arg1.toNat)).setWidth 32 }

/-! ## Pulse codec -/

/-- The bytes of a value, 1 ≤ v ≤ 2^28 − 1 (43_pulse_codec.md R170, 30_encoding.md R99): which form it takes, that the form's
bytes carry it, and that the low bit of an escape's payload byte is 1. -/
def Obligations.PackBytesOfValue : Prop :=
  ∀ v : Nat, 1 ≤ v → v ≤ 2 ^ 28 - 1 →
    (v ≤ 249 → ∃ b : Byte, packBytes v = [b] ∧ b.toNat = v) ∧
    (250 ≤ v → v ≤ 1524 → ∃ b0 b1 : Byte, packBytes v = [b0, b1] ∧
      b0.toNat = 250 + (v - 250) / 255 ∧ b1.toNat = 1 + (v - 250) % 255 ∧ b0.toNat ≤ 0xFE) ∧
    (1525 ≤ v → ∃ g0 g1 g2 g3 : Byte, packBytes v = [0xFF#8, 0x02#8, g0, g1, g2, g3] ∧
      g0.toNat = 1 + 2 * (v % 128) ∧ g1.toNat = 1 + 2 * (v / 2 ^ 7 % 128) ∧
      g2.toNat = 1 + 2 * (v / 2 ^ 14 % 128) ∧ g3.toNat = 1 + 2 * (v / 2 ^ 21 % 128))

/-- Pack/unpack identity (43_pulse_codec.md R171, R179): the bytes of a value parse to the value, clamped to 2^28 − 1, and to
the position behind them, whatever follows. -/
def Obligations.ParseOfPack : Prop :=
  ∀ (v c : Nat) (rest : List Byte), 1 ≤ v →
    parse (packElement v ++ rest) c = some (⟨min v (2 ^ 28 - 1), c + (packElement v).length⟩, rest)

/-- PACK (43_pulse_codec.md R176, R177): with WPOS ≤ OUTCAP ≤ PULSE_CAP and ARG0 ≠ 0, the bytes of ARG0 go to WPOS if FULL is 0
and they fit; if they do not fit, FULL is set and a 0x00 is written where a byte of room is left; with FULL set nothing is
written. WPOS, PLEN and RESULT follow the bytes written; no byte of memory outside them, and nothing else but the completion,
changes. -/
def Obligations.PackResult : Prop :=
  ∀ (f : Flags) (s : State), s.wpos.toNat ≤ s.outcap.toNat → s.outcap.toNat ≤ s.cfg.pulseCap → s.arg0 ≠ 0#32 →
    let elem := packBytes (min s.arg0.toNat (2 ^ 28 - 1))
    let fits := decide (elem.length ≤ s.outcap.toNat - s.wpos.toNat)
    let bytes := if s.status.full then [] else if fits then elem else if s.wpos.toNat < s.outcap.toNat then [0x00#8] else []
    ∃ t, exec (.pack f) s = .next t ∧
      t = { s with
        mem := t.mem
        phase := .idle
        status := { s.status with done := true, full := s.status.full || !fits }
        wpos := BitVec.ofNat 32 (s.wpos.toNat + bytes.length)
        plen := BitVec.ofNat 32 (s.wpos.toNat + bytes.length)
        result := BitVec.ofNat 32 bytes.length } ∧
      s.wpos.toNat + bytes.length ≤ s.outcap.toNat ∧
      (∀ k, k < bytes.length → t.readByte (pulseBase + s.wpos.toNat + k) = bytes.getD k 0#8) ∧
      sameMemoryBut s t (pulseBase + s.wpos.toNat) bytes.length

/-- UNPACK (43_pulse_codec.md R178): at END, RESULT = 0x80000000 and CURSOR where it was; otherwise RESULT = the value, below
2^28, and CURSOR behind its element. Nothing else but EOF and the completion changes. -/
def Obligations.UnpackResult : Prop :=
  ∀ (f : Flags) (s : State), s.plen.toNat ≤ s.cfg.pulseCap → s.cursor.toNat ≤ s.plen.toNat →
    (nextAt true s s.cursor.toNat = none →
      exec (.unpack f) s =
        .next { s with
          phase := .idle
          status := { s.status with done := true, eof := true }
          result := 0x80000000#32 }) ∧
    (∀ v c', nextAt true s s.cursor.toNat = some (v, c') →
      v < 2 ^ 28 ∧ c' ≤ s.plen.toNat ∧
      exec (.unpack f) s =
        .next { s with
          phase := .idle
          status := { s.status with done := true, eof := (nextAt true s c').isNone }
          result := BitVec.ofNat 32 v
          cursor := BitVec.ofNat 32 c' })

/-- The element forms (30_encoding.md R98): value and next position of GW1, GW2 and GW6; END and GW2-END end the stream and
consume nothing; GW6-SKIP has no value and decoding goes on six bytes further. A form whose bytes would extend past PLEN reads
as END. That an element form acts as UNPACK on it is the model's reading (log 6). -/
def Obligations.ElementForms : Prop :=
  ∀ s : State, s.plen.toNat ≤ s.cfg.pulseCap → s.cursor.toNat ≤ s.plen.toNat →
    let value := fun (v c' : Nat) =>
      { s with
        phase := .idle
        status := { s.status with done := true, eof := (nextAt true s c').isNone }
        result := BitVec.ofNat 32 v
        cursor := BitVec.ofNat 32 c' }
    let ended :=
      { s with
        phase := .idle
        status := { s.status with done := true, eof := (nextAt true s s.cursor.toNat).isNone }
        result := 0x80000000#32 }
    let c := s.cursor.toNat
    exec .endMark s = .next ended ∧
    (∀ b0, exec (.gw1 b0) s = .next (if c + 1 ≤ s.plen.toNat then value b0.toNat (c + 1) else ended)) ∧
    (∀ b0 b1, exec (.gw2 b0 b1) s =
      .next (if c + 2 ≤ s.plen.toNat then value (250 + (b0.toNat - 250) * 255 + (b1.toNat - 1)) (c + 2) else ended)) ∧
    (∀ b0, exec (.gw2End b0) s = .next ended) ∧
    (∀ p0 p1 p2 p3, exec (.gw6 p0 p1 p2 p3) s =
      .next (if c + 6 ≤ s.plen.toNat then
        value (p0.toNat / 2 + p1.toNat / 2 * 2 ^ 7 + p2.toNat / 2 * 2 ^ 14 + p3.toNat / 2 * 2 ^ 21) (c + 6)
        else ended)) ∧
    (∀ b1 p0 p1 p2 p3, exec (.gw6Skip b1 p0 p1 p2 p3) s =
      .next (if c + 6 ≤ s.plen.toNat then
        match nextAt true s (c + 6) with
        | some (v, c') => value v c'
        | none => ended
        else ended))

/-- Stream identity (43_pulse_codec.md R180): values packed one after the other from WPOS = 0 unpack again, clamped, in order,
and then END. Where a value did not fit, UNPACK gives those before it and then END. -/
def Obligations.UnpackOfPack : Prop :=
  ∀ (f g : Flags) (s : State) (vs : List Word), s.wpos = 0#32 → s.status.full = false →
    s.outcap.toNat ≤ s.cfg.pulseCap → vs ≠ [] → (∀ v ∈ vs, v ≠ 0#32) →
    let k := fitCount s.outcap.toNat (vs.map (fun v => packBytes (min v.toNat (2 ^ 28 - 1))))
    ∃ t, packRun f vs s = some t ∧ (t.status.full = true ↔ k < vs.length) ∧
      unpackRun g (k + 1) { t with cursor := 0#32 } =
        (vs.take k).map (fun v => BitVec.ofNat 32 (min v.toNat (2 ^ 28 - 1))) ++ [0x80000000#32]

/-! ## Line code -/

/-- A symbol's cells and PARITY (44_line_code.md R200, R210): ordinal s is s + 2 cells, of which the last is the transition;
PARITY flips on Medium and is unchanged on Short and Long. -/
def Obligations.ParityFlipsOnMedium : Prop :=
  (∀ sym : Symbol, sym.cells = codeCells sym.ordinal) ∧
  (∀ (p : Parity) (sym : Symbol),
    (dataBits sym.cells p).1 = dataCells p (codeCells sym.ordinal) ∧
    (dataBits sym.cells p).2 = if sym = .medium then p.next else p)

/-- DEMOD (44_line_code.md R202, R203): symbols are read from CURSOR, as few as give 8 × ARG0 data bits, sentinels past the
end included; REC[0 .. ARG0−1] holds the first 8 × ARG0 of the data bits, first bit in bit 7; RESULT = ARG0, and CURSOR, PARITY
and EOF stand behind the last symbol read. No other byte of memory, and nothing else but the completion, changes. -/
def Obligations.DemodResult : Prop :=
  ∀ (f : Flags) (s : State), f.fm = false → s.plen.toNat ≤ s.cfg.pulseCap → s.cursor.toNat ≤ s.plen.toNat →
    1 ≤ s.arg0.toNat → s.arg0.toNat ≤ s.cfg.recCap →
    ∃ es, isStream f.packed s s.cursor.toNat es ∧
    ∃ m,
      let cells := fun k => (symbolCodes s.t2.toNat s.t3.toNat es k).flatMap codeCells
      let bits := fun k => dataCells s.dstate.parity (cells k)
      let pos := posAfter s.cursor.toNat es m
      8 * s.arg0.toNat ≤ (bits m).length ∧ (∀ k, k < m → (bits k).length < 8 * s.arg0.toNat) ∧
      pos ≤ s.plen.toNat ∧
      ∃ bytes : List Byte, bytes.length = s.arg0.toNat ∧ bitsAgree bytes (bits m) ∧
      ∃ t, exec (.demod f) s = .next t ∧
        t = { s with
          mem := t.mem
          phase := .idle
          status := { s.status with done := true, eof := (nextAt f.packed s pos).isNone }
          result := s.arg0
          cursor := BitVec.ofNat 32 pos
          dstate := { s.dstate with parity := parityAfter s.dstate.parity (cells m).length } } ∧
        (∀ i, i < bytes.length → t.readByte (recBase + i) = bytes.getD i 0#8) ∧
        sameMemoryBut s t recBase bytes.length

/-- Cell words and the magic value (30_encoding.md R101, R102; 44_line_code.md R207; 41_classifier_sync.md R128): clock cell j
of a byte is NOT(d_{j−1} OR d_j) and data cell j its bit 7 − j; SYNC_A1 and SYNC_C2 are the bytes 0xA1 and 0xC2 with one clock
cell forced to 0; the register the 14 symbols between the transitions of three SYNC_A1 words make is 0x9926499. -/
def Obligations.CellWordsAndMagic : Prop :=
  (∀ (prev : Bool) (ds : List Bool) (j : Nat), j < ds.length →
    (mfmCells prev ds).getD (2 * j + 1) false = ds.getD j false ∧
    (mfmCells prev ds).getD (2 * j) false =
      !((if j = 0 then prev else ds.getD (j - 1) false) || ds.getD j false)) ∧
  (∀ prev : Bool, wordCells 0x4489#16 =
    (mfmCells prev ((List.range 8).map (fun j => (0xA1#8).getLsbD (7 - j)))).set 10 false) ∧
  (∀ prev : Bool, wordCells 0x5224#16 =
    (mfmCells prev ((List.range 8).map (fun j => (0xC2#8).getLsbD (7 - j)))).set 8 false) ∧
  intervals 0 (wordCells 0x4489#16 ++ wordCells 0x4489#16 ++ wordCells 0x4489#16) =
    [2, 4, 3, 4, 3, 2, 4, 3, 4, 3, 2, 4, 3, 4, 3] ∧
  shiftedIn ([4, 3, 4, 3, 2, 4, 3, 4, 3, 2, 4, 3, 4, 3].map (fun k => k - 2)) = 0x9926499#28 ∧
  magicMfm = 0x9926499#28 ∧ syncA1 = 0x4489#16 ∧ syncC2 = 0x5224#16

/-- MOD (44_line_code.md R204 to R209): the cells of REC[0 .. ARG0−1], or of ARG0 sync words, written at WPOS as the intervals
they close, up to the first that does not fit. RESULT counts the durations, TRUNC says whether one did not fit, FULL is set
then; ENC_PREV and ENC_RUN are those of the cells processed, ENC_RUN saturated at 15. WPOS = PLEN stands behind the bytes, never
past OUTCAP. No other byte of memory, and nothing else but the completion, changes. -/
def Obligations.ModResult : Prop :=
  ∀ (f : Flags) (s : State), f.fm = false → s.wpos.toNat ≤ s.outcap.toNat → s.outcap.toNat ≤ s.cfg.pulseCap →
    1 ≤ s.t1.toNat → (f.packed = true ∨ 4 * s.t1.toNat ≤ 255) → s.arg1.toNat % 4 ≠ 3 →
    1 ≤ s.arg0.toNat → s.arg0.toNat ≤ s.cfg.recCap →
    let items : List Item :=
      if s.arg1.toNat % 4 = 0 then (List.range s.arg0.toNat).map (fun i => .byte (s.readByte (recBase + i)))
      else if s.arg1.toNat % 4 = 1 then List.replicate s.arg0.toNat (.word 0x4489#16)
      else List.replicate s.arg0.toNat (.word 0x5224#16)
    let out := emission f.packed s.status.full s.t1.toNat (s.outcap.toNat - s.wpos.toNat) s.dstate.encRun.toNat
      (itemsCells s.dstate.encPrev items)
    ∃ t, exec (.mod f) s = .next t ∧
      t = { s with
        mem := t.mem
        phase := .idle
        status := { s.status with done := true, full := s.status.full || out.stopped, trunc := out.stopped }
        wpos := BitVec.ofNat 32 (s.wpos.toNat + out.bytes.length)
        plen := BitVec.ofNat 32 (s.wpos.toNat + out.bytes.length)
        dstate := { s.dstate with
          encPrev := lastData s.dstate.encPrev out.cells
          encRun := BitVec.ofNat 4 (min (openRun s.dstate.encRun.toNat out.cells) 15) }
        result := BitVec.ofNat 32 out.count } ∧
      s.wpos.toNat + out.bytes.length ≤ s.outcap.toNat ∧
      (∀ k, k < out.bytes.length → t.readByte (pulseBase + s.wpos.toNat + k) = out.bytes.getD k 0#8) ∧
      sameMemoryBut s t (pulseBase + s.wpos.toNat) out.bytes.length

/-- Demodulation inverts modulation (44_line_code.md R211), in both stream forms: with thresholds that separate the intervals, an
interval of 2, 3 or 4 cells is classified as the symbol of its cell count, the midpoints are such thresholds, and data bytes
modulated by MOD after a transition that ends a data cell (as SYNC_A1 does), with nothing cut off, come back from a DEMOD that
starts where they were written with PARITY = CLOCK, but for the bits whose cells are still pending in ENC_RUN (log 21). -/
def Obligations.DemodOfMod : Prop :=
  (∀ t1 t2 t3 k : Nat, 2 * t1 ≤ t2 → t2 < 3 * t1 → 3 * t1 ≤ t3 → t3 < 4 * t1 → 2 ≤ k → k ≤ 4 →
    (classifyDur (k * t1) t2 t3).ordinal = k - 2) ∧
  (∀ t1 : Nat, 1 ≤ t1 →
    2 * t1 ≤ 5 * t1 / 2 ∧ 5 * t1 / 2 < 3 * t1 ∧ 3 * t1 ≤ 7 * t1 / 2 ∧ 7 * t1 / 2 < 4 * t1) ∧
  ∀ (p c : Bool) (s t : State), s.wpos.toNat ≤ s.outcap.toNat → s.outcap.toNat ≤ s.cfg.pulseCap →
    (p = true ∨ 4 * s.t1.toNat ≤ 255) → 1 ≤ s.arg0.toNat → s.arg0.toNat ≤ s.cfg.recCap →
    s.dstate.encPrev = true → s.dstate.encRun = 0#4 → s.arg1.toNat % 4 = 0 →
    2 * s.t1.toNat ≤ s.t2.toNat → s.t2.toNat < 3 * s.t1.toNat → 3 * s.t1.toNat ≤ s.t3.toNat →
    s.t3.toNat < 4 * s.t1.toNat →
    exec (.mod ⟨p, c, false⟩) s = .next t → t.status.trunc = false →
    ∃ u, exec (.demod ⟨p, c, false⟩) { t with cursor := s.wpos, dstate := { t.dstate with parity := .clock } } = .next u ∧
      ∀ i j, i < s.arg0.toNat → j < 8 → 2 * (8 * i + j) + 1 + t.dstate.encRun.toNat < 16 * s.arg0.toNat →
        (u.readByte (recBase + i)).getLsbD (7 - j) = (s.readByte (recBase + i)).getLsbD (7 - j)

/-! ## Track decode -/

/-- DECODE (45_track_decode_encode.md R230 to R232, R234 to R239): it makes the reads of its loop from position 0. SYNCCNT
counts them, VALID is what they leave of it (of 0 with C = 1), PARITY is the last one's; where every sector is valid then, CURSOR
stands behind the last and SYNCREG holds the mark it found, and where not, one more sync search has read the stream to its end
and left its register. RESULT counts the valid sectors, EOF is the end-of-stream predicate at CURSOR. Only the registers R230
names and TRACK slots below NSECT change. -/
def Obligations.DecodeResult : Prop :=
  ∀ (f : Flags) (s : State), f.fm = false → 1 ≤ s.nsect.toNat → s.nsect.toNat ≤ s.cfg.maxSectors →
    s.plen.toNat ≤ s.cfg.pulseCap →
    let n := s.nsect.toNat
    let before := if f.clrv then 0#32 else s.valid
    ∃ rs, readsTrack f.packed s n none before 0 rs ∧
    ∃ pos reg,
      (if validCount (validAtEnd s.cfg before rs) n = n then
        pos = readEnd 0 rs ∧ reg = if rs = [] then s.syncreg else 0x9926499#28
      else
        ∃ es, isStream f.packed s (readEnd 0 rs) es ∧ pos = posAfter (readEnd 0 rs) es es.length ∧
          reg = shiftedIn (symbolCodes s.t2.toNat s.t3.toNat es es.length) ∧ nextAt f.packed s pos = none) ∧
      pos ≤ s.plen.toNat ∧
      ∃ t, exec (.decode f) s = .next t ∧
        t = { s with
          mem := t.mem
          phase := .idle
          status := { s.status with
            done := true
            idamv := t.status.idamv
            eof := (nextAt f.packed s pos).isNone }
          cursor := BitVec.ofNat 32 pos
          result := BitVec.ofNat 32 (validCount (validAtEnd s.cfg before rs) n)
          syncreg := reg
          dstate := { s.dstate with parity := parityAtEnd s.dstate.parity rs }
          lastidam := t.lastidam
          synccnt := BitVec.ofNat 32 rs.length
          valid := validAtEnd s.cfg before rs } ∧
        sameMemoryBut s t trackBase (n * s.cfg.sectorBytes)

/-- The corner case of DECODE (45_track_decode_encode.md R230): with C = 0 and every sector 1..NSECT valid already, the loop
never runs. -/
def Obligations.DecodeOfAValidTrack : Prop :=
  ∀ (f : Flags) (s : State), f.fm = false → f.clrv = false → 1 ≤ s.nsect.toNat → s.nsect.toNat ≤ s.cfg.maxSectors →
    s.plen.toNat ≤ s.cfg.pulseCap → (∀ i, i < s.nsect.toNat → s.valid.getLsbD i = true) →
    exec (.decode f) s =
      .next { s with
        phase := .idle
        status := { s.status with done := true, idamv := false, eof := (nextAt f.packed s 0).isNone }
        cursor := 0#32
        synccnt := 0#32
        result := s.nsect.setWidth 32 }

/-- IDAM capture (45_track_decode_encode.md R233): of the reads DECODE's loop makes from position 0, each IDAM with its mark
and CRC right is captured, followed up or not. IDAMV = 1 exactly where there is one; LASTIDAM holds the header bytes of the last
of them, and keeps its value where there is none. -/
def Obligations.DecodeCapturesTheIdam : Prop :=
  ∀ (f : Flags) (s : State), f.fm = false → 1 ≤ s.nsect.toNat → s.nsect.toNat ≤ s.cfg.maxSectors →
    s.plen.toNat ≤ s.cfg.pulseCap →
    ∃ rs, readsTrack f.packed s s.nsect.toNat none (if f.clrv then 0#32 else s.valid) 0 rs ∧
    ∃ t, exec (.decode f) s = .next t ∧
      (t.status.idamv = true ↔ ∃ r ∈ rs, isIdam s.cfg r) ∧
      (∀ xs r ys, rs = xs ++ r :: ys → isIdam s.cfg r → (∀ y ∈ ys, ¬ isIdam s.cfg y) →
        t.lastidam = headerWord r.bytes) ∧
      ((∀ r ∈ rs, ¬ isIdam s.cfg r) → t.lastidam = s.lastidam)

/-- Accept (45_track_decode_encode.md R234 to R237, R249), over the reads DECODE's loop makes from position 0. A DAM among them
with its mark and CRC right was looked for behind a CRC-valid IDAM with its sector number and this block's size code, while that
sector was not valid; its payload is what the slot holds at the end, its bit is set, and no later read looks for that sector. A
sector DECODE made valid has such a DAM among the reads; the slot of a sector it did not make valid keeps every byte. -/
def Obligations.DecodeWritesOnlyCheckedRecords : Prop :=
  ∀ (f : Flags) (s : State), s.cfg.legal → f.fm = false → 1 ≤ s.nsect.toNat → s.nsect.toNat ≤ s.cfg.maxSectors →
    s.plen.toNat ≤ s.cfg.pulseCap →
    let before := if f.clrv then 0#32 else s.valid
    let slot := fun i => trackBase + i * s.cfg.sectorBytes
    let dam := fun (r : TrackRecord) i => r.wanted = some (i + 1) ∧ validRecord s.cfg 0xFB#8 r.bytes
    ∃ rs, readsTrack f.packed s s.nsect.toNat none before 0 rs ∧
    ∃ t, exec (.decode f) s = .next t ∧ ∀ i, i < s.nsect.toNat →
      (∀ xs r ys, rs = xs ++ r :: ys → dam r i →
        (∃ xs' hdr, xs = xs' ++ [hdr] ∧ isIdam s.cfg hdr ∧ (hdr.bytes.getD 3 0#8).toNat = i + 1 ∧
          (hdr.bytes.getD 4 0#8).toNat = s.cfg.sizeCode) ∧
        (validAtEnd s.cfg before xs).getLsbD i = false ∧
        t.valid.getLsbD i = true ∧
        (∀ k, k < s.cfg.sectorBytes → t.readByte (slot i + k) = r.bytes.getD (k + 1) 0#8) ∧
        ∀ y ∈ ys, y.wanted ≠ some (i + 1)) ∧
      (t.valid.getLsbD i = true → before.getLsbD i = false → ∃ r ∈ rs, dam r i) ∧
      (t.valid.getLsbD i = before.getLsbD i →
        ∀ k, k < s.cfg.sectorBytes → t.readByte (slot i + k) = s.readByte (slot i + k))

/-- Validity never regresses (45_track_decode_encode.md R240): with C = 0 no valid bit is lost, and no slot whose bit was set
changes. -/
def Obligations.DecodeNeverRegresses : Prop :=
  ∀ (f : Flags) (s t : State), f.clrv = false → exec (.decode f) s = .next t → ∀ i, s.valid.getLsbD i = true →
    t.valid.getLsbD i = true ∧
    ∀ k, k < s.cfg.sectorBytes → t.readByte (trackBase + i * s.cfg.sectorBytes + k) =
      s.readByte (trackBase + i * s.cfg.sectorBytes + k)

/-! ## Track encode -/

/-- The track layout (45_track_decode_encode.md R243, R244; 30_encoding.md R103) as the rule lists it, and its default counts. -/
def Obligations.TrackLayout : Prop :=
  (Config.default.gap4a = 80 ∧ Config.default.gapPresync = 12 ∧ Config.default.gap1 = 50 ∧ Config.default.gap2 = 22 ∧
    Config.default.gap3 = 84) ∧
  ∀ (s : State) (n : Nat),
    let bytes := fun (k : Nat) (b : Byte) => List.replicate k (Item.byte b)
    let record := fun (rec : List Byte) =>
      let crc := crc16 rec (crc16 [0xA1#8, 0xA1#8, 0xA1#8] s.cfg.crcBase)
      bytes s.cfg.gapPresync 0x00#8 ++ List.replicate 3 (Item.word 0x4489#16)
        ++ (rec ++ [crc.extractLsb' 8 8, crc.extractLsb' 0 8]).map Item.byte
    layout s n =
      bytes s.cfg.gap4a 0x4E#8 ++ bytes s.cfg.gapPresync 0x00#8 ++ List.replicate 3 (Item.word 0x5224#16)
        ++ [Item.byte 0xFC#8]
        ++ (List.range n).flatMap (fun j =>
          bytes s.cfg.gap1 0x4E#8
            ++ record [0xFE#8, s.cyl, s.head, BitVec.ofNat 8 (j + 1), BitVec.ofNat 8 s.cfg.sizeCode]
            ++ bytes s.cfg.gap2 0x4E#8
            ++ record (0xFB#8 :: (List.range s.cfg.sectorBytes).map
              (fun k => s.readByte (trackBase + j * s.cfg.sectorBytes + k)))
            ++ bytes s.cfg.gap3 0x4E#8)

/-- ENCODE (45_track_decode_encode.md R242, R245 to R247): the layout's cells and then gap bytes, written from position 0 as
the intervals they close, until one does not fit into OUTCAP. RESULT counts the durations, FULL = 1, TRUNC says whether a
duration of the layout itself did not fit, WPOS = PLEN = the number of bytes. No other byte of memory, and nothing else but the
completion, changes. -/
def Obligations.EncodeResult : Prop :=
  ∀ (f : Flags) (s : State), f.fm = false → 1 ≤ s.nsect.toNat → s.nsect.toNat ≤ s.cfg.maxSectors →
    s.outcap.toNat ≤ s.cfg.pulseCap → 1 ≤ s.t1.toNat → (f.packed = true ∨ 4 * s.t1.toNat ≤ 255) →
    let track := layout s s.nsect.toNat
    let alone := emission f.packed false s.t1.toNat s.outcap.toNat 0 (itemsCells false track)
    let out := emission f.packed false s.t1.toNat s.outcap.toNat 0
      (itemsCells false (track ++ List.replicate (s.outcap.toNat + 1) (.byte 0x4E#8)))
    ∃ t, exec (.encode f) s = .next t ∧
      t = { s with
        mem := t.mem
        phase := .idle
        status := { s.status with done := true, full := true, trunc := alone.stopped }
        wpos := BitVec.ofNat 32 out.bytes.length
        plen := BitVec.ofNat 32 out.bytes.length
        dstate := { s.dstate with
          encPrev := lastData false out.cells
          encRun := BitVec.ofNat 4 (min (openRun 0 out.cells) 15) }
        result := BitVec.ofNat 32 out.count } ∧
      out.stopped = true ∧
      out.bytes.length ≤ s.outcap.toNat ∧
      (∀ k, k < out.bytes.length → t.readByte (pulseBase + k) = out.bytes.getD k 0#8) ∧
      sameMemoryBut s t pulseBase out.bytes.length

/-- The track round trip (45_track_decode_encode.md R248), for every size code and every number of sectors the block holds:
DECODE.C over the output of an ENCODE with TRUNC = 0 gives every sector back. The rule is silent on a GAP3 of 0, with which the
last CRC byte may end in cells that no transition closes; the statement asks for at least one byte of it (log 21). -/
def Obligations.TrackRoundTrip : Prop :=
  ∀ (p c : Bool) (s t : State), s.cfg.legal → 1 ≤ s.cfg.gap3 → 1 ≤ s.nsect.toNat → s.nsect.toNat ≤ s.cfg.maxSectors →
    s.outcap.toNat ≤ s.cfg.pulseCap → 1 ≤ s.t1.toNat → (p = true ∨ 4 * s.t1.toNat ≤ 255) →
    s.t2.toNat = 5 * s.t1.toNat / 2 → s.t3.toNat = 7 * s.t1.toNat / 2 →
    exec (.encode ⟨p, c, false⟩) s = .next t → t.status.trunc = false →
    ∃ u, exec (.decode ⟨p, true, false⟩) t = .next u ∧ u.result = s.nsect.setWidth 32 ∧
      (∀ i, i < s.nsect.toNat → u.valid.getLsbD i = true) ∧
      (∀ i k, i < s.nsect.toNat → k < s.cfg.sectorBytes →
        u.readByte (trackBase + i * s.cfg.sectorBytes + k) = s.readByte (trackBase + i * s.cfg.sectorBytes + k)) ∧
      u.synccnt.toNat = 2 * s.nsect.toNat ∧
      u.lastidam = BitVec.ofNat 8 s.cfg.sizeCode ++ s.nsect ++ s.head ++ s.cyl

/-! ## The whole machine -/

/-- The "writes" column of the opcode map (30_encoding.md R92): a command changes nothing else but the completion bits; the
registers only the host writes, TAGV, TAG and BUSYERR, and what is not the block's, never change. An element form writes what
UNPACK writes (log 6). -/
def Obligations.CommandsWriteOnlyWhatTheMapLists : Prop :=
  ∀ (i : Instr) (s t : State), s.cfg.legal → exec i s = .next t →
    SameSetup s t ∧ t.cache.tagv = s.cache.tagv ∧ t.cache.tag = s.cache.tag ∧ t.status.busyerr = s.status.busyerr ∧
    ∀ r, r ∉ Resource.writtenBy i → r.same s t

/-- Block accesses stay in range (20_memory.md R71): the only bytes a command changes lie in REC below ARG0 (DEMOD), in PULSE
from WPOS on below OUTCAP (PACK, MOD) or below OUTCAP (ENCODE), in TRACK slots below NSECT (DECODE), and each of these bounds is
within its memory. -/
def Obligations.CommandStoresStayInRange : Prop :=
  ∀ (i : Instr) (s t : State) (a : Nat), exec i s = .next t → t.readByte a ≠ s.readByte a →
    ((∃ f, i = .demod f) ∧ recBase ≤ a ∧ a < recBase + s.arg0.toNat ∧ s.arg0.toNat ≤ s.cfg.recCap) ∨
    (((∃ f, i = .pack f) ∨ ∃ f, i = .mod f) ∧ pulseBase + s.wpos.toNat ≤ a ∧ a < pulseBase + s.outcap.toNat ∧
      s.outcap.toNat ≤ s.cfg.pulseCap) ∨
    ((∃ f, i = .encode f) ∧ pulseBase ≤ a ∧ a < pulseBase + s.outcap.toNat ∧ s.outcap.toNat ≤ s.cfg.pulseCap) ∨
    ((∃ f, i = .decode f) ∧ trackBase ≤ a ∧ a < trackBase + s.nsect.toNat * s.cfg.sectorBytes ∧
      s.nsect.toNat ≤ s.cfg.maxSectors)

/-- The validity epoch (46_track_buffer_system.md R276, 10_state.md R40): a step takes a VALID bit from 1 to 0 only by CLRVALID,
by DECODE.C, each when the block performs it, by a host write to NSECT of an idle block or by a reset, and from 0 to 1 only when
the block performs DECODE or MARKWR. The turns are the model's own (log 4). -/
def Obligations.ValidityEpoch : Prop :=
  ∀ s t : State, step s = .next t → ∀ k,
    (s.valid.getLsbD k = true → t.valid.getLsbD k = false →
      (∃ f, performs s (.clrvalid f)) ∨ (∃ f, f.clrv = true ∧ performs s (.decode f)) ∨
      (s.phase = .idle ∧ s.hostFault = none ∧ ∃ w v ts, s.turns = .host (.write Reg.nsect.addr w v) :: ts) ∨
      (∃ ts, s.turns = .reset :: ts)) ∧
    (s.valid.getLsbD k = false → t.valid.getLsbD k = true →
      (∃ f, performs s (.decode f)) ∨ (∃ f, performs s (.markwr f)))

/-! ## The host's accesses -/

/-- STATUS as the host sees it (10_state.md R24), also while a command is pending: a read returns it, each bit in its place,
reserved bits 0, and changes nothing (20_memory.md R67, R72); a write clears the W1C bits it writes 1 to, ERR together with
ERRCODE, and changes nothing else. -/
def Obligations.StatusLayout : Prop :=
  ∀ (s : State) (v : Word),
    (∀ i, (s.readReg .status).getLsbD i =
      if i = 0 then s.busy else if i = 1 then s.status.done else if i = 2 then s.status.err
      else if 4 ≤ i ∧ i ≤ 7 then s.status.errcode.getLsbD (i - 4)
      else if i = 8 then s.status.eof else if i = 9 then s.status.full else if i = 10 then s.status.sync
      else if i = 11 then s.status.trunc else if i = 12 then s.status.idamv else if i = 13 then s.status.busyerr
      else false) ∧
    s.hostRead Reg.status.addr .word = { s with busRead := some (s.readReg .status) } ∧
    s.hostWrite Reg.status.addr .word v =
      { s with
        status := { s.status with
          done := s.status.done && !v.getLsbD 1
          err := s.status.err && !v.getLsbD 2
          errcode := if v.getLsbD 2 then 0#4 else s.status.errcode
          busyerr := s.status.busyerr && !v.getLsbD 13 }
        busRead := none }

/-- A register written by an idle block's host and read again (10_state.md R20, R21, R28, R33; 20_memory.md R72): the bits its
rule names are stored and no others; no other register changes but VALID on a write to NSECT and FULL on a write to WPOS, and
memory never changes. A read of any register of an idle block, CMD and STATUS among them, returns it and changes nothing, and CMD
reads the last word written (10_state.md R23). A reserved offset reads 0 and a write to it changes nothing (R42). -/
def Obligations.RegisterWriteThenRead : Prop :=
  (∀ (s : State) (r r' : Reg) (v : Word), s.phase = .idle → r ≠ .cmd → r ≠ .status →
    let t := s.hostWrite r.addr .word v
    (t.hostRead r.addr .word).busRead =
      some ((s.readReg r &&& ~~~r.writable) ||| (v &&& r.writable)) ∧
    (r' ≠ r →
      t.readReg r' =
        if r = .nsect ∧ r' = .valid then 0#32
        else if r = .wpos ∧ r' = .status then s.readReg .status &&& ~~~0x00000200#32
        else s.readReg r') ∧
    t.mem = s.mem) ∧
  (∀ (s : State) (r : Reg), s.phase = .idle → s.hostRead r.addr .word = { s with busRead := some (s.readReg r) }) ∧
  (∀ (s : State) (v : Word), s.phase = .idle → (s.hostWrite Reg.cmd.addr .word v).readReg .cmd = v) ∧
  (∀ (s : State) (a : BlockAddr) (v : Word), s.phase = .idle → 0x5C ≤ a.toNat → a.toNat < 0x100 → a.toNat % 4 = 0 →
    s.hostRead a .word = { s with busRead := some 0#32 } ∧
    s.hostWrite a .word v = { s with busRead := none })

/-- Host accesses to the memories of an idle block (20_memory.md R61, R62, R68, R72): a write stores its bytes in little-endian
order and changes no other byte and nothing else, a read gives the value of the bytes and changes nothing, and a read of the same
width gives a written value back. -/
def Obligations.HostMemoryIsLittleEndian : Prop :=
  ∀ (s : State) (a : BlockAddr) (w : Width) (v : Word), s.phase = .idle → accessOk s.cfg a.toNat w = true →
    0x100 ≤ a.toNat →
    let t := s.hostWrite a w v
    t = { s with mem := t.mem, busRead := none } ∧
    (∀ k, k < w.bytes → t.readByte (a.toNat + k) = v.extractLsb' (8 * k) 8) ∧
    sameMemoryBut s t a.toNat w.bytes ∧
    (∀ r, t.readReg r = s.readReg r) ∧
    t.hostRead a w = { t with busRead := some (BitVec.ofNat 32 (v.toNat % 2 ^ (8 * w.bytes))) } ∧
    (∀ u : State, u.phase = .idle → u.cfg = s.cfg →
      u.hostRead a w =
        { u with
          busRead := some (BitVec.ofNat 32
            (((List.range w.bytes).map (fun k => (u.readByte (a.toNat + k)).toNat * 2 ^ (8 * k))).sum)) })

/-- Which accesses the map allows (20_memory.md R61 to R63): registers take aligned words, memories naturally aligned accesses
that lie in one memory. That an access partly outside its memory is a bus error is the model's reading (log 8). -/
def Obligations.AllowedAccesses : Prop :=
  ∀ (cfg : Config) (a : Nat) (w : Width), cfg.legal →
    (accessOk cfg a w = true ↔
      (a < 0x100 ∧ w = .word ∧ a % 4 = 0) ∨
      (a % w.bytes = 0 ∧
        ((0x001000 ≤ a ∧ a + w.bytes ≤ 0x001000 + cfg.recCap) ∨
         (0x010000 ≤ a ∧ a + w.bytes ≤ 0x010000 + cfg.trackBytes) ∨
         (0x100000 ≤ a ∧ a + w.bytes ≤ 0x100000 + cfg.pulseCap))))

/-- A bus error (20_memory.md R63, 60_exceptions.md R338): the access changes nothing of the block and returns no value; the
fault is recorded, and no step ever clears the record. That a bus error while a command is pending is this and nothing else,
and that the record is kept beside the block, are the model's reading (log 7). -/
def Obligations.BusErrorHasNoEffect : Prop :=
  (∀ (s : State) (a : BlockAddr) (w : Width) (v : Word), accessOk s.cfg a.toNat w = false →
    s.hostRead a w = { s with hostFault := some ⟨a, w⟩, busRead := none } ∧
    s.hostWrite a w v = { s with hostFault := some ⟨a, w⟩, busRead := none }) ∧
  (∀ (s t : State) (e : BusError), s.hostFault = some e → step s = .next t → t.hostFault = some e)

/-- The busy rule (20_memory.md R67): while a command is pending the host may read ID and STATUS and write STATUS and IRQEN;
every other write is dropped, every other read returns a draw, both set BUSYERR, and the command is not affected. That the
list is complete and how draws are numbered are the model's reading (log 18, log 3). -/
def Obligations.BusyRule : Prop :=
  ∀ (s : State) (a : BlockAddr) (w : Width) (v : Word), s.phase = .pending → accessOk s.cfg a.toNat w = true →
    (a = Reg.id.addr ∨ a = Reg.status.addr →
      ∃ r, (r = .id ∨ r = .status) ∧ r.addr = a ∧ s.hostRead a w = { s with busRead := some (s.readReg r) }) ∧
    (a ≠ Reg.id.addr → a ≠ Reg.status.addr →
      ∃ x : Word, x.toNat < 2 ^ (8 * w.bytes) ∧ s.hostRead a w =
        { s with status := { s.status with busyerr := true }, draws := s.draws + 1, busRead := some x }) ∧
    (a = Reg.irqen.addr →
      s.hostWrite a w v = { s with irqen := ⟨v.getLsbD 0, v.getLsbD 1⟩, busRead := none }) ∧
    (a ≠ Reg.status.addr → a ≠ Reg.irqen.addr →
      s.hostWrite a w v = { s with status := { s.status with busyerr := true }, busRead := none })

/-- The interrupt output (60_exceptions.md R340, R341): its expression, and that it falls when DONE and ERR are cleared, when the
enables are cleared, and when a command is issued. -/
def Obligations.InterruptLevel : Prop :=
  ∀ (s : State) (v : Word),
    (s.irq = true ↔ (s.status.done = true ∧ s.irqen.doneIe = true) ∨ (s.status.err = true ∧ s.irqen.errIe = true)) ∧
    (s.hostWrite Reg.status.addr .word 0x00000006#32).irq = false ∧
    (s.hostWrite Reg.irqen.addr .word 0#32).irq = false ∧
    (s.phase = .idle → (s.hostWrite Reg.cmd.addr .word v).irq = false)

/-! ## Host sequences -/

/-- Block mapping (47_host_sequences.md R303): the numbers of a block are in range, give the block back, and two blocks of a
volume never share a place. -/
def Obligations.BlockMapping : Prop :=
  ∀ (f : Format) (b : Nat), blockInRange f b = true →
    let (track, head, sub) := blockPlace f.spt b
    track < f.cylinders ∧ head < 2 ∧ sub < f.spt ∧ (track * 2 + head) * f.spt + sub = b ∧
    ∀ b', blockInRange f b' = true → blockPlace f.spt b' = blockPlace f.spt b → b' = b

/-- write_sector (47_host_sequences.md R305) of a whole sector on a cache hit, the block idle: the slot holds the data, its
VALID bit and DIRTY are set, no other byte and no other VALID bit changes, and no collaborator is called. Of the registers only
CMD, ARG0 and the bits DONE, ERR and ERRCODE change besides, by the write of ARG0 and the completed MARKWR, and of the volume
nothing but its block. The sequences as functions are the model's form (log 24). -/
def Obligations.WriteSectorHit : Prop :=
  ∀ (v : Volume) (f : Format) (b : Nat) (data : List Byte),
    v.format = some f → blockInRange f b = true → v.block.phase = .idle →
    f.spt = v.block.nsect.toNat → f.spt ≤ v.block.cfg.maxSectors → data.length = v.block.cfg.sectorBytes →
    v.hit (blockPlace f.spt b).1 (blockPlace f.spt b).2.1 = true →
    let sub := b % f.spt
    let w := (v.writeSector b data).2
    (v.writeSector b data).1 = true ∧
    w = { v with
      block := { v.block with
        mem := w.block.mem
        phase := .idle
        cmd := 0x0000000C#32
        arg0 := BitVec.ofNat 32 sub
        status := { v.block.status with done := true, err := false, errcode := 0#4 }
        valid := w.block.valid
        cache := { v.block.cache with dirty := true }
        busRead := none } } ∧
    (∀ i, i < 32 → w.block.valid.getLsbD i = (v.block.valid.getLsbD i || decide (i = sub))) ∧
    (∀ k, k < data.length → w.block.readByte (trackBase + sub * v.block.cfg.sectorBytes + k) = data.getD k 0#8) ∧
    sameMemoryBut v.block w.block (trackBase + sub * v.block.cfg.sectorBytes) data.length

/-- sync (47_host_sequences.md R306, R307): with DIRTY = 0 it succeeds and does nothing at all; with DIRTY = 1 and a sector not
valid it fails and changes nothing. -/
def Obligations.SyncWithoutWork : Prop :=
  ∀ v : Volume,
    (v.block.cache.dirty = false → v.sync = (true, v)) ∧
    (v.block.cache.dirty = true → (∃ i, i < v.block.nsect.toNat ∧ v.block.valid.getLsbD i = false) → v.sync = (false, v))
end

