-- ==== Sys2Proof/Laws/State.lean ====
section
/-! SUPPORT. One lemma per field per update of State, each true by rfl: a proof about a field of an updated state rewrites
with these and unfolds no record update. -/
namespace Sys2Proof.Machine

/-! ### `State.complete` -/

@[simp] theorem State.complete_cfg (s : State) : (s.complete).cfg = s.cfg := rfl
@[simp] theorem State.complete_phase (s : State) : (s.complete).phase = .idle := rfl
@[simp] theorem State.complete_cmd (s : State) : (s.complete).cmd = s.cmd := rfl
@[simp] theorem State.complete_status (s : State) : (s.complete).status = { s.status with done := true } := rfl
@[simp] theorem State.complete_irqen (s : State) : (s.complete).irqen = s.irqen := rfl
@[simp] theorem State.complete_t2 (s : State) : (s.complete).t2 = s.t2 := rfl
@[simp] theorem State.complete_t3 (s : State) : (s.complete).t3 = s.t3 := rfl
@[simp] theorem State.complete_t1 (s : State) : (s.complete).t1 = s.t1 := rfl
@[simp] theorem State.complete_nsect (s : State) : (s.complete).nsect = s.nsect := rfl
@[simp] theorem State.complete_cyl (s : State) : (s.complete).cyl = s.cyl := rfl
@[simp] theorem State.complete_head (s : State) : (s.complete).head = s.head := rfl
@[simp] theorem State.complete_plen (s : State) : (s.complete).plen = s.plen := rfl
@[simp] theorem State.complete_outcap (s : State) : (s.complete).outcap = s.outcap := rfl
@[simp] theorem State.complete_cursor (s : State) : (s.complete).cursor = s.cursor := rfl
@[simp] theorem State.complete_wpos (s : State) : (s.complete).wpos = s.wpos := rfl
@[simp] theorem State.complete_arg0 (s : State) : (s.complete).arg0 = s.arg0 := rfl
@[simp] theorem State.complete_arg1 (s : State) : (s.complete).arg1 = s.arg1 := rfl
@[simp] theorem State.complete_result (s : State) : (s.complete).result = s.result := rfl
@[simp] theorem State.complete_syncreg (s : State) : (s.complete).syncreg = s.syncreg := rfl
@[simp] theorem State.complete_dstate (s : State) : (s.complete).dstate = s.dstate := rfl
@[simp] theorem State.complete_lastidam (s : State) : (s.complete).lastidam = s.lastidam := rfl
@[simp] theorem State.complete_synccnt (s : State) : (s.complete).synccnt = s.synccnt := rfl
@[simp] theorem State.complete_valid (s : State) : (s.complete).valid = s.valid := rfl
@[simp] theorem State.complete_cache (s : State) : (s.complete).cache = s.cache := rfl
@[simp] theorem State.complete_mem (s : State) : (s.complete).mem = s.mem := rfl
@[simp] theorem State.complete_epoch (s : State) : (s.complete).epoch = s.epoch := rfl
@[simp] theorem State.complete_draws (s : State) : (s.complete).draws = s.draws := rfl
@[simp] theorem State.complete_turns (s : State) : (s.complete).turns = s.turns := rfl
@[simp] theorem State.complete_hostFault (s : State) : (s.complete).hostFault = s.hostFault := rfl
@[simp] theorem State.complete_busRead (s : State) : (s.complete).busRead = s.busRead := rfl

/-! ### `State.cmdError` -/

@[simp] theorem State.cmdError_cfg (e : ErrCode) (s : State) : (s.cmdError e).cfg = s.cfg := rfl
@[simp] theorem State.cmdError_phase (e : ErrCode) (s : State) : (s.cmdError e).phase = .idle := rfl
@[simp] theorem State.cmdError_cmd (e : ErrCode) (s : State) : (s.cmdError e).cmd = s.cmd := rfl
@[simp] theorem State.cmdError_status (e : ErrCode) (s : State) : (s.cmdError e).status = { s.status with err := true, errcode := e.code, done := true } := rfl
@[simp] theorem State.cmdError_irqen (e : ErrCode) (s : State) : (s.cmdError e).irqen = s.irqen := rfl
@[simp] theorem State.cmdError_t2 (e : ErrCode) (s : State) : (s.cmdError e).t2 = s.t2 := rfl
@[simp] theorem State.cmdError_t3 (e : ErrCode) (s : State) : (s.cmdError e).t3 = s.t3 := rfl
@[simp] theorem State.cmdError_t1 (e : ErrCode) (s : State) : (s.cmdError e).t1 = s.t1 := rfl
@[simp] theorem State.cmdError_nsect (e : ErrCode) (s : State) : (s.cmdError e).nsect = s.nsect := rfl
@[simp] theorem State.cmdError_cyl (e : ErrCode) (s : State) : (s.cmdError e).cyl = s.cyl := rfl
@[simp] theorem State.cmdError_head (e : ErrCode) (s : State) : (s.cmdError e).head = s.head := rfl
@[simp] theorem State.cmdError_plen (e : ErrCode) (s : State) : (s.cmdError e).plen = s.plen := rfl
@[simp] theorem State.cmdError_outcap (e : ErrCode) (s : State) : (s.cmdError e).outcap = s.outcap := rfl
@[simp] theorem State.cmdError_cursor (e : ErrCode) (s : State) : (s.cmdError e).cursor = s.cursor := rfl
@[simp] theorem State.cmdError_wpos (e : ErrCode) (s : State) : (s.cmdError e).wpos = s.wpos := rfl
@[simp] theorem State.cmdError_arg0 (e : ErrCode) (s : State) : (s.cmdError e).arg0 = s.arg0 := rfl
@[simp] theorem State.cmdError_arg1 (e : ErrCode) (s : State) : (s.cmdError e).arg1 = s.arg1 := rfl
@[simp] theorem State.cmdError_result (e : ErrCode) (s : State) : (s.cmdError e).result = s.result := rfl
@[simp] theorem State.cmdError_syncreg (e : ErrCode) (s : State) : (s.cmdError e).syncreg = s.syncreg := rfl
@[simp] theorem State.cmdError_dstate (e : ErrCode) (s : State) : (s.cmdError e).dstate = s.dstate := rfl
@[simp] theorem State.cmdError_lastidam (e : ErrCode) (s : State) : (s.cmdError e).lastidam = s.lastidam := rfl
@[simp] theorem State.cmdError_synccnt (e : ErrCode) (s : State) : (s.cmdError e).synccnt = s.synccnt := rfl
@[simp] theorem State.cmdError_valid (e : ErrCode) (s : State) : (s.cmdError e).valid = s.valid := rfl
@[simp] theorem State.cmdError_cache (e : ErrCode) (s : State) : (s.cmdError e).cache = s.cache := rfl
@[simp] theorem State.cmdError_mem (e : ErrCode) (s : State) : (s.cmdError e).mem = s.mem := rfl
@[simp] theorem State.cmdError_epoch (e : ErrCode) (s : State) : (s.cmdError e).epoch = s.epoch := rfl
@[simp] theorem State.cmdError_draws (e : ErrCode) (s : State) : (s.cmdError e).draws = s.draws := rfl
@[simp] theorem State.cmdError_turns (e : ErrCode) (s : State) : (s.cmdError e).turns = s.turns := rfl
@[simp] theorem State.cmdError_hostFault (e : ErrCode) (s : State) : (s.cmdError e).hostFault = s.hostFault := rfl
@[simp] theorem State.cmdError_busRead (e : ErrCode) (s : State) : (s.cmdError e).busRead = s.busRead := rfl

/-! ### `State.issue` -/

@[simp] theorem State.issue_cfg (v : Word) (s : State) : (s.issue v).cfg = s.cfg := rfl
@[simp] theorem State.issue_phase (v : Word) (s : State) : (s.issue v).phase = .pending := rfl
@[simp] theorem State.issue_cmd (v : Word) (s : State) : (s.issue v).cmd = v := rfl
@[simp] theorem State.issue_status (v : Word) (s : State) : (s.issue v).status = { s.status with done := false, err := false, errcode := 0#4 } := rfl
@[simp] theorem State.issue_irqen (v : Word) (s : State) : (s.issue v).irqen = s.irqen := rfl
@[simp] theorem State.issue_t2 (v : Word) (s : State) : (s.issue v).t2 = s.t2 := rfl
@[simp] theorem State.issue_t3 (v : Word) (s : State) : (s.issue v).t3 = s.t3 := rfl
@[simp] theorem State.issue_t1 (v : Word) (s : State) : (s.issue v).t1 = s.t1 := rfl
@[simp] theorem State.issue_nsect (v : Word) (s : State) : (s.issue v).nsect = s.nsect := rfl
@[simp] theorem State.issue_cyl (v : Word) (s : State) : (s.issue v).cyl = s.cyl := rfl
@[simp] theorem State.issue_head (v : Word) (s : State) : (s.issue v).head = s.head := rfl
@[simp] theorem State.issue_plen (v : Word) (s : State) : (s.issue v).plen = s.plen := rfl
@[simp] theorem State.issue_outcap (v : Word) (s : State) : (s.issue v).outcap = s.outcap := rfl
@[simp] theorem State.issue_cursor (v : Word) (s : State) : (s.issue v).cursor = s.cursor := rfl
@[simp] theorem State.issue_wpos (v : Word) (s : State) : (s.issue v).wpos = s.wpos := rfl
@[simp] theorem State.issue_arg0 (v : Word) (s : State) : (s.issue v).arg0 = s.arg0 := rfl
@[simp] theorem State.issue_arg1 (v : Word) (s : State) : (s.issue v).arg1 = s.arg1 := rfl
@[simp] theorem State.issue_result (v : Word) (s : State) : (s.issue v).result = s.result := rfl
@[simp] theorem State.issue_syncreg (v : Word) (s : State) : (s.issue v).syncreg = s.syncreg := rfl
@[simp] theorem State.issue_dstate (v : Word) (s : State) : (s.issue v).dstate = s.dstate := rfl
@[simp] theorem State.issue_lastidam (v : Word) (s : State) : (s.issue v).lastidam = s.lastidam := rfl
@[simp] theorem State.issue_synccnt (v : Word) (s : State) : (s.issue v).synccnt = s.synccnt := rfl
@[simp] theorem State.issue_valid (v : Word) (s : State) : (s.issue v).valid = s.valid := rfl
@[simp] theorem State.issue_cache (v : Word) (s : State) : (s.issue v).cache = s.cache := rfl
@[simp] theorem State.issue_mem (v : Word) (s : State) : (s.issue v).mem = s.mem := rfl
@[simp] theorem State.issue_epoch (v : Word) (s : State) : (s.issue v).epoch = s.epoch := rfl
@[simp] theorem State.issue_draws (v : Word) (s : State) : (s.issue v).draws = s.draws := rfl
@[simp] theorem State.issue_turns (v : Word) (s : State) : (s.issue v).turns = s.turns := rfl
@[simp] theorem State.issue_hostFault (v : Word) (s : State) : (s.issue v).hostFault = s.hostFault := rfl
@[simp] theorem State.issue_busRead (v : Word) (s : State) : (s.issue v).busRead = s.busRead := rfl

/-! ### `State.ackStatus` -/

@[simp] theorem State.ackStatus_cfg (v : Word) (s : State) : (s.ackStatus v).cfg = s.cfg := rfl
@[simp] theorem State.ackStatus_phase (v : Word) (s : State) : (s.ackStatus v).phase = s.phase := rfl
@[simp] theorem State.ackStatus_cmd (v : Word) (s : State) : (s.ackStatus v).cmd = s.cmd := rfl
@[simp] theorem State.ackStatus_irqen (v : Word) (s : State) : (s.ackStatus v).irqen = s.irqen := rfl
@[simp] theorem State.ackStatus_t2 (v : Word) (s : State) : (s.ackStatus v).t2 = s.t2 := rfl
@[simp] theorem State.ackStatus_t3 (v : Word) (s : State) : (s.ackStatus v).t3 = s.t3 := rfl
@[simp] theorem State.ackStatus_t1 (v : Word) (s : State) : (s.ackStatus v).t1 = s.t1 := rfl
@[simp] theorem State.ackStatus_nsect (v : Word) (s : State) : (s.ackStatus v).nsect = s.nsect := rfl
@[simp] theorem State.ackStatus_cyl (v : Word) (s : State) : (s.ackStatus v).cyl = s.cyl := rfl
@[simp] theorem State.ackStatus_head (v : Word) (s : State) : (s.ackStatus v).head = s.head := rfl
@[simp] theorem State.ackStatus_plen (v : Word) (s : State) : (s.ackStatus v).plen = s.plen := rfl
@[simp] theorem State.ackStatus_outcap (v : Word) (s : State) : (s.ackStatus v).outcap = s.outcap := rfl
@[simp] theorem State.ackStatus_cursor (v : Word) (s : State) : (s.ackStatus v).cursor = s.cursor := rfl
@[simp] theorem State.ackStatus_wpos (v : Word) (s : State) : (s.ackStatus v).wpos = s.wpos := rfl
@[simp] theorem State.ackStatus_arg0 (v : Word) (s : State) : (s.ackStatus v).arg0 = s.arg0 := rfl
@[simp] theorem State.ackStatus_arg1 (v : Word) (s : State) : (s.ackStatus v).arg1 = s.arg1 := rfl
@[simp] theorem State.ackStatus_result (v : Word) (s : State) : (s.ackStatus v).result = s.result := rfl
@[simp] theorem State.ackStatus_syncreg (v : Word) (s : State) : (s.ackStatus v).syncreg = s.syncreg := rfl
@[simp] theorem State.ackStatus_dstate (v : Word) (s : State) : (s.ackStatus v).dstate = s.dstate := rfl
@[simp] theorem State.ackStatus_lastidam (v : Word) (s : State) : (s.ackStatus v).lastidam = s.lastidam := rfl
@[simp] theorem State.ackStatus_synccnt (v : Word) (s : State) : (s.ackStatus v).synccnt = s.synccnt := rfl
@[simp] theorem State.ackStatus_valid (v : Word) (s : State) : (s.ackStatus v).valid = s.valid := rfl
@[simp] theorem State.ackStatus_cache (v : Word) (s : State) : (s.ackStatus v).cache = s.cache := rfl
@[simp] theorem State.ackStatus_mem (v : Word) (s : State) : (s.ackStatus v).mem = s.mem := rfl
@[simp] theorem State.ackStatus_epoch (v : Word) (s : State) : (s.ackStatus v).epoch = s.epoch := rfl
@[simp] theorem State.ackStatus_draws (v : Word) (s : State) : (s.ackStatus v).draws = s.draws := rfl
@[simp] theorem State.ackStatus_turns (v : Word) (s : State) : (s.ackStatus v).turns = s.turns := rfl
@[simp] theorem State.ackStatus_hostFault (v : Word) (s : State) : (s.ackStatus v).hostFault = s.hostFault := rfl
@[simp] theorem State.ackStatus_busRead (v : Word) (s : State) : (s.ackStatus v).busRead = s.busRead := rfl

/-! ### `State.setEof` -/

@[simp] theorem State.setEof_cfg (b : Bool) (s : State) : (s.setEof b).cfg = s.cfg := rfl
@[simp] theorem State.setEof_phase (b : Bool) (s : State) : (s.setEof b).phase = s.phase := rfl
@[simp] theorem State.setEof_cmd (b : Bool) (s : State) : (s.setEof b).cmd = s.cmd := rfl
@[simp] theorem State.setEof_status (b : Bool) (s : State) : (s.setEof b).status = { s.status with eof := b } := rfl
@[simp] theorem State.setEof_irqen (b : Bool) (s : State) : (s.setEof b).irqen = s.irqen := rfl
@[simp] theorem State.setEof_t2 (b : Bool) (s : State) : (s.setEof b).t2 = s.t2 := rfl
@[simp] theorem State.setEof_t3 (b : Bool) (s : State) : (s.setEof b).t3 = s.t3 := rfl
@[simp] theorem State.setEof_t1 (b : Bool) (s : State) : (s.setEof b).t1 = s.t1 := rfl
@[simp] theorem State.setEof_nsect (b : Bool) (s : State) : (s.setEof b).nsect = s.nsect := rfl
@[simp] theorem State.setEof_cyl (b : Bool) (s : State) : (s.setEof b).cyl = s.cyl := rfl
@[simp] theorem State.setEof_head (b : Bool) (s : State) : (s.setEof b).head = s.head := rfl
@[simp] theorem State.setEof_plen (b : Bool) (s : State) : (s.setEof b).plen = s.plen := rfl
@[simp] theorem State.setEof_outcap (b : Bool) (s : State) : (s.setEof b).outcap = s.outcap := rfl
@[simp] theorem State.setEof_cursor (b : Bool) (s : State) : (s.setEof b).cursor = s.cursor := rfl
@[simp] theorem State.setEof_wpos (b : Bool) (s : State) : (s.setEof b).wpos = s.wpos := rfl
@[simp] theorem State.setEof_arg0 (b : Bool) (s : State) : (s.setEof b).arg0 = s.arg0 := rfl
@[simp] theorem State.setEof_arg1 (b : Bool) (s : State) : (s.setEof b).arg1 = s.arg1 := rfl
@[simp] theorem State.setEof_result (b : Bool) (s : State) : (s.setEof b).result = s.result := rfl
@[simp] theorem State.setEof_syncreg (b : Bool) (s : State) : (s.setEof b).syncreg = s.syncreg := rfl
@[simp] theorem State.setEof_dstate (b : Bool) (s : State) : (s.setEof b).dstate = s.dstate := rfl
@[simp] theorem State.setEof_lastidam (b : Bool) (s : State) : (s.setEof b).lastidam = s.lastidam := rfl
@[simp] theorem State.setEof_synccnt (b : Bool) (s : State) : (s.setEof b).synccnt = s.synccnt := rfl
@[simp] theorem State.setEof_valid (b : Bool) (s : State) : (s.setEof b).valid = s.valid := rfl
@[simp] theorem State.setEof_cache (b : Bool) (s : State) : (s.setEof b).cache = s.cache := rfl
@[simp] theorem State.setEof_mem (b : Bool) (s : State) : (s.setEof b).mem = s.mem := rfl
@[simp] theorem State.setEof_epoch (b : Bool) (s : State) : (s.setEof b).epoch = s.epoch := rfl
@[simp] theorem State.setEof_draws (b : Bool) (s : State) : (s.setEof b).draws = s.draws := rfl
@[simp] theorem State.setEof_turns (b : Bool) (s : State) : (s.setEof b).turns = s.turns := rfl
@[simp] theorem State.setEof_hostFault (b : Bool) (s : State) : (s.setEof b).hostFault = s.hostFault := rfl
@[simp] theorem State.setEof_busRead (b : Bool) (s : State) : (s.setEof b).busRead = s.busRead := rfl

/-! ### `State.setSync` -/

@[simp] theorem State.setSync_cfg (b : Bool) (s : State) : (s.setSync b).cfg = s.cfg := rfl
@[simp] theorem State.setSync_phase (b : Bool) (s : State) : (s.setSync b).phase = s.phase := rfl
@[simp] theorem State.setSync_cmd (b : Bool) (s : State) : (s.setSync b).cmd = s.cmd := rfl
@[simp] theorem State.setSync_status (b : Bool) (s : State) : (s.setSync b).status = { s.status with sync := b } := rfl
@[simp] theorem State.setSync_irqen (b : Bool) (s : State) : (s.setSync b).irqen = s.irqen := rfl
@[simp] theorem State.setSync_t2 (b : Bool) (s : State) : (s.setSync b).t2 = s.t2 := rfl
@[simp] theorem State.setSync_t3 (b : Bool) (s : State) : (s.setSync b).t3 = s.t3 := rfl
@[simp] theorem State.setSync_t1 (b : Bool) (s : State) : (s.setSync b).t1 = s.t1 := rfl
@[simp] theorem State.setSync_nsect (b : Bool) (s : State) : (s.setSync b).nsect = s.nsect := rfl
@[simp] theorem State.setSync_cyl (b : Bool) (s : State) : (s.setSync b).cyl = s.cyl := rfl
@[simp] theorem State.setSync_head (b : Bool) (s : State) : (s.setSync b).head = s.head := rfl
@[simp] theorem State.setSync_plen (b : Bool) (s : State) : (s.setSync b).plen = s.plen := rfl
@[simp] theorem State.setSync_outcap (b : Bool) (s : State) : (s.setSync b).outcap = s.outcap := rfl
@[simp] theorem State.setSync_cursor (b : Bool) (s : State) : (s.setSync b).cursor = s.cursor := rfl
@[simp] theorem State.setSync_wpos (b : Bool) (s : State) : (s.setSync b).wpos = s.wpos := rfl
@[simp] theorem State.setSync_arg0 (b : Bool) (s : State) : (s.setSync b).arg0 = s.arg0 := rfl
@[simp] theorem State.setSync_arg1 (b : Bool) (s : State) : (s.setSync b).arg1 = s.arg1 := rfl
@[simp] theorem State.setSync_result (b : Bool) (s : State) : (s.setSync b).result = s.result := rfl
@[simp] theorem State.setSync_syncreg (b : Bool) (s : State) : (s.setSync b).syncreg = s.syncreg := rfl
@[simp] theorem State.setSync_dstate (b : Bool) (s : State) : (s.setSync b).dstate = s.dstate := rfl
@[simp] theorem State.setSync_lastidam (b : Bool) (s : State) : (s.setSync b).lastidam = s.lastidam := rfl
@[simp] theorem State.setSync_synccnt (b : Bool) (s : State) : (s.setSync b).synccnt = s.synccnt := rfl
@[simp] theorem State.setSync_valid (b : Bool) (s : State) : (s.setSync b).valid = s.valid := rfl
@[simp] theorem State.setSync_cache (b : Bool) (s : State) : (s.setSync b).cache = s.cache := rfl
@[simp] theorem State.setSync_mem (b : Bool) (s : State) : (s.setSync b).mem = s.mem := rfl
@[simp] theorem State.setSync_epoch (b : Bool) (s : State) : (s.setSync b).epoch = s.epoch := rfl
@[simp] theorem State.setSync_draws (b : Bool) (s : State) : (s.setSync b).draws = s.draws := rfl
@[simp] theorem State.setSync_turns (b : Bool) (s : State) : (s.setSync b).turns = s.turns := rfl
@[simp] theorem State.setSync_hostFault (b : Bool) (s : State) : (s.setSync b).hostFault = s.hostFault := rfl
@[simp] theorem State.setSync_busRead (b : Bool) (s : State) : (s.setSync b).busRead = s.busRead := rfl

/-! ### `State.setFull` -/

@[simp] theorem State.setFull_cfg (b : Bool) (s : State) : (s.setFull b).cfg = s.cfg := rfl
@[simp] theorem State.setFull_phase (b : Bool) (s : State) : (s.setFull b).phase = s.phase := rfl
@[simp] theorem State.setFull_cmd (b : Bool) (s : State) : (s.setFull b).cmd = s.cmd := rfl
@[simp] theorem State.setFull_status (b : Bool) (s : State) : (s.setFull b).status = { s.status with full := b } := rfl
@[simp] theorem State.setFull_irqen (b : Bool) (s : State) : (s.setFull b).irqen = s.irqen := rfl
@[simp] theorem State.setFull_t2 (b : Bool) (s : State) : (s.setFull b).t2 = s.t2 := rfl
@[simp] theorem State.setFull_t3 (b : Bool) (s : State) : (s.setFull b).t3 = s.t3 := rfl
@[simp] theorem State.setFull_t1 (b : Bool) (s : State) : (s.setFull b).t1 = s.t1 := rfl
@[simp] theorem State.setFull_nsect (b : Bool) (s : State) : (s.setFull b).nsect = s.nsect := rfl
@[simp] theorem State.setFull_cyl (b : Bool) (s : State) : (s.setFull b).cyl = s.cyl := rfl
@[simp] theorem State.setFull_head (b : Bool) (s : State) : (s.setFull b).head = s.head := rfl
@[simp] theorem State.setFull_plen (b : Bool) (s : State) : (s.setFull b).plen = s.plen := rfl
@[simp] theorem State.setFull_outcap (b : Bool) (s : State) : (s.setFull b).outcap = s.outcap := rfl
@[simp] theorem State.setFull_cursor (b : Bool) (s : State) : (s.setFull b).cursor = s.cursor := rfl
@[simp] theorem State.setFull_wpos (b : Bool) (s : State) : (s.setFull b).wpos = s.wpos := rfl
@[simp] theorem State.setFull_arg0 (b : Bool) (s : State) : (s.setFull b).arg0 = s.arg0 := rfl
@[simp] theorem State.setFull_arg1 (b : Bool) (s : State) : (s.setFull b).arg1 = s.arg1 := rfl
@[simp] theorem State.setFull_result (b : Bool) (s : State) : (s.setFull b).result = s.result := rfl
@[simp] theorem State.setFull_syncreg (b : Bool) (s : State) : (s.setFull b).syncreg = s.syncreg := rfl
@[simp] theorem State.setFull_dstate (b : Bool) (s : State) : (s.setFull b).dstate = s.dstate := rfl
@[simp] theorem State.setFull_lastidam (b : Bool) (s : State) : (s.setFull b).lastidam = s.lastidam := rfl
@[simp] theorem State.setFull_synccnt (b : Bool) (s : State) : (s.setFull b).synccnt = s.synccnt := rfl
@[simp] theorem State.setFull_valid (b : Bool) (s : State) : (s.setFull b).valid = s.valid := rfl
@[simp] theorem State.setFull_cache (b : Bool) (s : State) : (s.setFull b).cache = s.cache := rfl
@[simp] theorem State.setFull_mem (b : Bool) (s : State) : (s.setFull b).mem = s.mem := rfl
@[simp] theorem State.setFull_epoch (b : Bool) (s : State) : (s.setFull b).epoch = s.epoch := rfl
@[simp] theorem State.setFull_draws (b : Bool) (s : State) : (s.setFull b).draws = s.draws := rfl
@[simp] theorem State.setFull_turns (b : Bool) (s : State) : (s.setFull b).turns = s.turns := rfl
@[simp] theorem State.setFull_hostFault (b : Bool) (s : State) : (s.setFull b).hostFault = s.hostFault := rfl
@[simp] theorem State.setFull_busRead (b : Bool) (s : State) : (s.setFull b).busRead = s.busRead := rfl

/-! ### `State.setParity` -/

@[simp] theorem State.setParity_cfg (p : Parity) (s : State) : (s.setParity p).cfg = s.cfg := rfl
@[simp] theorem State.setParity_phase (p : Parity) (s : State) : (s.setParity p).phase = s.phase := rfl
@[simp] theorem State.setParity_cmd (p : Parity) (s : State) : (s.setParity p).cmd = s.cmd := rfl
@[simp] theorem State.setParity_status (p : Parity) (s : State) : (s.setParity p).status = s.status := rfl
@[simp] theorem State.setParity_irqen (p : Parity) (s : State) : (s.setParity p).irqen = s.irqen := rfl
@[simp] theorem State.setParity_t2 (p : Parity) (s : State) : (s.setParity p).t2 = s.t2 := rfl
@[simp] theorem State.setParity_t3 (p : Parity) (s : State) : (s.setParity p).t3 = s.t3 := rfl
@[simp] theorem State.setParity_t1 (p : Parity) (s : State) : (s.setParity p).t1 = s.t1 := rfl
@[simp] theorem State.setParity_nsect (p : Parity) (s : State) : (s.setParity p).nsect = s.nsect := rfl
@[simp] theorem State.setParity_cyl (p : Parity) (s : State) : (s.setParity p).cyl = s.cyl := rfl
@[simp] theorem State.setParity_head (p : Parity) (s : State) : (s.setParity p).head = s.head := rfl
@[simp] theorem State.setParity_plen (p : Parity) (s : State) : (s.setParity p).plen = s.plen := rfl
@[simp] theorem State.setParity_outcap (p : Parity) (s : State) : (s.setParity p).outcap = s.outcap := rfl
@[simp] theorem State.setParity_cursor (p : Parity) (s : State) : (s.setParity p).cursor = s.cursor := rfl
@[simp] theorem State.setParity_wpos (p : Parity) (s : State) : (s.setParity p).wpos = s.wpos := rfl
@[simp] theorem State.setParity_arg0 (p : Parity) (s : State) : (s.setParity p).arg0 = s.arg0 := rfl
@[simp] theorem State.setParity_arg1 (p : Parity) (s : State) : (s.setParity p).arg1 = s.arg1 := rfl
@[simp] theorem State.setParity_result (p : Parity) (s : State) : (s.setParity p).result = s.result := rfl
@[simp] theorem State.setParity_syncreg (p : Parity) (s : State) : (s.setParity p).syncreg = s.syncreg := rfl
@[simp] theorem State.setParity_dstate (p : Parity) (s : State) : (s.setParity p).dstate = { s.dstate with parity := p } := rfl
@[simp] theorem State.setParity_lastidam (p : Parity) (s : State) : (s.setParity p).lastidam = s.lastidam := rfl
@[simp] theorem State.setParity_synccnt (p : Parity) (s : State) : (s.setParity p).synccnt = s.synccnt := rfl
@[simp] theorem State.setParity_valid (p : Parity) (s : State) : (s.setParity p).valid = s.valid := rfl
@[simp] theorem State.setParity_cache (p : Parity) (s : State) : (s.setParity p).cache = s.cache := rfl
@[simp] theorem State.setParity_mem (p : Parity) (s : State) : (s.setParity p).mem = s.mem := rfl
@[simp] theorem State.setParity_epoch (p : Parity) (s : State) : (s.setParity p).epoch = s.epoch := rfl
@[simp] theorem State.setParity_draws (p : Parity) (s : State) : (s.setParity p).draws = s.draws := rfl
@[simp] theorem State.setParity_turns (p : Parity) (s : State) : (s.setParity p).turns = s.turns := rfl
@[simp] theorem State.setParity_hostFault (p : Parity) (s : State) : (s.setParity p).hostFault = s.hostFault := rfl
@[simp] theorem State.setParity_busRead (p : Parity) (s : State) : (s.setParity p).busRead = s.busRead := rfl

/-! ### `State.storeBytes` -/

@[simp] theorem State.storeBytes_cfg (a : Nat) (bs : List Byte) (s : State) : (s.storeBytes a bs).cfg = s.cfg := rfl
@[simp] theorem State.storeBytes_phase (a : Nat) (bs : List Byte) (s : State) : (s.storeBytes a bs).phase = s.phase := rfl
@[simp] theorem State.storeBytes_cmd (a : Nat) (bs : List Byte) (s : State) : (s.storeBytes a bs).cmd = s.cmd := rfl
@[simp] theorem State.storeBytes_status (a : Nat) (bs : List Byte) (s : State) : (s.storeBytes a bs).status = s.status := rfl
@[simp] theorem State.storeBytes_irqen (a : Nat) (bs : List Byte) (s : State) : (s.storeBytes a bs).irqen = s.irqen := rfl
@[simp] theorem State.storeBytes_t2 (a : Nat) (bs : List Byte) (s : State) : (s.storeBytes a bs).t2 = s.t2 := rfl
@[simp] theorem State.storeBytes_t3 (a : Nat) (bs : List Byte) (s : State) : (s.storeBytes a bs).t3 = s.t3 := rfl
@[simp] theorem State.storeBytes_t1 (a : Nat) (bs : List Byte) (s : State) : (s.storeBytes a bs).t1 = s.t1 := rfl
@[simp] theorem State.storeBytes_nsect (a : Nat) (bs : List Byte) (s : State) : (s.storeBytes a bs).nsect = s.nsect := rfl
@[simp] theorem State.storeBytes_cyl (a : Nat) (bs : List Byte) (s : State) : (s.storeBytes a bs).cyl = s.cyl := rfl
@[simp] theorem State.storeBytes_head (a : Nat) (bs : List Byte) (s : State) : (s.storeBytes a bs).head = s.head := rfl
@[simp] theorem State.storeBytes_plen (a : Nat) (bs : List Byte) (s : State) : (s.storeBytes a bs).plen = s.plen := rfl
@[simp] theorem State.storeBytes_outcap (a : Nat) (bs : List Byte) (s : State) : (s.storeBytes a bs).outcap = s.outcap := rfl
@[simp] theorem State.storeBytes_cursor (a : Nat) (bs : List Byte) (s : State) : (s.storeBytes a bs).cursor = s.cursor := rfl
@[simp] theorem State.storeBytes_wpos (a : Nat) (bs : List Byte) (s : State) : (s.storeBytes a bs).wpos = s.wpos := rfl
@[simp] theorem State.storeBytes_arg0 (a : Nat) (bs : List Byte) (s : State) : (s.storeBytes a bs).arg0 = s.arg0 := rfl
@[simp] theorem State.storeBytes_arg1 (a : Nat) (bs : List Byte) (s : State) : (s.storeBytes a bs).arg1 = s.arg1 := rfl
@[simp] theorem State.storeBytes_result (a : Nat) (bs : List Byte) (s : State) : (s.storeBytes a bs).result = s.result := rfl
@[simp] theorem State.storeBytes_syncreg (a : Nat) (bs : List Byte) (s : State) : (s.storeBytes a bs).syncreg = s.syncreg := rfl
@[simp] theorem State.storeBytes_dstate (a : Nat) (bs : List Byte) (s : State) : (s.storeBytes a bs).dstate = s.dstate := rfl
@[simp] theorem State.storeBytes_lastidam (a : Nat) (bs : List Byte) (s : State) : (s.storeBytes a bs).lastidam = s.lastidam := rfl
@[simp] theorem State.storeBytes_synccnt (a : Nat) (bs : List Byte) (s : State) : (s.storeBytes a bs).synccnt = s.synccnt := rfl
@[simp] theorem State.storeBytes_valid (a : Nat) (bs : List Byte) (s : State) : (s.storeBytes a bs).valid = s.valid := rfl
@[simp] theorem State.storeBytes_cache (a : Nat) (bs : List Byte) (s : State) : (s.storeBytes a bs).cache = s.cache := rfl
@[simp] theorem State.storeBytes_mem (a : Nat) (bs : List Byte) (s : State) : (s.storeBytes a bs).mem = s.mem.store a bs := rfl
@[simp] theorem State.storeBytes_epoch (a : Nat) (bs : List Byte) (s : State) : (s.storeBytes a bs).epoch = s.epoch := rfl
@[simp] theorem State.storeBytes_draws (a : Nat) (bs : List Byte) (s : State) : (s.storeBytes a bs).draws = s.draws := rfl
@[simp] theorem State.storeBytes_turns (a : Nat) (bs : List Byte) (s : State) : (s.storeBytes a bs).turns = s.turns := rfl
@[simp] theorem State.storeBytes_hostFault (a : Nat) (bs : List Byte) (s : State) : (s.storeBytes a bs).hostFault = s.hostFault := rfl
@[simp] theorem State.storeBytes_busRead (a : Nat) (bs : List Byte) (s : State) : (s.storeBytes a bs).busRead = s.busRead := rfl

/-! ### `State.emit` -/

@[simp] theorem State.emit_cfg (bs : List Byte) (s : State) : (s.emit bs).cfg = s.cfg := rfl
@[simp] theorem State.emit_phase (bs : List Byte) (s : State) : (s.emit bs).phase = s.phase := rfl
@[simp] theorem State.emit_cmd (bs : List Byte) (s : State) : (s.emit bs).cmd = s.cmd := rfl
@[simp] theorem State.emit_status (bs : List Byte) (s : State) : (s.emit bs).status = s.status := rfl
@[simp] theorem State.emit_irqen (bs : List Byte) (s : State) : (s.emit bs).irqen = s.irqen := rfl
@[simp] theorem State.emit_t2 (bs : List Byte) (s : State) : (s.emit bs).t2 = s.t2 := rfl
@[simp] theorem State.emit_t3 (bs : List Byte) (s : State) : (s.emit bs).t3 = s.t3 := rfl
@[simp] theorem State.emit_t1 (bs : List Byte) (s : State) : (s.emit bs).t1 = s.t1 := rfl
@[simp] theorem State.emit_nsect (bs : List Byte) (s : State) : (s.emit bs).nsect = s.nsect := rfl
@[simp] theorem State.emit_cyl (bs : List Byte) (s : State) : (s.emit bs).cyl = s.cyl := rfl
@[simp] theorem State.emit_head (bs : List Byte) (s : State) : (s.emit bs).head = s.head := rfl
@[simp] theorem State.emit_plen (bs : List Byte) (s : State) : (s.emit bs).plen = toWord (s.wpos.toNat + bs.length) := rfl
@[simp] theorem State.emit_outcap (bs : List Byte) (s : State) : (s.emit bs).outcap = s.outcap := rfl
@[simp] theorem State.emit_cursor (bs : List Byte) (s : State) : (s.emit bs).cursor = s.cursor := rfl
@[simp] theorem State.emit_wpos (bs : List Byte) (s : State) : (s.emit bs).wpos = toWord (s.wpos.toNat + bs.length) := rfl
@[simp] theorem State.emit_arg0 (bs : List Byte) (s : State) : (s.emit bs).arg0 = s.arg0 := rfl
@[simp] theorem State.emit_arg1 (bs : List Byte) (s : State) : (s.emit bs).arg1 = s.arg1 := rfl
@[simp] theorem State.emit_result (bs : List Byte) (s : State) : (s.emit bs).result = s.result := rfl
@[simp] theorem State.emit_syncreg (bs : List Byte) (s : State) : (s.emit bs).syncreg = s.syncreg := rfl
@[simp] theorem State.emit_dstate (bs : List Byte) (s : State) : (s.emit bs).dstate = s.dstate := rfl
@[simp] theorem State.emit_lastidam (bs : List Byte) (s : State) : (s.emit bs).lastidam = s.lastidam := rfl
@[simp] theorem State.emit_synccnt (bs : List Byte) (s : State) : (s.emit bs).synccnt = s.synccnt := rfl
@[simp] theorem State.emit_valid (bs : List Byte) (s : State) : (s.emit bs).valid = s.valid := rfl
@[simp] theorem State.emit_cache (bs : List Byte) (s : State) : (s.emit bs).cache = s.cache := rfl
@[simp] theorem State.emit_mem (bs : List Byte) (s : State) : (s.emit bs).mem = s.mem.store (pulseBase + s.wpos.toNat) bs := rfl
@[simp] theorem State.emit_epoch (bs : List Byte) (s : State) : (s.emit bs).epoch = s.epoch := rfl
@[simp] theorem State.emit_draws (bs : List Byte) (s : State) : (s.emit bs).draws = s.draws := rfl
@[simp] theorem State.emit_turns (bs : List Byte) (s : State) : (s.emit bs).turns = s.turns := rfl
@[simp] theorem State.emit_hostFault (bs : List Byte) (s : State) : (s.emit bs).hostFault = s.hostFault := rfl
@[simp] theorem State.emit_busRead (bs : List Byte) (s : State) : (s.emit bs).busRead = s.busRead := rfl

/-! ### `State.busyViolation` -/

@[simp] theorem State.busyViolation_cfg (s : State) : (s.busyViolation).cfg = s.cfg := rfl
@[simp] theorem State.busyViolation_phase (s : State) : (s.busyViolation).phase = s.phase := rfl
@[simp] theorem State.busyViolation_cmd (s : State) : (s.busyViolation).cmd = s.cmd := rfl
@[simp] theorem State.busyViolation_status (s : State) : (s.busyViolation).status = { s.status with busyerr := true } := rfl
@[simp] theorem State.busyViolation_irqen (s : State) : (s.busyViolation).irqen = s.irqen := rfl
@[simp] theorem State.busyViolation_t2 (s : State) : (s.busyViolation).t2 = s.t2 := rfl
@[simp] theorem State.busyViolation_t3 (s : State) : (s.busyViolation).t3 = s.t3 := rfl
@[simp] theorem State.busyViolation_t1 (s : State) : (s.busyViolation).t1 = s.t1 := rfl
@[simp] theorem State.busyViolation_nsect (s : State) : (s.busyViolation).nsect = s.nsect := rfl
@[simp] theorem State.busyViolation_cyl (s : State) : (s.busyViolation).cyl = s.cyl := rfl
@[simp] theorem State.busyViolation_head (s : State) : (s.busyViolation).head = s.head := rfl
@[simp] theorem State.busyViolation_plen (s : State) : (s.busyViolation).plen = s.plen := rfl
@[simp] theorem State.busyViolation_outcap (s : State) : (s.busyViolation).outcap = s.outcap := rfl
@[simp] theorem State.busyViolation_cursor (s : State) : (s.busyViolation).cursor = s.cursor := rfl
@[simp] theorem State.busyViolation_wpos (s : State) : (s.busyViolation).wpos = s.wpos := rfl
@[simp] theorem State.busyViolation_arg0 (s : State) : (s.busyViolation).arg0 = s.arg0 := rfl
@[simp] theorem State.busyViolation_arg1 (s : State) : (s.busyViolation).arg1 = s.arg1 := rfl
@[simp] theorem State.busyViolation_result (s : State) : (s.busyViolation).result = s.result := rfl
@[simp] theorem State.busyViolation_syncreg (s : State) : (s.busyViolation).syncreg = s.syncreg := rfl
@[simp] theorem State.busyViolation_dstate (s : State) : (s.busyViolation).dstate = s.dstate := rfl
@[simp] theorem State.busyViolation_lastidam (s : State) : (s.busyViolation).lastidam = s.lastidam := rfl
@[simp] theorem State.busyViolation_synccnt (s : State) : (s.busyViolation).synccnt = s.synccnt := rfl
@[simp] theorem State.busyViolation_valid (s : State) : (s.busyViolation).valid = s.valid := rfl
@[simp] theorem State.busyViolation_cache (s : State) : (s.busyViolation).cache = s.cache := rfl
@[simp] theorem State.busyViolation_mem (s : State) : (s.busyViolation).mem = s.mem := rfl
@[simp] theorem State.busyViolation_epoch (s : State) : (s.busyViolation).epoch = s.epoch := rfl
@[simp] theorem State.busyViolation_draws (s : State) : (s.busyViolation).draws = s.draws := rfl
@[simp] theorem State.busyViolation_turns (s : State) : (s.busyViolation).turns = s.turns := rfl
@[simp] theorem State.busyViolation_hostFault (s : State) : (s.busyViolation).hostFault = s.hostFault := rfl
@[simp] theorem State.busyViolation_busRead (s : State) : (s.busyViolation).busRead = s.busRead := rfl

/-- A command error leaves the state of `afterError`. -/
theorem State.cmdError_eq (e : ErrCode) (s : State) : s.cmdError e = afterError e.code s := rfl

@[simp] theorem State.reset_cfg : State.reset.cfg = Config.default := rfl

end Sys2Proof.Machine
end

