-- ==== Sys2Proof/Laws/Memory.lean ====
section
/-! SUPPORT. The laws of memory: a read after a write, the canonical form, and the one-pass read. -/
namespace Sys2Proof.Machine

/-! ## Cells -/

theorem Memory.mem_cells (a : Nat) (bs : List Byte) (c : Host.Cell) (h : c ∈ Memory.cells a bs) :
    a ≤ c.1 ∧ c.1 < a + bs.length := by
  induction bs generalizing a with
  | nil => simp [Memory.cells] at h
  | cons b bs ih =>
    simp only [Memory.cells, List.mem_cons] at h
    rcases h with rfl | h
    · simp
    · have := ih (a + 1) h
      simp only [List.length_cons]
      omega

theorem Memory.cells_wf (a : Nat) (bs : List Byte) : (Memory.cells a bs).wf := by
  induction bs generalizing a with
  | nil => simp [Memory.cells]
  | cons b bs ih =>
    refine List.Pairwise.cons (fun c hc => ?_) (ih (a + 1))
    have := Memory.mem_cells (a + 1) bs c hc
    simp only
    omega

/-- What a write leaves listed. -/
theorem Memory.mem_store (m : Memory) (a : Nat) (bs : List Byte) (c : Host.Cell) (h : c ∈ m.store a bs) :
    c ∈ m ∨ (a ≤ c.1 ∧ c.1 < a + bs.length) := by
  simp only [Memory.store, List.mem_append] at h
  rcases h with (h | h) | h
  · exact .inl ((List.takeWhile_sublist _).subset h)
  · exact .inr (Memory.mem_cells a bs c h)
  · exact .inl ((List.dropWhile_sublist _).subset h)

/-- In a list that rises, what is left after dropping the addresses below a bound is at or above the bound. -/
theorem Memory.mem_dropWhile_ge (m : Memory) (hm : m.wf) (k : Nat) (c : Host.Cell)
    (h : c ∈ m.dropWhile (fun c => decide (c.1 < k))) : k ≤ c.1 := by
  induction m with
  | nil => simp at h
  | cons x m ih =>
    rw [List.dropWhile_cons] at h
    have hm' := List.pairwise_cons.1 hm
    split at h
    · exact ih hm'.2 h
    · rename_i hx
      simp only [decide_eq_true_eq, not_lt] at hx
      rcases List.mem_cons.1 h with rfl | h
      · exact hx
      · have := hm'.1 c h
        omega

theorem Memory.mem_takeWhile_lt (m : Memory) (a : Nat) (c : Host.Cell)
    (h : c ∈ m.takeWhile (fun c => decide (c.1 < a))) : c.1 < a := by
  simpa using List.mem_takeWhile_imp h

/-- A write keeps the canonical form. -/
theorem Memory.store_wf (m : Memory) (a : Nat) (bs : List Byte) (hm : m.wf) : (m.store a bs).wf := by
  have ht : Memory.wf (m.takeWhile fun c => decide (c.1 < a)) := hm.sublist (List.takeWhile_sublist _)
  have hd : Memory.wf (m.dropWhile fun c => decide (c.1 < a + bs.length)) := hm.sublist (List.dropWhile_sublist _)
  refine List.pairwise_append.2 ⟨List.pairwise_append.2 ⟨ht, Memory.cells_wf a bs, ?_⟩, hd, ?_⟩
  · intro x hx y hy
    have := Memory.mem_takeWhile_lt m a x hx
    have := Memory.mem_cells a bs y hy
    omega
  · intro x hx y hy
    have hy := Memory.mem_dropWhile_ge m hm _ y hy
    rcases List.mem_append.1 hx with hx | hx
    · have := Memory.mem_takeWhile_lt m a x hx
      omega
    · have := Memory.mem_cells a bs x hx
      omega

theorem Memory.dropWhile_dropWhile (m : Memory) (a k : Nat) (h : a ≤ k) :
    (m.dropWhile fun c => decide (c.1 < a)).dropWhile (fun c => decide (c.1 < k)) =
      m.dropWhile (fun c => decide (c.1 < k)) := by
  induction m with
  | nil => rfl
  | cons x m ih =>
    by_cases hx : x.1 < a
    · have : x.1 < k := by omega
      simp [hx, this, ih]
    · simp [hx]

theorem Memory.byte?_eq_head (m : Memory) (k : Nat) :
    m.byte? k = (m.dropWhile fun c => decide (c.1 < k)).head?.bind
      (fun c => if c.1 = k then some c.2 else none) := by
  unfold Memory.byte?
  split <;> rename_i h <;> simp [h]

theorem Memory.byte?_append_of_lt (m m' : Memory) (k : Nat) (h : ∀ c ∈ m, c.1 < k) :
    Memory.byte? (m ++ m') k = Memory.byte? m' k := by
  have : (m ++ m').dropWhile (fun c => decide (c.1 < k)) = m'.dropWhile (fun c => decide (c.1 < k)) := by
    rw [List.dropWhile_append, List.dropWhile_eq_nil_iff.2 (by simpa using h)]
    simp
  rw [Memory.byte?_eq_head, Memory.byte?_eq_head, this]

theorem Memory.byte?_cells_append (a : Nat) (bs : List Byte) (m : Memory) (k : Nat) (h1 : a ≤ k)
    (h2 : k < a + bs.length) : Memory.byte? (Memory.cells a bs ++ m) k = bs[k - a]? := by
  induction bs generalizing a with
  | nil => simp at h2; omega
  | cons b bs ih =>
    by_cases hk : a = k
    · subst hk
      simp [Memory.cells, Memory.byte?_eq_head]
    · have hlt : a < k := by omega
      have step := ih (a + 1) (by omega) (by simp only [List.length_cons] at h2; omega)
      have : k - a = (k - (a + 1)) + 1 := by omega
      rw [this, List.getElem?_cons_succ, ← step]
      simp [Memory.cells, Memory.byte?_eq_head, hlt]

/-- Reading one address after a write: the written byte inside the written range, what was there outside it. -/
theorem Memory.byte?_store (m : Memory) (a : Nat) (bs : List Byte) (k : Nat) :
    (m.store a bs).byte? k = if a ≤ k ∧ k < a + bs.length then bs[k - a]? else m.byte? k := by
  have hlow : ∀ c ∈ m.takeWhile (fun c => decide (c.1 < a)), c.1 < a := fun c hc => Memory.mem_takeWhile_lt m a c hc
  by_cases h1 : a ≤ k
  · rw [Memory.store, List.append_assoc, Memory.byte?_append_of_lt _ _ _ (fun c hc => by have := hlow c hc; omega)]
    by_cases h2 : k < a + bs.length
    · rw [if_pos ⟨h1, h2⟩, Memory.byte?_cells_append a bs _ k h1 h2]
    · rw [if_neg (by omega), Memory.byte?_append_of_lt _ _ _
        (fun c hc => by have := Memory.mem_cells a bs c hc; omega)]
      rw [Memory.byte?_eq_head, Memory.byte?_eq_head, Memory.dropWhile_dropWhile m _ _ (by omega)]
  · rw [if_neg (by omega)]
    have hk : k < a := by omega
    -- the first address at or above k decides; it lies in the kept prefix or is at least a
    have key : ∀ m' : Memory, (∀ c ∈ m'.head?, a ≤ c.1) →
        Memory.byte? (m.takeWhile (fun c => decide (c.1 < a)) ++ m') k = m.byte? k := by
      intro m' hm'
      clear hlow
      induction m with
      | nil =>
        cases m' with
        | nil => rfl
        | cons x m' =>
          have hx : a ≤ x.1 := hm' x (by simp)
          simp [Memory.byte?_eq_head, show ¬ x.1 < k by omega, show x.1 ≠ k by omega]
      | cons x m ih =>
        by_cases hx : x.1 < a
        · by_cases hxk : x.1 < k
          · simpa [Memory.byte?_eq_head, hx, hxk] using ih
          · simp [Memory.byte?_eq_head, hx, hxk]
        · have e1 : Memory.byte? (x :: m) k = none := by
            simp [Memory.byte?_eq_head, show ¬ x.1 < k by omega, show x.1 ≠ k by omega]
          rw [e1]
          cases m' with
          | nil => simp [Memory.byte?_eq_head, hx]
          | cons y m' =>
            have hy : a ≤ y.1 := hm' y (by simp)
            simp [Memory.byte?_eq_head, hx, show ¬ y.1 < k by omega, show y.1 ≠ k by omega]
    rw [Memory.store, List.append_assoc]
    apply key
    intro c hc
    cases bs with
    | nil =>
      simp only [Memory.cells, List.nil_append, List.length_nil, Nat.add_zero] at hc
      have := List.head?_dropWhile_not (fun c : Host.Cell => decide (c.1 < a)) m
      rw [hc] at this
      simpa using this
    | cons b bs => simp [Memory.cells] at hc; subst hc; simp

/-! ## One byte of the state -/

/-- Reading one byte after a write. -/
theorem State.readByte_storeBytes (s : State) (a : Nat) (bs : List Byte) (k : Nat) :
    (s.storeBytes a bs).readByte k = if a ≤ k ∧ k < a + bs.length then bs.getD (k - a) 0#8 else s.readByte k := by
  unfold State.readByte State.unlisted
  simp only [State.storeBytes_mem, State.storeBytes_epoch, Memory.byte?_store]
  split
  · rename_i h
    rw [List.getD_eq_getElem?_getD, List.getElem?_eq_getElem (by omega)]
    rfl
  · rfl

/-- A write leaves every byte outside it alone. -/
theorem State.readByte_storeBytes_of_out (s : State) (a : Nat) (bs : List Byte) (k : Nat)
    (h : k < a ∨ a + bs.length ≤ k) : (s.storeBytes a bs).readByte k = s.readByte k := by
  rw [State.readByte_storeBytes, if_neg (by omega)]

/-- A stored byte reads back. -/
theorem State.readByte_storeBytes_at (s : State) (a : Nat) (bs : List Byte) (k : Nat) (h : k < bs.length) :
    (s.storeBytes a bs).readByte (a + k) = bs.getD k 0#8 := by
  rw [State.readByte_storeBytes, if_pos (by omega), Nat.add_sub_cancel_left]

/-- Two states with the same memory and the same draws read alike. -/
theorem State.readByte_congr {s t : State} (hm : t.mem = s.mem) (he : t.epoch = s.epoch) (a : Nat) :
    t.readByte a = s.readByte a := by
  unfold State.readByte State.unlisted
  rw [hm, he]

/-! ## Several bytes -/

theorem Memory.window_dropWhile (dflt : Nat → Byte) (n a : Nat) (m : Memory) :
    Memory.window dflt n a (m.dropWhile fun c => decide (c.1 < a)) = Memory.window dflt n a m := by
  cases n with
  | zero => rfl
  | succ n => simp only [Memory.window, Memory.dropWhile_dropWhile m a a (Nat.le_refl a)]

theorem Memory.window_eq (dflt : Nat → Byte) (n a : Nat) (m : Memory) :
    Memory.window dflt n a m = (List.range n).map (fun i => (m.byte? (a + i)).getD (dflt (a + i))) := by
  induction n generalizing a m with
  | zero => rfl
  | succ n ih =>
    have hb : ∀ k, a < k → Memory.byte? (m.dropWhile fun c => decide (c.1 < a)) k = m.byte? k := fun k hk => by
      rw [Memory.byte?_eq_head, Memory.byte?_eq_head, Memory.dropWhile_dropWhile m a k (by omega)]
    have tail : (List.range n).map
          (fun i => (Memory.byte? (m.dropWhile fun c => decide (c.1 < a)) (a + 1 + i)).getD (dflt (a + 1 + i))) =
        (List.range n).map (fun i => (m.byte? (a + (i + 1))).getD (dflt (a + (i + 1)))) := by
      refine List.map_congr_left fun i _ => ?_
      rw [hb _ (by omega), show a + 1 + i = a + (i + 1) by omega]
    have head0 : (m.byte? a).getD (dflt a) =
        match m.dropWhile (fun c => decide (c.1 < a)) with
        | (k, b) :: _ => if k = a then b else dflt a
        | [] => dflt a := by
      unfold Memory.byte?
      cases List.dropWhile (fun c : Host.Cell => decide (c.1 < a)) m with
      | nil => rfl
      | cons c r => by_cases hk : c.1 = a <;> simp [hk]
    rw [List.range_succ_eq_map, List.map_cons, List.map_map]
    simp only [Memory.window, Nat.add_zero, Function.comp_def, Nat.succ_eq_add_one]
    rw [head0, ← tail]
    split <;> rename_i h <;> simp only [h, ih]

/-- Several bytes are read one by one. -/
theorem State.readBytes_eq (s : State) (a n : Nat) :
    s.readBytes a n = (List.range n).map (fun i => s.readByte (a + i)) := by
  unfold State.readBytes State.readByte
  exact Memory.window_eq _ n a s.mem

@[simp] theorem State.readBytes_length (s : State) (a n : Nat) : (s.readBytes a n).length = n := by
  simp [State.readBytes_eq]

theorem State.readBytes_getElem? (s : State) (a n i : Nat) (h : i < n) :
    (s.readBytes a n)[i]? = some (s.readByte (a + i)) := by
  simp [State.readBytes_eq, h]

theorem State.readBytes_congr {s t : State} (hm : t.mem = s.mem) (he : t.epoch = s.epoch) (a n : Nat) :
    t.readBytes a n = s.readBytes a n := by
  simp only [State.readBytes_eq, State.readByte_congr hm he]

theorem State.readBytes_succ (s : State) (a n : Nat) :
    s.readBytes a (n + 1) = s.readByte a :: s.readBytes (a + 1) n := by
  rw [State.readBytes_eq, State.readBytes_eq, List.range_succ_eq_map, List.map_cons, List.map_map]
  simp only [Nat.add_zero, Function.comp_def, Nat.succ_eq_add_one, List.cons.injEq, true_and]
  exact List.map_congr_left fun i _ => by rw [show a + (i + 1) = a + 1 + i by omega]

/-- The bytes just written are read back. -/
theorem State.readBytes_storeBytes (s : State) (a : Nat) (bs : List Byte) :
    (s.storeBytes a bs).readBytes a bs.length = bs := by
  apply List.ext_getElem?
  intro i
  by_cases h : i < bs.length
  · rw [State.readBytes_getElem? _ _ _ _ h, State.readByte_storeBytes, if_pos (by omega), List.getD_eq_getElem?_getD,
      show a + i - a = i by omega, List.getElem?_eq_getElem h]
    rfl
  · rw [List.getElem?_eq_none (by simpa using h), List.getElem?_eq_none (by simpa using h)]

/-- Reading outside a write gives what was there. -/
theorem State.readBytes_storeBytes_of_out (s : State) (a : Nat) (bs : List Byte) (k n : Nat)
    (h : k + n ≤ a ∨ a + bs.length ≤ k) : (s.storeBytes a bs).readBytes k n = s.readBytes k n := by
  rw [State.readBytes_eq, State.readBytes_eq]
  refine List.map_congr_left fun i hi => State.readByte_storeBytes_of_out _ _ _ _ ?_
  have := List.mem_range.1 hi
  omega

end Sys2Proof.Machine
end

