-- ==== Sys2Proof/Laws/Bus.lean ====
section
/-! SUPPORT. The laws of the address map and of the host's accesses (20_memory.md). -/
namespace Sys2Proof.Machine

/-- A legal sector has at most 1024 bytes (00_scope.md R9). -/
theorem sectorBytes_le {cfg : Config} (hl : cfg.legal) : cfg.sectorBytes ≤ 1024 := by
  unfold Config.sectorBytes
  have : (2:Nat) ^ cfg.sizeCode ≤ 2 ^ 3 := Nat.pow_le_pow_right (by omega) hl.1
  omega

/-- A legal TRACK has at most 32768 bytes (00_scope.md R9). -/
theorem trackBytes_le {cfg : Config} (hl : cfg.legal) : cfg.trackBytes ≤ 32 * 1024 := by
  unfold Config.trackBytes
  exact Nat.mul_le_mul hl.2.2.1 (sectorBytes_le hl)

/-- The addresses of REC (20_memory.md R62). -/
theorem regionOf_rec {cfg : Config} {a : Nat} (h1 : recBase ≤ a) (h2 : a < recBase + cfg.recCap) :
    regionOf cfg a = some .recMem := by
  unfold regionOf
  have : recBase = 0x1000 := rfl
  rw [if_neg (by omega), if_pos ⟨h1, h2⟩]

/-- The addresses of TRACK (20_memory.md R62). -/
theorem regionOf_track {cfg : Config} (hl : cfg.legal) {a : Nat} (h1 : trackBase ≤ a) (h2 : a < trackBase + cfg.trackBytes) :
    regionOf cfg a = some .track := by
  unfold regionOf
  have h3 : recBase = 0x1000 := rfl
  have h4 : trackBase = 0x10000 := rfl
  have h5 := sectorBytes_le hl
  have h6 : cfg.recCap = cfg.sectorBytes + 3 := rfl
  rw [if_neg (by omega), if_neg (by omega), if_pos ⟨h1, h2⟩]

/-- The addresses of PULSE (20_memory.md R62). -/
theorem regionOf_pulse {cfg : Config} (hl : cfg.legal) {a : Nat} (h1 : pulseBase ≤ a) (h2 : a < pulseBase + cfg.pulseCap) :
    regionOf cfg a = some .pulse := by
  unfold regionOf
  have h3 : recBase = 0x1000 := rfl
  have h4 : trackBase = 0x10000 := rfl
  have h7 : pulseBase = 0x100000 := rfl
  have h5 := sectorBytes_le hl
  have h6 : cfg.recCap = cfg.sectorBytes + 3 := rfl
  have h8 := trackBytes_le hl
  rw [if_neg (by omega), if_neg (by omega), if_neg (by omega), if_pos ⟨h1, h2⟩]

/-- What the region of an address says of it (20_memory.md R62). -/
theorem regionOf_cases {cfg : Config} {a : Nat} {r : Region} (h : regionOf cfg a = some r) :
    (r = .regs ∧ a < 0x100) ∨ (r = .recMem ∧ 0x100 ≤ a ∧ recBase ≤ a ∧ a < recBase + cfg.recCap) ∨
      (r = .track ∧ 0x100 ≤ a ∧ trackBase ≤ a ∧ a < trackBase + cfg.trackBytes) ∨
      (r = .pulse ∧ 0x100 ≤ a ∧ pulseBase ≤ a ∧ a < pulseBase + cfg.pulseCap) := by
  unfold regionOf at h
  split at h
  · cases h; exact .inl ⟨rfl, ‹_›⟩
  · split at h
    · cases h; exact .inr (.inl ⟨rfl, by omega, by omega, by omega⟩)
    · split at h
      · cases h; exact .inr (.inr (.inl ⟨rfl, by omega, by omega, by omega⟩))
      · split at h
        · cases h; exact .inr (.inr (.inr ⟨rfl, by omega, by omega, by omega⟩))
        · cases h

/-- An allowed access above the registers lies in one memory and is naturally aligned (20_memory.md R61, R63). -/
theorem accessOk_mem {cfg : Config} {a : Nat} {w : Width} (h : accessOk cfg a w = true) (ha : 0x100 ≤ a) :
    (∃ r, regionOf cfg a = some r ∧ r ≠ .regs ∧ regionOf cfg (a + w.bytes - 1) = some r ∧ a % w.bytes = 0) := by
  unfold accessOk at h
  split at h
  · cases h
  · rename_i hr
    unfold regionOf at hr
    rw [if_neg (by omega)] at hr
    split at hr <;> (try split at hr) <;> (try split at hr) <;> cases hr
  · rename_i r hne hr
    simp only [Bool.and_eq_true, decide_eq_true_eq] at h
    exact ⟨_, hr, hne, h.2, h.1⟩

theorem bytesOfNat_length (n w : Nat) : (bytesOfNat n w).length = n := by
  induction n generalizing w with
  | zero => rfl
  | succ n ih => simp [bytesOfNat, ih]

/-- The register found at an offset has it. -/
theorem ofOffset_some {off : Nat} {r : Reg} (h : Reg.ofOffset off = some r) : r.offset = off := by
  have := List.find?_some h
  simpa using this

/-- Every register is found at its offset (10_state.md R20). -/
theorem ofOffset_offset (r : Reg) : Reg.ofOffset r.offset = some r := by cases r <;> rfl

theorem addr_toNat (r : Reg) : r.addr.toNat = r.offset := by cases r <;> rfl

/-- No register has a reserved offset (10_state.md R42). -/
theorem ofOffset_reserved {off : Nat} (h : 0x5C ≤ off) : Reg.ofOffset off = none := by
  cases hr : Reg.ofOffset off with
  | none => rfl
  | some r =>
    have := ofOffset_some hr
    have : r.offset ≤ 0x58 := by cases r <;> decide
    omega

/-- A word access to a register is allowed (20_memory.md R61). -/
theorem accessOk_reg (cfg : Config) (r : Reg) : accessOk cfg r.addr.toNat .word = true := by cases r <;> rfl

end Sys2Proof.Machine
end

