-- ==== Sys2Proof/Laws/Stream.lean ====
section
/-! SUPPORT. The laws of the pulse stream: how far an element reaches, how the stream goes on behind it, and how the parser
and the element decoder agree. -/
namespace Sys2Proof.Machine

/-! ## One element -/

/-- The parser as one case split, the recursion of a skip included. -/
theorem parse_cons (b0 : Byte) (rest : List Byte) (c : Nat) :
    parse (b0 :: rest) c =
      if b0 = 0#8 then none
      else if b0.toNat ≤ 0xF9 then some (⟨b0.toNat, c + 1⟩, rest)
      else if b0.toNat ≤ 0xFE then
        match rest with
        | b1 :: r => if b1 = 0#8 then none else some (⟨gw2Value b0 b1, c + 2⟩, r)
        | [] => none
      else
        match rest with
        | b1 :: p0 :: p1 :: p2 :: p3 :: r =>
          if b1 = 2#8 then some (⟨gw6Value p0 p1 p2 p3, c + 6⟩, r) else parse r (c + 6)
        | _ => none := by
  rw [parse.eq_def] <;> rfl

/-- The element decoder as one case split. -/
theorem decodeElement_cons (b0 : Byte) (rest : List Byte) :
    decodeElement (b0 :: rest) =
      if b0 = 0#8 then .ok (.endMark, rest)
      else if b0.toNat ≤ 0xF9 then .ok (.gw1 b0, rest)
      else if b0.toNat ≤ 0xFE then
        match rest with
        | b1 :: r => if b1 = 0#8 then .ok (.gw2End b0, r) else .ok (.gw2 b0 b1, r)
        | [] => .error .truncated
      else
        match rest with
        | b1 :: p0 :: p1 :: p2 :: p3 :: r =>
          if b1 = 2#8 then .ok (.gw6 p0 p1 p2 p3, r) else .ok (.gw6Skip b1 p0 p1 p2 p3, r)
        | _ => .error .truncated := rfl

/-- What the parser gives at the element the decoder reads there (30_encoding.md R98, 43_pulse_codec.md R173). -/
theorem parse_of_decode (bs : List Byte) (c : Nat) (i : Instr) (r : List Byte) (h : decodeElement bs = .ok (i, r)) :
    (i = .endMark ∧ parse bs c = none) ∨
    (∃ b0, i = .gw1 b0 ∧ bs = b0 :: r ∧ parse bs c = some (⟨b0.toNat, c + 1⟩, r)) ∨
    (∃ b0 b1, i = .gw2 b0 b1 ∧ bs = b0 :: b1 :: r ∧ parse bs c = some (⟨gw2Value b0 b1, c + 2⟩, r)) ∨
    (∃ b0, i = .gw2End b0 ∧ parse bs c = none) ∨
    (∃ p0 p1 p2 p3, i = .gw6 p0 p1 p2 p3 ∧ bs = 0xFF#8 :: 2#8 :: p0 :: p1 :: p2 :: p3 :: r ∧
      parse bs c = some (⟨gw6Value p0 p1 p2 p3, c + 6⟩, r)) ∨
    (∃ b1 p0 p1 p2 p3, i = .gw6Skip b1 p0 p1 p2 p3 ∧ bs = 0xFF#8 :: b1 :: p0 :: p1 :: p2 :: p3 :: r ∧ b1 ≠ 2#8 ∧
      parse bs c = parse r (c + 6)) := by
  cases bs with
  | nil => simp [decodeElement] at h
  | cons b0 rest =>
    rw [parse_cons]
    rw [decodeElement_cons] at h
    split at h
    · rename_i h0
      simp only [Except.ok.injEq, Prod.mk.injEq] at h
      exact .inl ⟨h.1.symm, by simp [h0]⟩
    · rename_i h0
      split at h
      · rename_i h1
        simp only [Except.ok.injEq, Prod.mk.injEq] at h
        obtain ⟨rfl, rfl⟩ := h
        exact .inr (.inl ⟨b0, rfl, rfl, by simp [h0, h1]⟩)
      · rename_i h1
        split at h
        · rename_i h2
          split at h
          · rename_i b1 r'
            split at h <;> simp only [Except.ok.injEq, Prod.mk.injEq] at h <;> obtain ⟨rfl, rfl⟩ := h
            · rename_i h3
              exact .inr (.inr (.inr (.inl ⟨b0, rfl, by simp [h0, h1, h2, h3]⟩)))
            · rename_i h3
              exact .inr (.inr (.inl ⟨b0, b1, rfl, rfl, by simp [h0, h1, h2, h3]⟩))
          · cases h
        · rename_i h2
          have hff : b0 = 0xFF#8 := by
            apply BitVec.eq_of_toNat_eq
            have := b0.isLt
            simp only [BitVec.toNat_ofNat]
            omega
          split at h
          · rename_i b1 p0 p1 p2 p3 r'
            split at h <;> simp only [Except.ok.injEq, Prod.mk.injEq] at h <;> obtain ⟨rfl, rfl⟩ := h
            · rename_i h3
              subst hff h3
              exact .inr (.inr (.inr (.inr (.inl ⟨p0, p1, p2, p3, rfl, rfl, by simp⟩))))
            · rename_i h3
              subst hff
              exact .inr (.inr (.inr (.inr (.inr ⟨b1, p0, p1, p2, p3, rfl, rfl, h3, by simp [h3]⟩))))
          · cases h

/-- Where the decoder reads no element, the parser is at END (30_encoding.md R98). -/
theorem parse_of_decode_error (bs : List Byte) (c : Nat) (e : Reject) (h : decodeElement bs = .error e) :
    parse bs c = none := by
  cases bs with
  | nil => rfl
  | cons b0 rest =>
    rw [parse_cons]
    rw [decodeElement_cons] at h
    split at h
    · cases h
    · rename_i h0
      split at h
      · cases h
      · rename_i h1
        split at h
        · rename_i h2
          split at h
          · split at h <;> cases h
          · simp [h0, h1, h2]
        · rename_i h2
          split at h
          · split at h <;> cases h
          · simp only [h0, h1, h2, if_false]

/-- How far a parsed value reaches: forward, within the bytes, and what follows are the bytes behind it. -/
theorem parse_reach (bs : List Byte) (c : Nat) (e : StreamElem) (r : List Byte) (h : parse bs c = some (e, r)) :
    c < e.after ∧ e.after ≤ c + bs.length ∧ r = bs.drop (e.after - c) := by
  induction hn : bs.length using Nat.strong_induction_on generalizing bs c with
  | _ n ih =>
    cases hd : decodeElement bs with
    | error x => rw [parse_of_decode_error bs c x hd] at h; cases h
    | ok p =>
      obtain ⟨i, r'⟩ := p
      rcases parse_of_decode bs c i r' hd with ⟨_, hp⟩ | ⟨b0, _, rfl, hp⟩ | ⟨b0, b1, _, rfl, hp⟩ | ⟨b0, _, hp⟩ |
          ⟨p0, p1, p2, p3, _, rfl, hp⟩ | ⟨b1, p0, p1, p2, p3, _, rfl, _, hp⟩ <;> rw [hp] at h
      · cases h
      · simp only [Option.some.injEq, Prod.mk.injEq] at h
        obtain ⟨rfl, rfl⟩ := h
        simp only [List.length_cons] at hn
        exact ⟨by simp, by simp only; omega, by simp⟩
      · simp only [Option.some.injEq, Prod.mk.injEq] at h
        obtain ⟨rfl, rfl⟩ := h
        simp only [List.length_cons] at hn
        exact ⟨by simp, by simp only; omega, by simp⟩
      · cases h
      · simp only [Option.some.injEq, Prod.mk.injEq] at h
        obtain ⟨rfl, rfl⟩ := h
        simp only [List.length_cons] at hn
        exact ⟨by simp, by simp only; omega, by simp⟩
      · simp only [List.length_cons] at hn
        obtain ⟨h1, h2, h3⟩ := ih r'.length (by omega) r' (c + 6) h rfl
        refine ⟨by omega, by omega, ?_⟩
        rw [h3, show e.after - c = e.after - (c + 6) + 6 by omega]
        simp [List.drop_succ_cons]

theorem rawNext_reach (bs : List Byte) (c : Nat) (e : StreamElem) (r : List Byte) (h : rawNext bs c = some (e, r)) :
    c < e.after ∧ e.after ≤ c + bs.length ∧ r = bs.drop (e.after - c) := by
  cases bs with
  | nil => cases h
  | cons b bs =>
    simp only [rawNext] at h
    split at h
    · cases h
    · simp only [Option.some.injEq, Prod.mk.injEq] at h
      obtain ⟨rfl, rfl⟩ := h
      exact ⟨by simp, by simp, by simp⟩

/-- How far an element of either form reaches (41_classifier_sync.md R131). -/
theorem nextElem_reach (packed : Bool) (bs : List Byte) (c : Nat) (e : StreamElem) (r : List Byte)
    (h : nextElem packed bs c = some (e, r)) : c < e.after ∧ e.after ≤ c + bs.length ∧ r = bs.drop (e.after - c) := by
  unfold nextElem at h
  split at h
  · exact parse_reach bs c e r h
  · exact rawNext_reach bs c e r h

/-! ## The stream of a state -/

@[simp] theorem State.pulseFrom_length (s : State) (c : Nat) : (s.pulseFrom c).length = s.plen.toNat - c := by
  simp [State.pulseFrom]

/-- The stream behind a position. -/
theorem State.pulseFrom_drop (s : State) (c k : Nat) : (s.pulseFrom c).drop k = s.pulseFrom (c + k) := by
  apply List.ext_getElem?
  intro i
  unfold State.pulseFrom
  rw [List.getElem?_drop]
  by_cases h : c + k + i < s.plen.toNat
  · rw [State.readBytes_getElem? _ _ _ _ (by omega), State.readBytes_getElem? _ _ _ _ (by omega)]
    congr 2
    omega
  · rw [List.getElem?_eq_none (by simp; omega), List.getElem?_eq_none (by simp; omega)]

theorem State.pulseFrom_congr {s t : State} (hm : t.mem = s.mem) (he : t.epoch = s.epoch) (hp : t.plen = s.plen)
    (c : Nat) : t.pulseFrom c = s.pulseFrom c := by
  unfold State.pulseFrom
  rw [hp, State.readBytes_congr hm he]

/-- More fuel than bytes changes nothing. -/
theorem elemsUpTo_fuel (packed : Bool) (fuel : Nat) (bs : List Byte) (c : Nat) (h : bs.length ≤ fuel) :
    elemsUpTo fuel packed bs c = elemsUpTo bs.length packed bs c := by
  induction fuel using Nat.strong_induction_on generalizing bs c with
  | _ fuel ih =>
    cases fuel with
    | zero => rw [show bs.length = 0 by omega]
    | succ fuel =>
      cases hn : nextElem packed bs c with
      | none =>
        cases hl : bs.length with
        | zero => simp [elemsUpTo, hn]
        | succ n => simp [elemsUpTo, hn]
      | some p =>
        obtain ⟨e, r⟩ := p
        obtain ⟨h1, h2, h3⟩ := nextElem_reach packed bs c e r hn
        have hr : r.length < bs.length := by rw [h3, List.length_drop]; omega
        obtain ⟨n, hl⟩ : ∃ n, bs.length = n + 1 := ⟨bs.length - 1, by omega⟩
        rw [hl]
        simp only [elemsUpTo, hn]
        rw [ih fuel (by omega) r e.after (by omega)]
        rcases Nat.lt_or_ge n (fuel + 1) with hlt | hge
        · rw [ih n hlt r e.after (by omega)]
        · omega

/-- The reader at a position, one element at a time: it is the loop of `next` (41_classifier_sync.md R122, R124). -/
theorem State.readerAt_eq (s : State) (packed : Bool) (c : Nat) :
    s.readerAt packed c =
      match nextElem packed (s.pulseFrom c) c with
      | none => ⟨[], c⟩
      | some (e, _) => ⟨e :: (s.readerAt packed e.after).elems, c⟩ := by
  unfold State.readerAt
  cases hn : nextElem packed (s.pulseFrom c) c with
  | none =>
    cases hl : s.plen.toNat - c with
    | zero => rfl
    | succ n => simp [elemsUpTo, hn]
  | some p =>
    obtain ⟨e, r⟩ := p
    obtain ⟨h1, h2, h3⟩ := nextElem_reach _ _ _ _ _ hn
    rw [State.pulseFrom_length] at h2
    rw [State.pulseFrom_drop, show c + (e.after - c) = e.after by omega] at h3
    subst h3
    obtain ⟨n, hl⟩ : ∃ n, s.plen.toNat - c = n + 1 := ⟨s.plen.toNat - c - 1, by omega⟩
    simp only [hl, elemsUpTo, hn]
    rw [elemsUpTo_fuel packed n _ _ (by simp; omega), State.pulseFrom_length]

/-- The position of a reader is where it was started. -/
@[simp] theorem State.readerAt_cursor (s : State) (packed : Bool) (c : Nat) : (s.readerAt packed c).cursor = c := rfl

/-- The end of the stream is where the reader has no element left (41_classifier_sync.md R123). -/
theorem State.eofAt_iff (s : State) (packed : Bool) (c : Nat) :
    s.eofAt packed c = true ↔ (s.readerAt packed c).elems = [] := by
  rw [State.readerAt_eq]
  unfold State.eofAt
  cases nextElem packed (s.pulseFrom c) c with
  | none => simp
  | some p => simp

/-- A reader is where its position says, and its position lies in the stream: what every command keeps of its reader. -/
structure Reader.At (s : State) (packed : Bool) (r : Reader) : Prop where
  elems : r = s.readerAt packed r.cursor
  bound : r.cursor ≤ s.plen.toNat

theorem State.readerAt_at (s : State) (packed : Bool) (c : Nat) (h : c ≤ s.plen.toNat) :
    (s.readerAt packed c).At s packed := ⟨rfl, h⟩

/-- One element further, the reader still is where its position says. -/
theorem Reader.At.tail {s : State} {packed : Bool} {e : StreamElem} {es : List StreamElem} {c : Nat}
    (h : Reader.At s packed ⟨e :: es, c⟩) : Reader.At s packed ⟨es, e.after⟩ ∧ c < e.after := by
  have he := h.elems
  rw [State.readerAt_eq] at he
  cases hn : nextElem packed (s.pulseFrom c) c with
  | none => simp [hn] at he
  | some p =>
    obtain ⟨e', r⟩ := p
    simp only [hn, Reader.mk.injEq, List.cons.injEq, and_true] at he
    obtain ⟨rfl, rfl⟩ := he
    obtain ⟨h1, h2, _⟩ := nextElem_reach _ _ _ _ _ hn
    rw [State.pulseFrom_length] at h2
    have hb : c ≤ s.plen.toNat := h.bound
    exact ⟨⟨rfl, by simp only; omega⟩, h1⟩

theorem Reader.At.eof {s : State} {packed : Bool} {r : Reader} (h : r.At s packed) :
    s.eofAt packed r.cursor = true ↔ r.elems = [] := by
  rw [State.eofAt_iff, ← h.elems]

/-- Reading a symbol (41_classifier_sync.md R124) keeps the reader in place and never moves back. -/
theorem Reader.At.readSymbol {s : State} {packed : Bool} {r : Reader} (h : r.At s packed) (t2 t3 : Nat) :
    (r.readSymbol t2 t3).2.2.At s packed ∧ r.cursor ≤ (r.readSymbol t2 t3).2.2.cursor ∧
      (r.readSymbol t2 t3).2.2.elems.length ≤ r.elems.length := by
  obtain ⟨es, c⟩ := r
  cases es with
  | nil => exact ⟨h, Nat.le_refl _, Nat.le_refl _⟩
  | cons e es => exact ⟨h.tail.1, Nat.le_of_lt h.tail.2, by simp [Reader.readSymbol]⟩

end Sys2Proof.Machine
end

