-- ==== Sys2Proof/Laws/Reader.lean ====
section
/-! SUPPORT. The laws of the reader: the stream it reads, where reading leaves it, and what a sync search and a demodulation
read (41_classifier_sync.md R127, 44_line_code.md R202). -/
namespace Sys2Proof.Machine

/-- The elements of a reader as durations and positions. -/
def Reader.pairs (r : Reader) : List (Nat × Nat) := r.elems.map (fun e => (e.dur, e.after))

theorem nextAt_eq_none (packed : Bool) (s : State) (c : Nat) :
    nextAt packed s c = none ↔ (s.readerAt packed c).elems = [] := by
  rw [← State.eofAt_iff, State.eofAt, nextAt]
  cases nextElem packed (s.pulseFrom c) c <;> simp

theorem nextAt_isNone (packed : Bool) (s : State) (c : Nat) : (nextAt packed s c).isNone = s.eofAt packed c := by
  rw [State.eofAt, nextAt]
  cases nextElem packed (s.pulseFrom c) c <;> simp

/-- The elements of the reader at a position are the stream from there (41_classifier_sync.md R122). -/
theorem isStream_readerAt (packed : Bool) (s : State) (c : Nat) : isStream packed s c (s.readerAt packed c).pairs := by
  induction hn : s.plen.toNat - c using Nat.strong_induction_on generalizing c with
  | _ n ih =>
    unfold Reader.pairs
    rw [State.readerAt_eq]
    cases h : nextElem packed (s.pulseFrom c) c with
    | none => simp [isStream, nextAt, h]
    | some p =>
      obtain ⟨e, r⟩ := p
      obtain ⟨h1, h2, _⟩ := nextElem_reach _ _ _ _ _ h
      rw [State.pulseFrom_length] at h2
      simp only [List.map_cons, isStream]
      exact ⟨by simp [nextAt, h], ih (s.plen.toNat - e.after) (by omega) e.after rfl⟩

/-! ## Reading on -/

/-- The reader after `m` reads. -/
def Reader.skip (r : Reader) (m : Nat) : Reader := ⟨r.elems.drop m, posAfter r.cursor r.pairs m⟩

@[simp] theorem posAfter_zero (c : Nat) (es : List (Nat × Nat)) : posAfter c es 0 = c := by cases es <;> rfl

@[simp] theorem posAfter_nil (c m : Nat) : posAfter c [] m = c := by cases m <;> rfl

@[simp] theorem Reader.skip_zero (r : Reader) : r.skip 0 = r := by simp [Reader.skip]

@[simp] theorem Reader.skip_cons (e : StreamElem) (es : List StreamElem) (c m : Nat) :
    Reader.skip ⟨e :: es, c⟩ (m + 1) = Reader.skip ⟨es, e.after⟩ m := rfl

@[simp] theorem Reader.skip_nil (c m : Nat) : Reader.skip ⟨[], c⟩ m = ⟨[], c⟩ := by
  simp [Reader.skip, Reader.pairs]

/-- Reading on keeps the reader in place and never moves back. -/
theorem Reader.At.skip {s : State} {packed : Bool} {r : Reader} (h : r.At s packed) (m : Nat) :
    (r.skip m).At s packed ∧ r.cursor ≤ (r.skip m).cursor := by
  induction m generalizing r with
  | zero => simpa using h
  | succ m ih =>
    obtain ⟨es, c⟩ := r
    cases es with
    | nil => simpa using h
    | cons e es =>
      obtain ⟨h1, h2⟩ := h.tail
      have := ih h1
      rw [Reader.skip_cons]
      exact ⟨this.1, Nat.le_trans (Nat.le_of_lt h2) this.2⟩

theorem Reader.skip_length (r : Reader) (m : Nat) : (r.skip m).elems.length = r.elems.length - m := by
  simp [Reader.skip]

theorem classifyDur_ordinal (d t2 t3 : Nat) : (classifyDur d t2 t3).ordinal = symbolCode t2 t3 d := by
  unfold classifyDur symbolCode
  split
  · rfl
  · split <;> rfl

theorem Symbol.ordinal_lt (sym : Symbol) : sym.ordinal < 3 := by cases sym <;> decide

/-! ## Sync search -/

theorem shiftSymbol_eq (reg : BitVec 28) (sym : Symbol) :
    shiftSymbol reg sym = BitVec.ofNat 28 (reg.toNat * 4 + sym.ordinal) := by
  have h : (reg <<< 2) ||| BitVec.ofNat 28 sym.ordinal = (reg <<< 2) + BitVec.ofNat 28 sym.ordinal := by
    symm
    apply BitVec.add_eq_or_of_and_eq_zero
    ext i hi
    simp only [BitVec.getElem_and, BitVec.getElem_shiftLeft, BitVec.getElem_zero]
    rw [← BitVec.getLsbD_eq_getElem (x := BitVec.ofNat 28 sym.ordinal), BitVec.getLsbD_ofNat]
    by_cases h2 : i < 2
    · simp [h2]
    · have : Nat.testBit sym.ordinal i = false := by
        apply Nat.testBit_lt_two_pow
        calc sym.ordinal < 2 ^ 2 := by have := sym.ordinal_lt; omega
          _ ≤ 2 ^ i := Nat.pow_le_pow_right (by omega) (by omega)
      simp [this]
  rw [shiftSymbol, h]
  apply BitVec.eq_of_toNat_eq
  simp only [BitVec.toNat_add, BitVec.toNat_shiftLeft, BitVec.toNat_ofNat, Nat.shiftLeft_eq]
  omega

@[simp] theorem symbolCodes_zero (t2 t3 : Nat) (es : List (Nat × Nat)) : symbolCodes t2 t3 es 0 = [] := by
  cases es <;> rfl

@[simp] theorem symbolCodes_length (t2 t3 : Nat) (es : List (Nat × Nat)) (m : Nat) :
    (symbolCodes t2 t3 es m).length = m := by
  induction m generalizing es with
  | zero => simp
  | succ m ih => cases es <;> simp [symbolCodes, ih]

/-- The sync register after more symbols, from any value. -/
def shiftedFrom (reg : BitVec 28) (codes : List Nat) : BitVec 28 :=
  codes.foldl (fun state k => BitVec.ofNat 28 (state.toNat * 4 + k)) reg

/-- What the loop of a sync search reads (41_classifier_sync.md R127). -/
theorem syncLoop_spec (t2 t3 : Nat) (es : List StreamElem) (c : Nat) (reg : BitVec 28) :
    ∃ m, m ≤ es.length ∧
      (∀ k, k < m → shiftedFrom reg (symbolCodes t2 t3 (Reader.pairs ⟨es, c⟩) k) ≠ magicMfm) ∧
      (shiftedFrom reg (symbolCodes t2 t3 (Reader.pairs ⟨es, c⟩) m) = magicMfm ∨ m = es.length) ∧
      syncLoop t2 t3 es c reg =
        (Reader.skip ⟨es, c⟩ m, shiftedFrom reg (symbolCodes t2 t3 (Reader.pairs ⟨es, c⟩) m)) := by
  induction es generalizing c reg with
  | nil => exact ⟨0, by simp, by simp, .inr rfl, by simp [syncLoop, shiftedFrom]⟩
  | cons e es ih =>
    by_cases h : reg = magicMfm
    · exact ⟨0, by simp, by simp, .inl (by simpa [shiftedFrom] using h), by simp [syncLoop, h, shiftedFrom]⟩
    · obtain ⟨m, h1, h2, h3, h4⟩ := ih e.after (shiftSymbol reg (classifyDur e.dur t2 t3))
      have key : ∀ k, shiftedFrom reg (symbolCodes t2 t3 (Reader.pairs ⟨e :: es, c⟩) (k + 1)) =
          shiftedFrom (shiftSymbol reg (classifyDur e.dur t2 t3)) (symbolCodes t2 t3 (Reader.pairs ⟨es, e.after⟩) k) := by
        intro k
        rw [shiftSymbol_eq, classifyDur_ordinal]
        rfl
      refine ⟨m + 1, by simpa using h1, fun k hk => ?_, ?_, ?_⟩
      · cases k with
        | zero => simpa [shiftedFrom] using h
        | succ k =>
          rw [key]
          exact h2 k (by omega)
      · rw [key]
        rcases h3 with h3 | h3
        · exact .inl h3
        · exact .inr (by simp [h3])
      · rw [syncLoop, if_neg h, h4, key, Reader.skip_cons]

/-- Fewer than 14 symbols do not make the magic value (41_classifier_sync.md R127). -/
theorem shiftedIn_lt (codes : List Nat) (h : ∀ k ∈ codes, k < 4) (hl : codes.length ≤ 13) :
    (shiftedIn codes).toNat < 4 ^ codes.length := by
  have key : ∀ (codes : List Nat) (reg : BitVec 28) (n : Nat), (∀ k ∈ codes, k < 4) → n + codes.length ≤ 13 →
      reg.toNat < 4 ^ n → (shiftedFrom reg codes).toNat < 4 ^ (n + codes.length) := by
    intro codes
    induction codes with
    | nil => intro reg n _ _ hr; simpa [shiftedFrom] using hr
    | cons k codes ih =>
      intro reg n hk hl hr
      simp only [List.length_cons] at hl
      have h4 : reg.toNat * 4 + k < 4 ^ (n + 1) := by
        have := hk k (by simp)
        rw [Nat.pow_succ]
        omega
      have := ih (BitVec.ofNat 28 (reg.toNat * 4 + k)) (n + 1) (fun x hx => hk x (by simp [hx])) (by omega)
        (by rw [BitVec.toNat_ofNat]; exact Nat.lt_of_le_of_lt (Nat.mod_le _ _) h4)
      simp only [List.length_cons]
      rw [show n + (codes.length + 1) = n + 1 + codes.length by omega]
      exact this
  have := key codes 0#28 0 h (by omega) (by simp)
  simpa [shiftedFrom, shiftedIn] using this

theorem symbolCodes_lt (t2 t3 : Nat) (es : List (Nat × Nat)) (m k : Nat) (h : k ∈ symbolCodes t2 t3 es m) : k < 4 := by
  induction m generalizing es with
  | zero => simp at h
  | succ m ih =>
    cases es with
    | nil =>
      simp only [symbolCodes, List.mem_cons] at h
      rcases h with rfl | h
      · omega
      · exact ih _ h
    | cons e es =>
      simp only [symbolCodes, List.mem_cons] at h
      rcases h with rfl | h
      · unfold symbolCode
        split
        · omega
        · split <;> omega
      · exact ih _ h

theorem fourteen_le_of_magic (t2 t3 : Nat) (es : List (Nat × Nat)) (m : Nat)
    (h : shiftedIn (symbolCodes t2 t3 es m) = magicMfm) : 14 ≤ m := by
  by_contra hm
  have := shiftedIn_lt (symbolCodes t2 t3 es m) (fun k hk => symbolCodes_lt t2 t3 es m k hk) (by simp; omega)
  rw [h, symbolCodes_length] at this
  have h13 : 4 ^ m ≤ 4 ^ 13 := Nat.pow_le_pow_right (by omega) (by omega)
  have hm' : magicMfm.toNat = 160588953 := rfl
  rw [hm'] at this
  have : (4 : Nat) ^ 13 = 67108864 := rfl
  omega

/-- Everything a sync search does (41_classifier_sync.md R127). -/
theorem Reader.syncSearch_spec (t2 t3 : Nat) (r : Reader) :
    ∃ m, m ≤ r.elems.length ∧
      (∀ k, k < m → shiftedIn (symbolCodes t2 t3 r.pairs k) ≠ magicMfm) ∧
      (shiftedIn (symbolCodes t2 t3 r.pairs m) = magicMfm ∧ 14 ≤ m ∨
        shiftedIn (symbolCodes t2 t3 r.pairs m) ≠ magicMfm ∧ m = r.elems.length) ∧
      r.syncSearch t2 t3 = (r.skip m, shiftedIn (symbolCodes t2 t3 r.pairs m)) := by
  obtain ⟨m, h1, h2, h3, h4⟩ := syncLoop_spec t2 t3 r.elems r.cursor 0#28
  refine ⟨m, h1, h2, ?_, h4⟩
  by_cases h : shiftedIn (symbolCodes t2 t3 r.pairs m) = magicMfm
  · exact .inl ⟨h, fourteen_le_of_magic _ _ _ _ h⟩
  · exact .inr ⟨h, h3.resolve_left h⟩

/-- A sync search keeps the reader in place; a mark takes at least 14 elements, a failure takes all (41_classifier_sync.md
R127). -/
theorem Reader.At.syncSearch {s : State} {packed : Bool} {r : Reader} (h : r.At s packed) (t2 t3 : Nat) :
    (r.syncSearch t2 t3).1.At s packed ∧
      ((r.syncSearch t2 t3).2 = magicMfm → (r.syncSearch t2 t3).1.elems.length + 14 ≤ r.elems.length) ∧
      ((r.syncSearch t2 t3).2 ≠ magicMfm → (r.syncSearch t2 t3).1.elems = []) := by
  obtain ⟨m, h1, _, h3, h4⟩ := r.syncSearch_spec t2 t3
  rw [h4]
  refine ⟨(h.skip m).1, fun hm => ?_, fun hm => ?_⟩
  · have := (h3.resolve_right (fun hx => hx.1 hm)).2
    rw [Reader.skip_length]
    omega
  · have := (h3.resolve_left (fun hx => hm hx.1)).2
    simp [Reader.skip, this]

/-! ## Demodulation -/

theorem Symbol.cells_eq (sym : Symbol) : sym.cells = codeCells sym.ordinal := rfl

theorem dataBits_eq (xs : List Bool) (p : Parity) : dataBits xs p = (dataCells p xs, parityAfter p xs.length) := by
  induction xs generalizing p with
  | nil => rfl
  | cons x xs ih =>
    rw [dataBits, ih]
    cases p <;> simp only [dataCells, Parity.next, parityAfter, List.length_cons, Prod.mk.injEq] <;> refine ⟨rfl, ?_⟩ <;>
      split <;> split <;> first | rfl | omega

@[simp] theorem dataCells_append (p : Parity) (xs ys : List Bool) :
    dataCells p (xs ++ ys) = dataCells p xs ++ dataCells (parityAfter p xs.length) ys := by
  induction xs generalizing p with
  | nil => simp [dataCells, parityAfter]
  | cons x xs ih =>
    have hp : parityAfter p.next xs.length = parityAfter p (x :: xs).length := by
      cases p <;> simp only [parityAfter, List.length_cons, Parity.next] <;> split <;> split <;> first | rfl | omega
    cases p <;> simp only [List.cons_append, dataCells, ih] <;> rw [← hp] <;> rfl

theorem parityAfter_add (p : Parity) (m n : Nat) : parityAfter (parityAfter p m) n = parityAfter p (m + n) := by
  unfold parityAfter
  cases p <;> split <;> split <;> split <;> first | rfl | omega

theorem dataCells_code_pos (p : Parity) (k : Nat) : 1 ≤ (dataCells p (codeCells k)).length := by
  cases p with
  | clock =>
    cases k with
    | zero => exact Nat.le_refl 1
    | succ k => simp [codeCells, List.replicate_succ, dataCells]
  | data => simp [codeCells, List.replicate_succ, dataCells]

/-- The cells of the next `m` symbols of a reader. -/
def Reader.cells (t2 t3 : Nat) (r : Reader) (m : Nat) : List Bool := (symbolCodes t2 t3 r.pairs m).flatMap codeCells

/-- One symbol read: its code comes first, and the reader is one read further. -/
theorem Reader.readSymbol_eq (t2 t3 : Nat) (r : Reader) :
    (r.readSymbol t2 t3).2.2 = r.skip 1 ∧
      ∀ m, r.cells t2 t3 (m + 1) = codeCells (r.readSymbol t2 t3).1.ordinal ++ (r.skip 1).cells t2 t3 m := by
  obtain ⟨es, c⟩ := r
  cases es with
  | nil => exact ⟨by simp [Reader.readSymbol], fun m => by simp [Reader.cells, Reader.pairs, symbolCodes, Reader.readSymbol, Symbol.ordinal]⟩
  | cons e es =>
    refine ⟨by simp [Reader.readSymbol], fun m => ?_⟩
    simp only [Reader.readSymbol, classifyDur_ordinal, Reader.skip_cons, Reader.skip_zero]
    simp [Reader.cells, Reader.pairs, symbolCodes]

theorem Reader.skip_skip (r : Reader) (m : Nat) : (r.skip 1).skip m = r.skip (m + 1) := by
  obtain ⟨es, c⟩ := r
  cases es with
  | nil => simp
  | cons e es => simp

/-- Everything the bit-collecting loop does (44_line_code.md R202): it reads as few symbols as give the bits needed. -/
theorem demodLoop_spec (t2 t3 : Nat) (fuel need : Nat) (r : Reader) (p : Parity) (h : need ≤ fuel) :
    ∃ m, need ≤ (dataCells p (r.cells t2 t3 m)).length ∧
      (∀ k, k < m → (dataCells p (r.cells t2 t3 k)).length < need) ∧ m ≤ need ∧
      demodLoop t2 t3 fuel need r p =
        (dataCells p (r.cells t2 t3 m), r.skip m, parityAfter p (r.cells t2 t3 m).length) := by
  induction fuel generalizing need r p with
  | zero =>
    obtain rfl : need = 0 := by omega
    exact ⟨0, by simp, by simp, by simp, by simp [demodLoop, Reader.cells, dataCells, parityAfter]⟩
  | succ fuel ih =>
    by_cases hn : need = 0
    · subst hn
      exact ⟨0, by simp, by simp, by simp, by simp [demodLoop, Reader.cells, dataCells, parityAfter]⟩
    · obtain ⟨hr, hc⟩ := r.readSymbol_eq t2 t3
      generalize hrs : r.readSymbol t2 t3 = rs at hr hc
      obtain ⟨sym, sent, r1⟩ := rs
      simp only at hr hc
      subst hr
      have hpos := dataCells_code_pos p sym.ordinal
      obtain ⟨m, h1, h2, h3, h4⟩ := ih (need - (dataCells p (codeCells sym.ordinal)).length) (r.skip 1)
        (parityAfter p (codeCells sym.ordinal).length) (by omega)
      have hlen : ∀ k, (dataCells p (r.cells t2 t3 (k + 1))).length = (dataCells p (codeCells sym.ordinal)).length +
          (dataCells (parityAfter p (codeCells sym.ordinal).length) ((r.skip 1).cells t2 t3 k)).length := by
        intro k
        rw [hc, dataCells_append, List.length_append]
      refine ⟨m + 1, by rw [hlen]; omega, fun k hk => ?_, by omega, ?_⟩
      · cases k with
        | zero => simp [Reader.cells, dataCells]; omega
        | succ k =>
          rw [hlen]
          have := h2 k (by omega)
          omega
      · rw [demodLoop, if_neg hn]
        simp only [hrs, Symbol.cells_eq, dataBits_eq, h4]
        rw [hc, dataCells_append, Reader.skip_skip, List.length_append, parityAfter_add]

/-- Bits in groups of eight, most significant first. -/
theorem byteOfBits_getLsbD (b7 b6 b5 b4 b3 b2 b1 b0 : Bool) (j : Nat) (h : j < 8) :
    (byteOfBits b7 b6 b5 b4 b3 b2 b1 b0).getLsbD (7 - j) = [b7, b6, b5, b4, b3, b2, b1, b0].getD j false := by
  have key : ∀ (b7 b6 b5 b4 b3 b2 b1 b0 : Bool) (j : Fin 8),
      (byteOfBits b7 b6 b5 b4 b3 b2 b1 b0).getLsbD (7 - j.val) = [b7, b6, b5, b4, b3, b2, b1, b0].getD j.val false := by
    decide
  exact key b7 b6 b5 b4 b3 b2 b1 b0 ⟨j, h⟩

/-- Packed bits are the bits, eight to a byte (44_line_code.md R202). -/
theorem packBits_spec (n : Nat) (bits : List Bool) (h : 8 * n ≤ bits.length) :
    (packBits (bits.take (8 * n))).length = n ∧ bitsAgree (packBits (bits.take (8 * n))) bits := by
  induction n generalizing bits with
  | zero => simp [packBits, bitsAgree]
  | succ n ih =>
    match bits, h with
    | b7 :: b6 :: b5 :: b4 :: b3 :: b2 :: b1 :: b0 :: rest, h =>
      have hr : 8 * n ≤ rest.length := by simp only [List.length_cons] at h; omega
      obtain ⟨h1, h2⟩ := ih rest hr
      have ht : (b7 :: b6 :: b5 :: b4 :: b3 :: b2 :: b1 :: b0 :: rest).take (8 * (n + 1)) =
          b7 :: b6 :: b5 :: b4 :: b3 :: b2 :: b1 :: b0 :: rest.take (8 * n) := by
        rw [show 8 * (n + 1) = 8 * n + 1 + 1 + 1 + 1 + 1 + 1 + 1 + 1 by omega]
        simp only [List.take_succ_cons]
      rw [ht, packBits]
      refine ⟨by simp [h1], fun i j hi hj => ?_⟩
      cases i with
      | zero =>
        simp only [List.getD_cons_zero, Nat.mul_zero, Nat.zero_add]
        rw [byteOfBits_getLsbD _ _ _ _ _ _ _ _ j hj]
        rcases j with _ | _ | _ | _ | _ | _ | _ | _ | j <;> first | rfl | omega
      | succ i =>
        simp only [List.getD_cons_succ]
        rw [h2 i j (by simpa using hi) hj, show 8 * (i + 1) + j = 8 * i + j + 1 + 1 + 1 + 1 + 1 + 1 + 1 + 1 by omega]
        simp only [List.getD_cons_succ]

/-- Everything a demodulation does (44_line_code.md R202). -/
theorem Reader.demod_spec (t2 t3 n : Nat) (r : Reader) (p : Parity) :
    ∃ m, 8 * n ≤ (dataCells p (r.cells t2 t3 m)).length ∧
      (∀ k, k < m → (dataCells p (r.cells t2 t3 k)).length < 8 * n) ∧
      (r.demod t2 t3 n p).1.length = n ∧ bitsAgree (r.demod t2 t3 n p).1 (dataCells p (r.cells t2 t3 m)) ∧
      (r.demod t2 t3 n p).2 = (r.skip m, parityAfter p (r.cells t2 t3 m).length) := by
  obtain ⟨m, h1, h2, _, h4⟩ := demodLoop_spec t2 t3 (8 * n) (8 * n) r p (Nat.le_refl _)
  obtain ⟨h5, h6⟩ := packBits_spec n _ h1
  have hd : r.demod t2 t3 n p =
      (packBits ((dataCells p (r.cells t2 t3 m)).take (8 * n)), r.skip m, parityAfter p (r.cells t2 t3 m).length) := by
    rw [Reader.demod, h4]
  rw [hd]
  exact ⟨m, h1, h2, h5, h6, rfl⟩

/-- A demodulation keeps the reader in place. -/
theorem Reader.At.demod {s : State} {packed : Bool} {r : Reader} (h : r.At s packed) (t2 t3 n : Nat) (p : Parity) :
    (r.demod t2 t3 n p).2.1.At s packed ∧ (r.demod t2 t3 n p).2.1.elems.length ≤ r.elems.length := by
  obtain ⟨m, _, _, _, _, h5⟩ := r.demod_spec t2 t3 n p
  rw [h5]
  exact ⟨(h.skip m).1, by rw [Reader.skip_length]; omega⟩

theorem Reader.demod_length (t2 t3 n : Nat) (r : Reader) (p : Parity) : (r.demod t2 t3 n p).1.length = n := by
  obtain ⟨m, _, _, h, _⟩ := r.demod_spec t2 t3 n p
  exact h

end Sys2Proof.Machine
end

