-- ==== Sys2Proof/Laws/Decoder.lean ====
section
/-! SUPPORT. The laws of DECODE's loop: what one pass can do, how the loop ends, and induction over it
(45_track_decode_encode.md R232 to R241). -/
namespace Sys2Proof.Machine

/-! ## Validity bits -/

theorem validBit_setValid (v : Word) (r i : Nat) (h : i < 32) :
    validBit (setValid v r) i = (validBit v i || decide (i = r)) := by
  unfold validBit setValid
  rw [BitVec.getLsbD_or, BitVec.getLsbD_shiftLeft]
  simp only [h, decide_true, Bool.true_and, BitVec.getLsbD_one]
  congr 1
  by_cases hi : i = r
  · simp [hi]
  · simp [hi]
    omega

/-- Setting a bit keeps the set bits. -/
theorem validBit_setValid_mono (v : Word) (r i : Nat) (h : validBit v i = true) : validBit (setValid v r) i = true := by
  by_cases hi : i < 32
  · rw [validBit_setValid v r i hi, h]
    rfl
  · unfold validBit at h
    rw [BitVec.getLsbD_of_ge _ _ (by omega)] at h
    cases h

/-- A bit that is newly set is the bit that was set. -/
theorem eq_of_validBit_setValid (v : Word) (r i : Nat) (h : validBit (setValid v r) i = true) (h' : validBit v i = false) :
    i = r := by
  by_cases hi : i < 32
  · rw [validBit_setValid v r i hi, h'] at h
    simpa using h
  · unfold validBit at h
    rw [BitVec.getLsbD_of_ge _ _ (by omega)] at h
    cases h

theorem countValid_eq (v : Word) (n : Nat) : countValid v n = validCount v n := by
  induction n with
  | zero => rfl
  | succ n ih =>
    rw [countValid, ih, validCount, validCount, List.range_succ, List.filter_append, List.length_append]
    unfold validBit
    cases hb : v.getLsbD n
    · simp [hb]
    · simp [hb, Nat.add_comm]

theorem validCount_le (v : Word) (n : Nat) : validCount v n ≤ n := by
  have := List.length_filter_le (fun i => v.getLsbD i) (List.range n)
  simpa [validCount] using this

/-- Every sector is counted iff every bit is set. -/
theorem validCount_eq_iff (v : Word) (n : Nat) : validCount v n = n ↔ ∀ i, i < n → v.getLsbD i = true := by
  have h : (List.range n).length = n := List.length_range
  constructor
  · intro hc i hi
    have : (List.range n).filter (fun i => v.getLsbD i) = List.range n :=
      (List.filter_sublist (l := List.range n)).eq_of_length (by rw [h]; exact hc)
    have := List.filter_eq_self.1 this i (List.mem_range.2 hi)
    exact this
  · intro ha
    rw [validCount, List.filter_eq_self.2 (fun i hi => ha i (List.mem_range.1 hi)), h]

/-! ## Records -/

/-- A record and the position after it. -/
def recordAfter (packed : Bool) (s : State) (n c : Nat) : Option (List Byte × Nat) :=
  (recordBehind packed s n c).map (fun x => (x.1, x.2.1))

/-- The check of a record as a proposition (45_track_decode_encode.md R232). -/
theorem recordOk_iff {cfg : Config} {rec : List Byte} {mark : Byte} (hm : mark ≠ 0#8) :
    recordOk cfg rec mark = true ↔ validRecord cfg mark rec := by
  simp only [recordOk, validRecord, Bool.and_eq_true, decide_eq_true_eq]
  refine and_congr_left fun _ => ?_
  cases rec with
  | nil => simpa using hm.symm
  | cons b rec => simp

theorem recordOk_valid {cfg : Config} {rec : List Byte} {mark : Byte} (h : recordOk cfg rec mark = true) :
    validRecord cfg mark rec := by
  simp only [recordOk, Bool.and_eq_true, decide_eq_true_eq] at h
  refine ⟨?_, h.2⟩
  cases rec with
  | nil => simp at h
  | cons b rec => simpa using h.1

/-! ## One pass -/

/-- What a pass that read a CRC-valid IDAM does (45_track_decode_encode.md R233 to R237). -/
structure Decoder.SawIdam (s : State) (packed : Bool) (n : Nat) (d d' : Decoder) (hdr : List Byte) (c1 : Nat) : Prop where
  read : recordAfter packed s 7 d.reader.cursor = some (hdr, c1)
  valid : validRecord s.cfg markIdam hdr
  lastidam : d'.lastidam = idamWord hdr
  idamv : d'.idamv = true
  slots :
    (d'.valid = d.valid ∧ d'.mem = d.mem) ∨
    (followUp s.cfg n d.valid hdr = true ∧
      ∃ rec c2, recordAfter packed s (s.cfg.sectorBytes + 3) c1 = some (rec, c2) ∧ validRecord s.cfg markDam rec ∧
        rec.length = s.cfg.sectorBytes + 3 ∧
        d'.valid = setValid d.valid ((recByte hdr 3).toNat - 1) ∧
        d'.mem = d.mem.store (slotAddr s.cfg ((recByte hdr 3).toNat - 1)) ((rec.drop 1).take s.cfg.sectorBytes))

/-- All a pass can do (45_track_decode_encode.md R232). -/
structure Decoder.Passed (s : State) (packed : Bool) (n : Nat) (d : Decoder) (go : Bool) (d' : Decoder) : Prop where
  at' : d'.reader.At s packed
  goes : go = true → d'.reader.elems.length + 14 ≤ d.reader.elems.length
  ends : go = false → d'.reader.elems = []
  effect :
    (d'.lastidam = d.lastidam ∧ d'.idamv = d.idamv ∧ d'.valid = d.valid ∧ d'.mem = d.mem) ∨
    ∃ hdr c1, Decoder.SawIdam s packed n d d' hdr c1

theorem Decoder.search_true {t2 t3 : Nat} {d d1 : Decoder} (h : d.search t2 t3 = (true, d1)) :
    (d.reader.syncSearch t2 t3).2 = magicMfm ∧
      d1 = { d with
        reader := (d.reader.syncSearch t2 t3).1
        syncreg := (d.reader.syncSearch t2 t3).2
        parity := .clock
        synccnt := d.synccnt + 1#32 } := by
  unfold Decoder.search at h
  generalize d.reader.syncSearch t2 t3 = p at h ⊢
  obtain ⟨r, reg⟩ := p
  simp only at h
  split at h <;> simp only [Prod.mk.injEq, Bool.false_eq_true, false_and, true_and] at h
  · exact ⟨‹_›, h.symm⟩

theorem Decoder.search_false {t2 t3 : Nat} {d d1 : Decoder} (h : d.search t2 t3 = (false, d1)) :
    (d.reader.syncSearch t2 t3).2 ≠ magicMfm ∧
      d1 = { d with reader := (d.reader.syncSearch t2 t3).1, syncreg := (d.reader.syncSearch t2 t3).2 } := by
  unfold Decoder.search at h
  generalize d.reader.syncSearch t2 t3 = p at h ⊢
  obtain ⟨r, reg⟩ := p
  simp only at h
  split at h <;> simp only [Prod.mk.injEq, Bool.true_eq_false, false_and, true_and] at h
  · exact ⟨‹_›, h.symm⟩

/-- A successful search and the record behind it are `recordBehind`. -/
theorem recordBehind_of_search {s : State} {packed : Bool} {d d1 : Decoder} (hd : d.reader.At s packed) (n : Nat)
    (h : d.search s.t2.toNat s.t3.toNat = (true, d1)) :
    recordBehind packed s n d.reader.cursor =
      some ((d1.record s.t2.toNat s.t3.toNat n).1, (d1.record s.t2.toNat s.t3.toNat n).2.reader.cursor,
        (d1.record s.t2.toNat s.t3.toNat n).2.parity) := by
  obtain ⟨h1, h2⟩ := Decoder.search_true h
  rw [h2]
  simp only [Decoder.record, recordBehind, ← hd.elems, h1, if_true]

/-- A failed search leaves no record. -/
theorem recordBehind_of_fail {s : State} {packed : Bool} {d d1 : Decoder} (hd : d.reader.At s packed) (n : Nat)
    (h : d.search s.t2.toNat s.t3.toNat = (false, d1)) : recordBehind packed s n d.reader.cursor = none := by
  simp only [recordBehind, ← hd.elems, (Decoder.search_false h).1, if_false]

/-- A successful search and the record behind it are `recordAfter`. -/
theorem recordAfter_of_search {s : State} {packed : Bool} {d d1 : Decoder} (hd : d.reader.At s packed) (n : Nat)
    (h : d.search s.t2.toNat s.t3.toNat = (true, d1)) :
    recordAfter packed s n d.reader.cursor =
      some ((d1.record s.t2.toNat s.t3.toNat n).1, (d1.record s.t2.toNat s.t3.toNat n).2.reader.cursor) := by
  rw [recordAfter, recordBehind_of_search hd n h]
  rfl

/-- The facts of a successful search. -/
theorem Decoder.search_at {s : State} {packed : Bool} {d d1 : Decoder} (hd : d.reader.At s packed)
    (h : d.search s.t2.toNat s.t3.toNat = (true, d1)) :
    d1.reader.At s packed ∧ d1.reader.elems.length + 14 ≤ d.reader.elems.length ∧
      d1.lastidam = d.lastidam ∧ d1.idamv = d.idamv ∧ d1.valid = d.valid ∧ d1.mem = d.mem := by
  obtain ⟨h1, h2⟩ := Decoder.search_true h
  have := hd.syncSearch s.t2.toNat s.t3.toNat
  subst h2
  exact ⟨this.1, this.2.1 h1, rfl, rfl, rfl, rfl⟩

/-- The facts of a failed search. -/
theorem Decoder.search_fail {s : State} {packed : Bool} {d d1 : Decoder} (hd : d.reader.At s packed)
    (h : d.search s.t2.toNat s.t3.toNat = (false, d1)) :
    d1.reader.At s packed ∧ d1.reader.elems = [] ∧
      d1.lastidam = d.lastidam ∧ d1.idamv = d.idamv ∧ d1.valid = d.valid ∧ d1.mem = d.mem := by
  obtain ⟨h1, h2⟩ := Decoder.search_false h
  have := hd.syncSearch s.t2.toNat s.t3.toNat
  subst h2
  exact ⟨this.1, this.2.2 h1, rfl, rfl, rfl, rfl⟩

/-- The facts of a demodulation. -/
theorem Decoder.record_at {s : State} {packed : Bool} {d : Decoder} (hd : d.reader.At s packed) (n : Nat) :
    (d.record s.t2.toNat s.t3.toNat n).2.reader.At s packed ∧
      (d.record s.t2.toNat s.t3.toNat n).2.reader.elems.length ≤ d.reader.elems.length ∧
      (d.record s.t2.toNat s.t3.toNat n).1.length = n ∧
      (d.record s.t2.toNat s.t3.toNat n).2.lastidam = d.lastidam ∧
      (d.record s.t2.toNat s.t3.toNat n).2.idamv = d.idamv ∧
      (d.record s.t2.toNat s.t3.toNat n).2.valid = d.valid ∧ (d.record s.t2.toNat s.t3.toNat n).2.mem = d.mem := by
  have := hd.demod s.t2.toNat s.t3.toNat n d.parity
  exact ⟨this.1, this.2, Reader.demod_length _ _ _ _ _, rfl, rfl, rfl, rfl⟩

/-- All reading a payload can do (45_track_decode_encode.md R235 to R237). -/
structure Decoder.PaidOut (s : State) (packed : Bool) (r : Nat) (d : Decoder) (go : Bool) (d' : Decoder) : Prop where
  at' : d'.reader.At s packed
  goes : go = true → d'.reader.elems.length ≤ d.reader.elems.length
  ends : go = false → d'.reader.elems = []
  lastidam : d'.lastidam = d.lastidam
  idamv : d'.idamv = d.idamv
  slots :
    (d'.valid = d.valid ∧ d'.mem = d.mem) ∨
    ∃ rec c2, recordAfter packed s (s.cfg.sectorBytes + 3) d.reader.cursor = some (rec, c2) ∧
      validRecord s.cfg markDam rec ∧ rec.length = s.cfg.sectorBytes + 3 ∧ d'.valid = setValid d.valid (r - 1) ∧
      d'.mem = d.mem.store (slotAddr s.cfg (r - 1)) ((rec.drop 1).take s.cfg.sectorBytes)

theorem Decoder.payload_spec {s : State} {packed : Bool} {d : Decoder} (r : Nat) (hd : d.reader.At s packed) (go : Bool)
    (d' : Decoder) (h : d.payload s.cfg s.t2.toNat s.t3.toNat r = (go, d')) : Decoder.PaidOut s packed r d go d' := by
  unfold Decoder.payload at h
  cases hs : d.search s.t2.toNat s.t3.toNat with
  | mk b d1 =>
    rw [hs] at h
    cases b with
    | false =>
      simp only [Prod.mk.injEq] at h
      obtain ⟨rfl, rfl⟩ := h
      obtain ⟨h1, h2, h3, h4, h5, h6⟩ := Decoder.search_fail hd hs
      exact ⟨h1, (fun h => nomatch h), fun _ => h2, h3, h4, .inl ⟨h5, h6⟩⟩
    | true =>
      obtain ⟨ha, hl, f1, f2, f3, f4⟩ := Decoder.search_at hd hs
      have hread := recordAfter_of_search hd (1 + s.cfg.sectorBytes + 2) hs
      obtain ⟨ra, rl, rlen, g1, g2, g3, g4⟩ := Decoder.record_at ha (1 + s.cfg.sectorBytes + 2)
      have hnum : 1 + s.cfg.sectorBytes + 2 = s.cfg.sectorBytes + 3 := by omega
      rw [hnum] at hread ra rl rlen g1 g2 g3 g4 h
      cases hrec : d1.record s.t2.toNat s.t3.toNat (s.cfg.sectorBytes + 3) with
      | mk rec d2 =>
        simp only [hrec] at hread ra rl rlen g1 g2 g3 g4 h
        split at h <;> simp only [Prod.mk.injEq] at h <;> obtain ⟨rfl, rfl⟩ := h
        · rename_i hok
          exact
            { at' := ra
              goes := fun _ => Nat.le_trans rl (Nat.le_trans (Nat.le_add_right _ 14) hl)
              ends := fun h => nomatch h
              lastidam := g1.trans f1
              idamv := g2.trans f2
              slots := .inr ⟨rec, _, hread, recordOk_valid hok, rlen, congrArg (fun v => setValid v (r - 1)) (g3.trans f3),
                congrArg (fun m : Memory => m.store _ _) (g4.trans f4)⟩ }
        · exact
            { at' := ra
              goes := fun _ => Nat.le_trans rl (Nat.le_trans (Nat.le_add_right _ 14) hl)
              ends := fun h => nomatch h
              lastidam := g1.trans f1
              idamv := g2.trans f2
              slots := .inl ⟨g3.trans f3, g4.trans f4⟩ }

/-- One pass of the loop (45_track_decode_encode.md R232). -/
theorem Decoder.pass_spec {s : State} {packed : Bool} {d : Decoder} (n : Nat) (hd : d.reader.At s packed) (go : Bool)
    (d' : Decoder) (h : d.pass s.cfg s.t2.toNat s.t3.toNat n = (go, d')) : Decoder.Passed s packed n d go d' := by
  unfold Decoder.pass at h
  cases hs : d.search s.t2.toNat s.t3.toNat with
  | mk b d1 =>
    rw [hs] at h
    cases b with
    | false =>
      simp only [Prod.mk.injEq] at h
      obtain ⟨rfl, rfl⟩ := h
      obtain ⟨h1, h2, h3⟩ := Decoder.search_fail hd hs
      exact ⟨h1, (fun h => nomatch h), fun _ => h2, .inl h3⟩
    | true =>
      obtain ⟨ha, hl, e1, e2, e3, e4⟩ := Decoder.search_at hd hs
      have hread := recordAfter_of_search hd 7 hs
      obtain ⟨ra, rl, rlen, r1, r2, r3, r4⟩ := Decoder.record_at ha 7
      cases hrec : d1.record s.t2.toNat s.t3.toNat 7 with
      | mk hdr d2 =>
        simp only [hrec] at hread ra rl rlen r1 r2 r3 r4 h
        have hlen : d2.reader.elems.length + 14 ≤ d.reader.elems.length := Nat.le_trans (Nat.add_le_add_right rl 14) hl
        by_cases hok : recordOk s.cfg hdr markIdam = true
        · rw [if_pos hok] at h
          have hv := recordOk_valid hok
          have hcv : (d2.capture hdr).valid = d.valid := r3.trans e3
          have hcm : (d2.capture hdr).mem = d.mem := r4.trans e4
          by_cases hfu : followUp s.cfg n d.valid hdr = true
          · rw [hcv, if_pos hfu] at h
            have hp := Decoder.payload_spec (d := d2.capture hdr) (recByte hdr 3).toNat ra go d' h
            refine ⟨hp.at', fun hg => Nat.le_trans (Nat.add_le_add_right (hp.goes hg) 14) hlen, hp.ends,
              .inr ⟨hdr, _, hread, hv, hp.lastidam, hp.idamv, ?_⟩⟩
            have hslots := hp.slots
            rw [hcv, hcm] at hslots
            rcases hslots with hx | hx
            · exact .inl hx
            · exact .inr ⟨hfu, hx⟩
          · rw [hcv, if_neg hfu] at h
            simp only [Prod.mk.injEq] at h
            obtain ⟨rfl, rfl⟩ := h
            exact ⟨ra, fun _ => hlen, (fun h => nomatch h), .inr ⟨hdr, _, hread, hv, rfl, rfl, .inl ⟨hcv, hcm⟩⟩⟩
        · rw [if_neg hok] at h
          simp only [Prod.mk.injEq] at h
          obtain ⟨rfl, rfl⟩ := h
          exact ⟨ra, fun _ => hlen, (fun h => nomatch h), .inl ⟨r1.trans e1, r2.trans e2, r3.trans e3, r4.trans e4⟩⟩

/-! ## The loop -/

/-- Induction over the loop: what every pass keeps, the loop keeps. -/
theorem decodeLoop_induct {cfg : Config} {t2 t3 n : Nat} (P : Decoder → Prop)
    (h : ∀ d, P d → countValid d.valid n ≠ n → P (d.pass cfg t2 t3 n).2) (fuel : Nat) (d : Decoder) (hd : P d) :
    P (decodeLoop cfg t2 t3 n fuel d) := by
  induction fuel generalizing d with
  | zero => exact hd
  | succ fuel ih =>
    rw [decodeLoop]
    split
    · exact hd
    · rename_i hc
      have := h d hd hc
      split <;> rename_i hp <;> rw [hp] at this
      · exact ih _ this
      · exact this

/-- The loop ends with every sector valid or with the stream read to its end (45_track_decode_encode.md R238, R241). -/
theorem decodeLoop_end {s : State} {packed : Bool} (n fuel : Nat) (d : Decoder) (hd : d.reader.At s packed)
    (hf : d.reader.elems.length < fuel) :
    (decodeLoop s.cfg s.t2.toNat s.t3.toNat n fuel d).reader.At s packed ∧
      (countValid (decodeLoop s.cfg s.t2.toNat s.t3.toNat n fuel d).valid n = n ∨
        (decodeLoop s.cfg s.t2.toNat s.t3.toNat n fuel d).reader.elems = []) := by
  induction fuel generalizing d with
  | zero => omega
  | succ fuel ih =>
    rw [decodeLoop]
    split
    · exact ⟨hd, .inl ‹_›⟩
    · split <;> rename_i he <;> have hp := Decoder.pass_spec n hd _ _ he
      · have := hp.goes rfl
        exact ih _ hp.at' (by omega)
      · exact ⟨hp.at', .inr (hp.ends rfl)⟩

theorem decodeStart_at (f : Flags) (s : State) : (decodeStart f s).reader.At s f.packed := State.readerAt_at s f.packed 0 (by omega)

/-- How DECODE ends (45_track_decode_encode.md R238). -/
theorem decodeEnd_end (f : Flags) (s : State) :
    (decodeEnd f s).reader.At s f.packed ∧
      (countValid (decodeEnd f s).valid s.nsect.toNat = s.nsect.toNat ∨ (decodeEnd f s).reader.elems = []) :=
  decodeLoop_end s.nsect.toNat _ _ (decodeStart_at f s) (by omega)

/-- Induction over DECODE: what holds at the start and every pass keeps holds at the end. -/
theorem decodeEnd_induct (f : Flags) (s : State) (P : Decoder → Prop) (h0 : P (decodeStart f s))
    (h : ∀ d d' go, d.reader.At s f.packed → P d → Decoder.Passed s f.packed s.nsect.toNat d go d' → P d') :
    P (decodeEnd f s) := by
  have := decodeLoop_induct (cfg := s.cfg) (t2 := s.t2.toNat) (t3 := s.t3.toNat) (n := s.nsect.toNat)
    (fun d => d.reader.At s f.packed ∧ P d)
    (fun d hd _ => ⟨(Decoder.pass_spec _ hd.1 _ _ rfl).at', h _ _ _ hd.1 hd.2 (Decoder.pass_spec _ hd.1 _ _ rfl)⟩)
    ((decodeStart f s).reader.elems.length + 1) (decodeStart f s) ⟨decodeStart_at f s, h0⟩
  exact this.2

/-- The sector an IDAM that is followed up names (45_track_decode_encode.md R234). -/
theorem followUp_spec {cfg : Config} {n : Nat} {valid : Word} {hdr : List Byte} (h : followUp cfg n valid hdr = true) :
    1 ≤ (recByte hdr 3).toNat ∧ (recByte hdr 3).toNat ≤ n ∧ validBit valid ((recByte hdr 3).toNat - 1) = false ∧
      (recByte hdr 4).toNat = cfg.sizeCode := by
  simp only [followUp, Bool.and_eq_true, decide_eq_true_eq, Bool.not_eq_true'] at h
  exact ⟨h.1.1.1, h.1.1.2, h.1.2, h.2⟩

end Sys2Proof.Machine
end

