-- ==== Sys2Proof/Laws/Ops.lean ====
section
/-! SUPPORT. What the shared control operations can answer: a check, the FM refusal, the completion. -/
namespace Sys2Proof.Machine

@[simp] theorem finish_eq (effect : State → State) (s : State) : finish effect s = .next (effect s).complete := rfl

/-- A check that holds is passed. -/
theorem orError_of_true {ok : Bool} (e : ErrCode) (s : State) (k : Host.Outcome State Fault Refusal) (h : ok = true) :
    orError ok e s k = k := by simp [orError, h]

/-- A check that fails ends the command with its error. -/
theorem orError_of_false {ok : Bool} (e : ErrCode) (s : State) (k : Host.Outcome State Fault Refusal) (h : ok = false) :
    orError ok e s k = .next (s.cmdError e) := by simp [orError, h]

/-- All a check can do when the command answers a next state. -/
theorem orError_next {ok : Bool} {e : ErrCode} {s t : State} {k : Host.Outcome State Fault Refusal}
    (h : orError ok e s k = .next t) : (ok = true ∧ k = .next t) ∨ (ok = false ∧ t = s.cmdError e) := by
  unfold orError at h
  split at h
  · exact .inl ⟨‹_›, h⟩
  · rename_i hok
    exact .inr ⟨by simpa using hok, by simpa using h.symm⟩

theorem unlessFm_of_false {f : Flags} (k : Host.Outcome State Fault Refusal) (h : f.fm = false) :
    unlessFm f k = k := by simp [unlessFm, h]

theorem unlessFm_of_true {f : Flags} (k : Host.Outcome State Fault Refusal) (h : f.fm = true) :
    unlessFm f k = .refused .fmFramingNotInSource := by simp [unlessFm, h]

/-- A framing command that answers a next state is in MFM mode. -/
theorem unlessFm_next {f : Flags} {t : State} {k : Host.Outcome State Fault Refusal}
    (h : unlessFm f k = .next t) : f.fm = false ∧ k = .next t := by
  unfold unlessFm at h
  split at h
  · cases h
  · rename_i hf
    exact ⟨by simpa using hf, h⟩

/-- No check and no completion is a fault. -/
theorem orError_fault {ok : Bool} {e : ErrCode} {s : State} {k : Host.Outcome State Fault Refusal} {r : Fault}
    (h : orError ok e s k = .fault r) : k = .fault r := by
  unfold orError at h
  split at h
  · exact h
  · cases h

theorem orError_refused {ok : Bool} {e : ErrCode} {s : State} {k : Host.Outcome State Fault Refusal} {r : Refusal}
    (h : orError ok e s k = .refused r) : k = .refused r := by
  unfold orError at h
  split at h
  · exact h
  · cases h

end Sys2Proof.Machine
end

