-- ==== Sys2Proof/Laws/Exec.lean ====
section
/-! SUPPORT. What performing an instruction can do, said once: it is refused in FM mode, or a check of 60_exceptions.md R335
ends it with an error, or it has its effect and completes. -/
namespace Sys2Proof.Machine

/-- The effect of an instruction whose checks pass, before its completion. -/
def effectOf : Instr → State → State
  | .nop _, s => s
  | .classify _, s => { s with result := toWord (classifyDur s.arg0.toNat s.t2.toNat s.t3.toNat).ordinal }
  | .readsym f, s => readSymbolEffect f.packed s
  | .sync f, s => syncEffect f.packed s
  | .demod f, s => demodEffect f.packed s
  | .crc _, s => crcEffect s
  | .pack _, s => packEffect s
  | .unpack _, s => unpackResult s.parseAtCursor s
  | .mod f, s => modEffect f.packed s
  | .decode f, s => decodeEffect f s
  | .encode f, s => encodeEffect f.packed s
  | .clrvalid _, s => { s with valid := 0#32 }
  | .markwr _, s => markWritten s
  | .endMark, s => unpackResult none s
  | .gw1 b0, s => unpackResult (s.elementAtCursor 1 b0.toNat) s
  | .gw2 b0 b1, s => unpackResult (s.elementAtCursor 2 (gw2Value b0 b1)) s
  | .gw2End _, s => unpackResult none s
  | .gw6 p0 p1 p2 p3, s => unpackResult (s.elementAtCursor 6 (gw6Value p0 p1 p2 p3)) s
  | .gw6Skip _ _ _ _ _, s => unpackResult s.parsePastSkip s

/-- The BAD_CONFIG checks of an instruction pass (60_exceptions.md R335). -/
def configOk : Instr → State → Bool
  | .nop _, _ => true
  | .classify _, _ => true
  | .readsym _, s => s.streamOk
  | .sync _, s => s.streamOk
  | .demod _, s => s.streamOk
  | .crc _, _ => true
  | .pack _, s => s.outputOk
  | .unpack _, s => s.streamOk
  | .mod f, s => s.outputOk && s.cellLengthOk f.packed
  | .decode _, s => s.sectorsOk && decide (s.plen.toNat ≤ s.cfg.pulseCap)
  | .encode f, s => s.sectorsOk && decide (s.outcap.toNat ≤ s.cfg.pulseCap) && s.cellLengthOk f.packed
  | .clrvalid _, _ => true
  | .markwr _, s => s.sectorsOk
  | .endMark, s => s.streamOk
  | .gw1 _, s => s.streamOk
  | .gw2 _ _, s => s.streamOk
  | .gw2End _, s => s.streamOk
  | .gw6 _ _ _ _, s => s.streamOk
  | .gw6Skip _ _ _ _ _, s => s.streamOk

/-- The BAD_ARG checks of an instruction pass (60_exceptions.md R335). -/
def argOk : Instr → State → Bool
  | .nop _, _ => true
  | .classify _, _ => true
  | .readsym _, _ => true
  | .sync _, _ => true
  | .demod _, s => s.recordCountOk
  | .crc _, s => decide (s.arg0.toNat ≤ s.cfg.recCap)
  | .pack _, s => decide (s.arg0 ≠ 0#32)
  | .unpack _, _ => true
  | .mod _, s => decide (s.modKind ≠ 3) && s.recordCountOk
  | .decode _, _ => true
  | .encode _, _ => true
  | .clrvalid _, _ => true
  | .markwr _, s => decide (s.arg0.toNat < s.nsect.toNat)
  | .endMark, _ => true
  | .gw1 _, _ => true
  | .gw2 _ _, _ => true
  | .gw2End _, _ => true
  | .gw6 _ _ _ _, _ => true
  | .gw6Skip _ _ _ _ _, _ => true

/-- Every instruction in one form: refusal, BAD_CONFIG, BAD_ARG, effect, in this priority (60_exceptions.md R336). -/
theorem exec_eq (i : Instr) (s : State) :
    exec i s =
      if isFmFraming i then .refused .fmFramingNotInSource
      else if configOk i s then
        if argOk i s then .next (effectOf i s).complete else .next (s.cmdError .badArg)
      else .next (s.cmdError .badConfig) := by
  cases i <;> rfl

/-- All an instruction can do when it answers a next state. -/
theorem exec_next {i : Instr} {s t : State} (h : exec i s = .next t) :
    isFmFraming i = false ∧
      ((configOk i s = true ∧ argOk i s = true ∧ t = (effectOf i s).complete) ∨
        (configOk i s = true ∧ argOk i s = false ∧ t = s.cmdError .badArg) ∨
        (configOk i s = false ∧ t = s.cmdError .badConfig)) := by
  rw [exec_eq] at h
  split at h
  · cases h
  · rename_i hf
    refine ⟨by simpa using hf, ?_⟩
    split at h
    · rename_i hc
      split at h
      · rename_i ha
        exact .inl ⟨hc, ha, by simpa using h.symm⟩
      · rename_i ha
        exact .inr (.inl ⟨hc, by simpa using ha, by simpa using h.symm⟩)
    · rename_i hc
      exact .inr (.inr ⟨by simpa using hc, by simpa using h.symm⟩)

/-- An instruction whose checks pass runs. -/
theorem exec_of_ok {i : Instr} {s : State} (hf : isFmFraming i = false) (hc : configOk i s = true)
    (ha : argOk i s = true) : exec i s = .next (effectOf i s).complete := by
  rw [exec_eq, hf, hc, ha]
  rfl

/-- An instruction is refused exactly in the FM framing forms (30_encoding.md R96). -/
theorem exec_refused {i : Instr} {s : State} {r : Refusal} (h : exec i s = .refused r) :
    isFmFraming i = true ∧ r = .fmFramingNotInSource := by
  rw [exec_eq] at h
  split at h
  · rename_i hf
    cases h
    exact ⟨hf, rfl⟩
  · split at h
    · split at h <;> cases h
    · cases h

/-- No instruction faults (20_memory.md R63). -/
theorem exec_fault {i : Instr} {s : State} {r : Fault} (h : exec i s = .fault r) : False := by
  rw [exec_eq] at h
  split at h
  · cases h
  · split at h
    · split at h <;> cases h
    · cases h

end Sys2Proof.Machine
end

