-- ==== Sys2Proof/Laws/Modulator.lean ====
section
/-! SUPPORT. The laws of the modulator: items are their cells, and what cells are written as (44_line_code.md R204 to R208). -/
namespace Sys2Proof.Machine

/-! ## What cells are written as -/

theorem packBytes_length_pos (v : Nat) : 1 ≤ (packBytes v).length := by
  unfold packBytes
  split
  · simp
  · split <;> simp

theorem durationBytes_length_pos (packed : Bool) (d : Nat) : 1 ≤ (durationBytes packed d).length := by
  unfold durationBytes
  split
  · exact packBytes_length_pos _
  · simp

/-- The number of elements that fit is at most their number. -/
theorem fitCount_le (room : Nat) (es : List (List Byte)) : fitCount room es ≤ es.length := by
  induction es generalizing room with
  | nil => simp [fitCount]
  | cons e es ih =>
    simp only [fitCount]
    split
    · simpa using ih _
    · simp

/-- The elements that fit take no more than the room. -/
theorem fitCount_room (room : Nat) (es : List (List Byte)) :
    ((es.take (fitCount room es)).flatten).length ≤ room := by
  induction es generalizing room with
  | nil => simp [fitCount]
  | cons e es ih =>
    simp only [fitCount]
    split
    · have := ih (room - e.length)
      simp only [List.take_succ_cons, List.flatten_cons, List.length_append]
      omega
    · simp

@[simp] theorem emission_nil (packed full : Bool) (t1 room run : Nat) :
    emission packed full t1 room run [] = ⟨[], 0, false, []⟩ := by
  simp [emission, intervals, cellsBefore, fitCount]

theorem cellsBefore_false (k : Nat) (xs : List Bool) : cellsBefore k (false :: xs) = false :: cellsBefore k xs := by
  cases k <;> rfl

/-- A zero cell is processed and written as nothing (44_line_code.md R208). -/
theorem emission_false (packed full : Bool) (t1 room run : Nat) (cs : List Bool) :
    emission packed full t1 room run (false :: cs) =
      { emission packed full t1 room (run + 1) cs with
        cells := false :: (emission packed full t1 room (run + 1) cs).cells } := by
  simp only [emission, intervals, cellsBefore_false]
  rfl

/-- A 1 cell whose duration does not fit ends the writing (44_line_code.md R205, R208). -/
theorem emission_true_stop (packed full : Bool) (t1 room run : Nat) (cs : List Bool)
    (h : full = true ∨ room < (durationBytes packed ((run + 1) * t1)).length) :
    emission packed full t1 room run (true :: cs) =
      ⟨if packed && !full && decide (0 < room) then [0x00#8] else [], 0, true, []⟩ := by
  have hk : (if full then 0 else fitCount room
      (((run + 1) :: intervals 0 cs).map (fun k => durationBytes packed (k * t1)))) = 0 := by
    split
    · rfl
    · rcases h with h | h
      · contradiction
      · simp only [List.map_cons, fitCount, if_neg (Nat.not_le.2 h)]
  simp only [emission, intervals, hk, cellsBefore]
  simp

/-- A 1 cell whose duration fits is written (44_line_code.md R205). -/
theorem emission_true_fit (packed : Bool) (t1 room run : Nat) (cs : List Bool)
    (h : (durationBytes packed ((run + 1) * t1)).length ≤ room) :
    emission packed false t1 room run (true :: cs) =
      ⟨durationBytes packed ((run + 1) * t1) ++
          (emission packed false t1 (room - (durationBytes packed ((run + 1) * t1)).length) 0 cs).bytes,
        (emission packed false t1 (room - (durationBytes packed ((run + 1) * t1)).length) 0 cs).count + 1,
        (emission packed false t1 (room - (durationBytes packed ((run + 1) * t1)).length) 0 cs).stopped,
        true :: (emission packed false t1 (room - (durationBytes packed ((run + 1) * t1)).length) 0 cs).cells⟩ := by
  generalize hd : durationBytes packed ((run + 1) * t1) = e at h ⊢
  generalize hes : (intervals 0 cs).map (fun k => durationBytes packed (k * t1)) = es
  have hk : fitCount room (e :: es) = fitCount (room - e.length) es + 1 := by simp only [fitCount, if_pos h]
  have hlen : ∀ l : List Byte, decide ((e ++ l).length < room) = decide (l.length < room - e.length) := by
    intro l
    simp only [List.length_append, decide_eq_decide]
    omega
  simp only [emission, intervals, Bool.false_eq_true, if_false, List.map_cons, hd, hes, hk, List.take_succ_cons,
    List.flatten_cons, List.length_cons, Nat.add_lt_add_iff_right, cellsBefore, hlen]
  split <;> simp [List.append_assoc]

/-- What is written lies within the room, the terminating byte included (20_memory.md R71). -/
theorem emission_bytes_le (packed full : Bool) (t1 room run : Nat) (cs : List Bool) :
    (emission packed full t1 room run cs).bytes.length ≤ room := by
  have h := fitCount_room room ((intervals run cs).map (fun k => durationBytes packed (k * t1)))
  simp only [emission]
  cases full with
  | true => simp
  | false =>
    simp only [Bool.false_eq_true, if_false]
    split
    · rename_i hc
      simp only [Bool.and_eq_true, decide_eq_true_eq] at hc
      simp only [List.length_append, List.length_cons, List.length_nil]
      omega
    · exact h

theorem emission_stopped_iff (packed full : Bool) (t1 room run : Nat) (cs : List Bool) :
    (emission packed full t1 room run cs).stopped =
      decide ((emission packed full t1 room run cs).count < (intervals run cs).length) := by
  simp [emission]

theorem flatten_length_ge (es : List (List Byte)) (h : ∀ e ∈ es, 1 ≤ e.length) : es.length ≤ es.flatten.length := by
  induction es with
  | nil => simp
  | cons e es ih =>
    have h1 := h e (by simp)
    have h2 := ih (fun x hx => h x (by simp [hx]))
    simp only [List.length_cons, List.flatten_cons, List.length_append]
    omega

/-- Each duration takes at least one byte. -/
theorem emission_count_le (packed full : Bool) (t1 room run : Nat) (cs : List Bool) :
    (emission packed full t1 room run cs).count ≤ (emission packed full t1 room run cs).bytes.length := by
  simp only [emission]
  generalize hes : (intervals run cs).map (fun k => durationBytes packed (k * t1)) = es
  generalize hk : (if full then 0 else fitCount room es) = k
  have hk' : k ≤ es.length := by
    subst hk
    split
    · omega
    · exact fitCount_le _ _
  have hpos : ∀ e ∈ es.take k, 1 ≤ e.length := by
    intro e he
    have := List.mem_of_mem_take he
    subst hes
    obtain ⟨x, _, rfl⟩ := List.mem_map.1 this
    exact durationBytes_length_pos _ _
  have h := flatten_length_ge _ hpos
  rw [List.length_take, Nat.min_eq_left hk'] at h
  split
  · rw [List.length_append]
    omega
  · exact h

/-! ## Cells processed -/

/-- Cells processed in turn, the first of the kind `k`. -/
def Modulator.feed : Modulator → Parity → List Bool → Modulator
  | m, _, [] => m
  | m, k, x :: xs => Modulator.feed (m.cell x k) k.next xs

theorem Modulator.cell_of_stopped (m : Modulator) (x : Bool) (k : Parity) (h : m.stopped = true) : m.cell x k = m := by
  simp [Modulator.cell, h]

theorem Modulator.feed_of_stopped (m : Modulator) (k : Parity) (xs : List Bool) (h : m.stopped = true) :
    m.feed k xs = m := by
  induction xs generalizing k with
  | nil => rfl
  | cons x xs ih => rw [Modulator.feed, Modulator.cell_of_stopped m x k h, ih]

/-- An even number of cells brings the kind round. -/
theorem Modulator.feed_append (m : Modulator) (k : Parity) (xs ys : List Bool) :
    m.feed k (xs ++ ys) = (m.feed k xs).feed (if xs.length % 2 = 0 then k else k.next) ys := by
  induction xs generalizing m k with
  | nil => simp [Modulator.feed]
  | cons x xs ih =>
    rw [List.cons_append, Modulator.feed, ih, Modulator.feed]
    congr 1
    have hk : k.next.next = k := by cases k <;> rfl
    simp only [List.length_cons, hk]
    split <;> split <;> first | rfl | omega

theorem Modulator.stopped_feed (m : Modulator) (k : Parity) (xs : List Bool) (h : (m.feed k xs).stopped = false) :
    m.stopped = false := by
  cases hm : m.stopped with
  | false => rfl
  | true => rw [Modulator.feed_of_stopped m k xs hm, hm] at h; exact h

theorem Modulator.fits_eq (m : Modulator) (dur : Nat) :
    m.fits dur = (!m.full && decide ((durationBytes m.packed dur).length ≤ m.room)) := by
  unfold Modulator.fits durationBytes
  cases m.packed
  · simp [Nat.succ_le_iff]
  · simp [packElement, packMax]
    rfl

theorem Modulator.durBytes_eq (m : Modulator) (dur : Nat) : m.durBytes dur = durationBytes m.packed dur := by
  unfold Modulator.durBytes durationBytes
  simp [packElement, packMax]

/-- The last data cell among cells whose first has the kind `k`. -/
def lastFrom : Parity → Bool → List Bool → Bool
  | _, p, [] => p
  | .clock, p, _ :: xs => lastFrom .data p xs
  | .data, _, x :: xs => lastFrom .clock x xs

theorem lastFrom_clock (p : Bool) (xs : List Bool) : lastFrom .clock p xs = lastData p xs := by
  induction p, xs using lastData.induct with
  | case1 p c d xs ih => simp [lastFrom, lastData, ih]
  | case2 xs p h =>
    match xs with
    | [] => rfl
    | [x] => rfl
    | c :: d :: xs => exact absurd rfl (h c d xs)

/-- Everything a modulator does with cells (44_line_code.md R205, R208): what it writes is the `emission` of the cells, and its
counters follow the cells it has processed. -/
structure Modulator.Fed (m m' : Modulator) (k : Parity) (e : Emission) : Prop where
  t1 : m'.t1 = m.t1
  packed : m'.packed = m.packed
  stopped : m'.stopped = e.stopped
  full : m'.full = (m.full || e.stopped)
  count : m'.count = m.count + e.count
  room : m'.room = m.room - e.bytes.length
  out : m'.outRev = e.bytes.reverse ++ m.outRev
  run : m'.run = openRun m.run e.cells
  prev : m'.prev = lastFrom k m.prev e.cells

theorem Modulator.feed_eq (m : Modulator) (k : Parity) (xs : List Bool) (h : m.stopped = false) :
    Modulator.Fed m (m.feed k xs) k (emission m.packed m.full m.t1 m.room m.run xs) := by
  induction xs generalizing m k with
  | nil => constructor <;> simp [Modulator.feed, openRun, lastFrom, h]
  | cons x xs ih =>
    cases x with
    | false =>
      have hc : m.cell false k = { m with run := m.run + 1, prev := m.prevAfter false k } := by
        simp [Modulator.cell, h]
      have := ih (m.cell false k) k.next (by simp [hc, h])
      rw [Modulator.feed]
      rw [emission_false]
      simp only [hc] at this ⊢
      exact { this with
        run := by rw [this.run]; rfl
        prev := by
          rw [this.prev]
          cases k <;> simp [lastFrom, Parity.next, Modulator.prevAfter] }
    | true =>
      rw [Modulator.feed]
      by_cases hf : m.fits ((m.run + 1) * m.t1) = true
      · have hc : m.cell true k =
            { m.push (m.durBytes ((m.run + 1) * m.t1)) with
              run := 0, prev := m.prevAfter true k, count := m.count + 1 } := by
          simp [Modulator.cell, h, hf]
        rw [Modulator.fits_eq, Bool.and_eq_true, decide_eq_true_eq, Bool.not_eq_true'] at hf
        have := ih (m.cell true k) k.next (by simp [hc, h, Modulator.push])
        rw [hf.1, emission_true_fit _ _ _ _ _ hf.2]
        simp only [hc, Modulator.push, Modulator.durBytes_eq, hf.1] at this ⊢
        have hle := emission_bytes_le m.packed false m.t1
          (m.room - (durationBytes m.packed ((m.run + 1) * m.t1)).length) 0 xs
        exact
          { t1 := this.t1
            packed := this.packed
            stopped := this.stopped
            full := by rw [this.full]; simp [hf.1]
            count := by
              have := this.count
              simp only at this ⊢
              omega
            room := by
              have := this.room
              simp only [List.length_append] at this ⊢
              omega
            out := by rw [this.out]; simp
            run := by rw [this.run]; rfl
            prev := by
              rw [this.prev]
              cases k <;> simp [lastFrom, Parity.next, Modulator.prevAfter] }
      · have hc : m.cell true k = m.stop ((m.run + 1) * m.t1) := by
          simp [Modulator.cell, h, hf]
        have hstop : m.full = true ∨ m.room < (durationBytes m.packed ((m.run + 1) * m.t1)).length := by
          rw [Modulator.fits_eq] at hf
          cases hm : m.full
          · simp only [hm, Bool.not_false, Bool.true_and, decide_eq_true_eq] at hf
            exact .inr (by omega)
          · exact .inl rfl
        have hs : (m.stop ((m.run + 1) * m.t1)).stopped = true := by
          unfold Modulator.stop
          split <;> rfl
        rw [hc, Modulator.feed_of_stopped _ _ _ hs, emission_true_stop _ _ _ _ _ _ hstop]
        unfold Modulator.stop
        cases hp : m.packed with
        | false => constructor <;> simp [hp, openRun, lastFrom]
        | true =>
          simp only [if_true, packInto]
          cases hm : m.full with
          | true => constructor <;> simp [hp, hm, openRun, lastFrom, Modulator.push]
          | false =>
            have hno : ¬ (packElement ((m.run + 1) * m.t1)).length ≤ m.room := by
              rcases hstop with hx | hx
              · rw [hm] at hx; cases hx
              · simp only [hp, durationBytes, if_true] at hx
                simp only [packElement, packMax]
                omega
            simp only [Bool.false_eq_true, if_false, if_neg hno]
            by_cases hr : 1 ≤ m.room
            · have hr' : 0 < m.room := hr
              simp only [if_pos hr]
              constructor <;> simp [hp, hm, openRun, lastFrom, Modulator.push, hr']
            · have hr' : m.room = 0 := by omega
              constructor <;> simp [hp, hm, openRun, lastFrom, Modulator.push, hr']

/-! ## Items are their cells -/

theorem Modulator.dataBit_eq (m : Modulator) (d : Bool) :
    m.dataBit d = m.feed .clock [!(m.prev || d), d] := rfl

/-- The cells before a 1 cell that is not there are all the cells. -/
theorem cellsBefore_of_ge (k run : Nat) (xs : List Bool) (h : (intervals run xs).length ≤ k) : cellsBefore k xs = xs := by
  induction xs generalizing k run with
  | nil => cases k <;> rfl
  | cons x xs ih =>
    cases x with
    | false =>
      have := ih k (run + 1) h
      cases k <;> simp [cellsBefore, this]
    | true =>
      simp only [intervals, List.length_cons] at h
      obtain ⟨n, rfl⟩ : ∃ n, k = n + 1 := ⟨k - 1, by omega⟩
      simp [cellsBefore, ih n 0 (by omega)]

/-- With nothing cut off, every cell has been processed. -/
theorem emission_cells_of_not_stopped (packed full : Bool) (t1 room run : Nat) (cs : List Bool)
    (h : (emission packed full t1 room run cs).stopped = false) : (emission packed full t1 room run cs).cells = cs := by
  rw [emission_stopped_iff, decide_eq_false_iff_not, Nat.not_lt] at h
  exact cellsBefore_of_ge _ run _ h

/-- Fed cells that all fit leave the last data cell in `prev`. -/
theorem Modulator.prev_feed (m : Modulator) (xs : List Bool) (h : (m.feed .clock xs).stopped = false) :
    (m.feed .clock xs).prev = lastData m.prev xs := by
  have hm := Modulator.stopped_feed m _ _ h
  have hf := Modulator.feed_eq m .clock xs hm
  rw [hf.stopped] at h
  rw [hf.prev, emission_cells_of_not_stopped _ _ _ _ _ _ h, lastFrom_clock]

theorem Modulator.prev_dataBit (m : Modulator) (d : Bool) (h : (m.dataBit d).stopped = false) :
    (m.dataBit d).prev = d := by
  rw [Modulator.dataBit_eq] at h ⊢
  exact Modulator.prev_feed m _ h

theorem Modulator.foldl_dataBit_of_stopped (m : Modulator) (ds : List Bool) (h : m.stopped = true) :
    ds.foldl Modulator.dataBit m = m := by
  induction ds with
  | nil => rfl
  | cons d ds ih => rw [List.foldl_cons, Modulator.dataBit_eq, Modulator.feed_of_stopped m _ _ h, ih]

/-- Data bits are modulated as their clock and data cells (30_encoding.md R101). -/
theorem Modulator.foldl_dataBit (m : Modulator) (ds : List Bool) :
    ds.foldl Modulator.dataBit m = m.feed .clock (mfmCells m.prev ds) := by
  induction ds generalizing m with
  | nil => rfl
  | cons d ds ih =>
    rw [List.foldl_cons, mfmCells, show (!(m.prev || d)) :: d :: mfmCells d ds = [!(m.prev || d), d] ++ mfmCells d ds from rfl,
      Modulator.feed_append]
    simp only [List.length_cons, List.length_nil, ← Modulator.dataBit_eq]
    cases hs : (m.dataBit d).stopped with
    | true => rw [Modulator.foldl_dataBit_of_stopped _ _ hs, Modulator.feed_of_stopped _ _ _ hs]
    | false =>
      rw [ih, Modulator.prev_dataBit m d hs]
      rfl

theorem bitsOfByte_eq (b : Byte) : bitsOfByte b = (List.range 8).map (fun j => b.getLsbD (7 - j)) := rfl

theorem syncCells_eq (w : BitVec 16) (m : Modulator) : m.syncWord w = m.feed .clock (wordCells w) := by
  simp only [Modulator.syncWord, syncCells, wordCells, List.range_succ, List.range_zero, List.nil_append, List.cons_append,
    List.map_cons, List.map_nil, List.foldl_cons, List.foldl_nil, Modulator.feed, Parity.next, Nat.reduceSub, Nat.sub_zero]

theorem mfmCells_length (prev : Bool) (ds : List Bool) : (mfmCells prev ds).length = 2 * ds.length := by
  induction ds generalizing prev with
  | nil => rfl
  | cons d ds ih => simp only [mfmCells, List.length_cons, ih]; omega

theorem wordCells_length (w : BitVec 16) : (wordCells w).length = 16 := by simp [wordCells]

theorem lastData_mfmCells (p prev : Bool) (ds : List Bool) : lastData p (mfmCells prev ds) = ds.getLast?.getD p := by
  induction ds generalizing p prev with
  | nil => rfl
  | cons d ds ih =>
    rw [mfmCells, lastData, ih]
    cases ds with
    | nil => rfl
    | cons e es => simp [List.getLast?_cons]

theorem Modulator.items_of_stopped (m : Modulator) (is : List Item) (h : m.stopped = true) : m.items is = m := by
  induction is with
  | nil => rfl
  | cons i is ih =>
    unfold Modulator.items at ih ⊢
    rw [List.foldl_cons, show m.item i = m by simp [Modulator.item, h], ih]

theorem Modulator.items_append (m : Modulator) (is js : List Item) : m.items (is ++ js) = (m.items is).items js := by
  simp [Modulator.items, List.foldl_append]

/-- Items are modulated as their cells (44_line_code.md R204, R207). -/
theorem Modulator.items_eq (m : Modulator) (is : List Item) : m.items is = m.feed .clock (itemsCells m.prev is) := by
  induction is generalizing m with
  | nil => rfl
  | cons i is ih =>
    cases hs : m.stopped with
    | true => rw [Modulator.items_of_stopped m _ hs, Modulator.feed_of_stopped m _ _ hs]
    | false =>
      have hitems : m.items (i :: is) = (m.item i).items is := rfl
      rw [hitems]
      cases i with
      | byte b =>
        have hb : m.item (.byte b) = m.feed .clock (mfmCells m.prev ((List.range 8).map fun j => b.getLsbD (7 - j))) := by
          simp only [Modulator.item, hs, Modulator.byte, Modulator.foldl_dataBit, bitsOfByte_eq]
          rfl
        rw [hb, itemsCells, Modulator.feed_append, mfmCells_length, List.length_map, List.length_range,
          if_pos (show 2 * 8 % 2 = 0 from rfl)]
        cases hst : (m.feed .clock (mfmCells m.prev ((List.range 8).map fun j => b.getLsbD (7 - j)))).stopped with
        | true => rw [Modulator.items_of_stopped _ _ hst, Modulator.feed_of_stopped _ _ _ hst]
        | false =>
          rw [ih, Modulator.prev_feed m _ hst, lastData_mfmCells]
          rfl
      | word w =>
        have hb : m.item (.word w) = m.feed .clock (wordCells w) := by
          simp only [Modulator.item, hs, syncCells_eq]
          rfl
        rw [hb, itemsCells, Modulator.feed_append, wordCells_length, if_pos (by omega)]
        cases hst : (m.feed .clock (wordCells w)).stopped with
        | true => rw [Modulator.items_of_stopped _ _ hst, Modulator.feed_of_stopped _ _ _ hst]
        | false =>
          rw [ih, Modulator.prev_feed m _ hst]
          rfl

/-! ## Padding -/

/-- Padding is modulating gap bytes (45_track_decode_encode.md R245). -/
theorem pad_eq (n : Nat) (m : Modulator) : pad n m = m.items (List.replicate n (.byte gapByte)) := by
  induction n generalizing m with
  | zero => rfl
  | succ n ih =>
    rw [pad]
    cases hs : m.stopped with
    | true => rw [Modulator.items_of_stopped m _ hs]; rfl
    | false =>
      rw [ih, List.replicate_succ]
      simp only [Modulator.items, List.foldl_cons, Modulator.item, hs]
      rfl

theorem itemsCells_append (p : Bool) (is js : List Item) :
    itemsCells p (is ++ js) = itemsCells p is ++ itemsCells (lastData p (itemsCells p is)) js := by
  induction is generalizing p with
  | nil => rfl
  | cons i is ih =>
    have key : ∀ (xs ys : List Bool) (q : Bool), xs.length % 2 = 0 → lastData q (xs ++ ys) = lastData (lastData q xs) ys := by
      intro xs ys q
      induction q, xs using lastData.induct with
      | case1 q c d xs ih => intro h; simp only [List.cons_append, lastData]; exact ih (by simp at h; omega)
      | case2 xs q h =>
        match xs with
        | [] => intro _; rfl
        | [x] => intro h; simp at h
        | c :: d :: xs => exact absurd rfl (h c d xs)
    cases i with
    | byte b =>
      rw [List.cons_append, itemsCells, ih, itemsCells, List.append_assoc, key _ _ _ (by rw [mfmCells_length]; omega),
        lastData_mfmCells]
      rfl
    | word w =>
      rw [List.cons_append, itemsCells, ih, itemsCells, List.append_assoc, key _ _ _ (by rw [wordCells_length])]
      rfl

/-- A gap byte holds a transition, whatever cell went before (45_track_decode_encode.md R245). -/
theorem intervals_gap_pos (run : Nat) (p : Bool) (rest : List Item) :
    (intervals run (itemsCells p (.byte gapByte :: rest))).length ≠ 0 := by
  cases p <;> simp [itemsCells, gapByte, mfmCells, List.range_succ, intervals]

theorem intervals_length_append (run : Nat) (xs ys : List Bool) :
    (intervals run (xs ++ ys)).length = (intervals run xs).length + (intervals (openRun run xs) ys).length := by
  induction xs generalizing run with
  | nil => simp [intervals, openRun]
  | cons x xs ih =>
    cases x
    · simp [intervals, openRun, ih]
    · simp only [List.cons_append, intervals, openRun, List.length_cons, ih]
      omega

/-- Gap bytes hold at least one transition each. -/
theorem intervals_gaps (run : Nat) (p : Bool) (n : Nat) :
    n ≤ (intervals run (itemsCells p (List.replicate n (.byte gapByte)))).length := by
  induction n generalizing run p with
  | zero => omega
  | succ n ih =>
    rw [List.replicate_succ, itemsCells, intervals_length_append]
    have h1 : (intervals run (mfmCells p ((List.range 8).map fun j => gapByte.getLsbD (7 - j)))).length ≠ 0 := by
      have := intervals_gap_pos run p []
      simpa [itemsCells] using this
    have h2 := ih (openRun run (mfmCells p ((List.range 8).map fun j => gapByte.getLsbD (7 - j)))) (gapByte.getLsbD 0)
    omega

/-- The padding always ends (45_track_decode_encode.md R245): more gap bytes than there is room for a byte do not fit. -/
theorem emission_gaps_stopped (packed full : Bool) (t1 room run : Nat) (p : Bool) (is : List Item) (n : Nat) (h : room < n) :
    (emission packed full t1 room run (itemsCells p (is ++ List.replicate n (.byte gapByte)))).stopped = true := by
  rw [emission_stopped_iff, decide_eq_true_eq, itemsCells_append, intervals_length_append]
  have h1 := emission_count_le packed full t1 room run
    (itemsCells p is ++ itemsCells (lastData p (itemsCells p is)) (List.replicate n (.byte gapByte)))
  have h2 := emission_bytes_le packed full t1 room run
    (itemsCells p is ++ itemsCells (lastData p (itemsCells p is)) (List.replicate n (.byte gapByte)))
  have h3 := intervals_gaps (openRun run (itemsCells p is)) (lastData p (itemsCells p is)) n
  omega

end Sys2Proof.Machine
end

