-- ==== Sys2Proof/Laws/Effects.lean ====
section
/-! SUPPORT. The effects of the storing commands in one form each: PACK, MOD and ENCODE write bytes at a place and move WPOS
and PLEN behind them; DEMOD writes REC; DECODE writes slots. -/
namespace Sys2Proof.Machine

/-- A register takes a small number as it is. -/
@[simp] theorem toWord_toNat (n : Nat) (h : n < 2 ^ 32) : (toWord n).toNat = n := by
  rw [toWord, BitVec.toNat_ofNat, Nat.mod_eq_of_lt h]

/-- `pack_into` stays in the room (43_pulse_codec.md R176). -/
theorem packInto_length (full : Bool) (room v : Nat) : (packInto full room v).1.length ≤ room := by
  unfold packInto
  split
  · simp
  · split
    · assumption
    · split
      · simpa using ‹1 ≤ room›
      · simp

/-- What a modulation that began empty leaves (44_line_code.md R205 to R209). -/
theorem modulated_of_fed {m m' : Modulator} {e : Emission} (h : Modulator.Fed m m' .clock e) (hc : m.count = 0)
    (ho : m.outRev = []) (trunc : Bool) (s : State) :
    modulated m' trunc s =
      { s.storeBytes (pulseBase + s.wpos.toNat) e.bytes with
        wpos := toWord (s.wpos.toNat + e.bytes.length)
        plen := toWord (s.wpos.toNat + e.bytes.length)
        status := { s.status with full := m.full || e.stopped, trunc := trunc }
        dstate := { s.dstate with
          encPrev := lastData m.prev e.cells
          encRun := BitVec.ofNat 4 (min (openRun m.run e.cells) 15) }
        result := toWord e.count } := by
  have hout : m'.outRev.reverse = e.bytes := by rw [h.out, ho]; simp
  simp only [modulated, hout, h.full, h.prev, h.run, h.count, hc, lastFrom_clock, Nat.zero_add]
  rfl

/-- What MOD writes (44_line_code.md R209). -/
def modEmission (packed : Bool) (s : State) : Emission :=
  emission packed s.status.full s.t1.toNat (s.outcap.toNat - s.wpos.toNat) s.dstate.encRun.toNat
    (itemsCells s.dstate.encPrev (modItems s.modKind s))

/-- MOD in one form (44_line_code.md R209). -/
theorem modEffect_eq (packed : Bool) (s : State) :
    modEffect packed s =
      { s.storeBytes (pulseBase + s.wpos.toNat) (modEmission packed s).bytes with
        wpos := toWord (s.wpos.toNat + (modEmission packed s).bytes.length)
        plen := toWord (s.wpos.toNat + (modEmission packed s).bytes.length)
        status := { s.status with
          full := s.status.full || (modEmission packed s).stopped
          trunc := (modEmission packed s).stopped }
        dstate := { s.dstate with
          encPrev := lastData s.dstate.encPrev (modEmission packed s).cells
          encRun := BitVec.ofNat 4 (min (openRun s.dstate.encRun.toNat (modEmission packed s).cells) 15) }
        result := toWord (modEmission packed s).count } := by
  have h := Modulator.feed_eq (modStart packed s) .clock
    (itemsCells (modStart packed s).prev (modItems s.modKind s)) rfl
  rw [← Modulator.items_eq] at h
  have hs : ((modStart packed s).items (modItems s.modKind s)).stopped = (modEmission packed s).stopped := h.stopped
  rw [modEffect, hs]
  exact modulated_of_fed h rfl rfl _ s

theorem modEmission_bytes_le (packed : Bool) (s : State) :
    (modEmission packed s).bytes.length ≤ s.outcap.toNat - s.wpos.toNat := emission_bytes_le _ _ _ _ _ _

/-- The layout's emission alone: it is stopped iff TRUNC (45_track_decode_encode.md R246). -/
def layoutEmission (packed : Bool) (s : State) : Emission :=
  emission packed false s.t1.toNat s.outcap.toNat 0 (itemsCells false (layout s s.nsect.toNat))

/-- What ENCODE writes (45_track_decode_encode.md R242, R245). -/
def encodeEmission (packed : Bool) (s : State) : Emission :=
  emission packed false s.t1.toNat s.outcap.toNat 0
    (itemsCells false (layout s s.nsect.toNat ++ List.replicate (s.outcap.toNat + 1) (.byte gapByte)))

theorem replicate_add_items (m n : Nat) (i : Item) :
    List.replicate m i ++ List.replicate n i = List.replicate (m + n) i := by
  rw [List.replicate_append_replicate]

/-- More gap bytes than the room holds stop the modulator, so still more change nothing (45_track_decode_encode.md R245). -/
theorem Modulator.items_gaps (m : Modulator) (n : Nat) (h : m.room < n) :
    m.items (List.replicate n (.byte gapByte)) = m.items (List.replicate (m.room + 1) (.byte gapByte)) := by
  have hst : (m.items (List.replicate (m.room + 1) (.byte gapByte))).stopped = true := by
    cases hs : m.stopped with
    | true => rw [Modulator.items_of_stopped m _ hs, hs]
    | false =>
      rw [Modulator.items_eq, (Modulator.feed_eq m .clock _ hs).stopped]
      exact emission_gaps_stopped m.packed m.full m.t1 m.room m.run m.prev [] (m.room + 1) (by omega)
  obtain ⟨k, rfl⟩ : ∃ k, n = m.room + 1 + k := ⟨n - (m.room + 1), by omega⟩
  rw [← List.replicate_append_replicate, Modulator.items_append, Modulator.items_of_stopped _ _ hst]

/-- ENCODE's modulator is the layout and then the padding, as one sequence of items (45_track_decode_encode.md R245). -/
theorem pad_encodeLayout (packed : Bool) (s : State) :
    pad ((encodeLayout packed s).room + 1) (encodeLayout packed s) =
      (encodeStart packed s).items
        (layout s s.nsect.toNat ++ List.replicate (s.outcap.toNat + 1) (.byte gapByte)) := by
  rw [pad_eq, Modulator.items_append]
  show Modulator.items _ _ = (encodeLayout packed s).items _
  rw [Modulator.items_gaps (encodeLayout packed s) (s.outcap.toNat + 1)]
  have h := Modulator.feed_eq (encodeStart packed s) .clock
    (itemsCells (encodeStart packed s).prev (layout s s.nsect.toNat)) rfl
  rw [← Modulator.items_eq] at h
  have hr : (encodeLayout packed s).room = s.outcap.toNat - _ := h.room
  omega

/-- ENCODE in one form (45_track_decode_encode.md R242, R245 to R247). -/
theorem encodeEffect_eq (packed : Bool) (s : State) :
    encodeEffect packed s =
      { s.storeBytes pulseBase (encodeEmission packed s).bytes with
        wpos := toWord (encodeEmission packed s).bytes.length
        plen := toWord (encodeEmission packed s).bytes.length
        status := { s.status with
          full := (encodeEmission packed s).stopped
          trunc := (layoutEmission packed s).stopped }
        dstate := { s.dstate with
          encPrev := lastData false (encodeEmission packed s).cells
          encRun := BitVec.ofNat 4 (min (openRun 0 (encodeEmission packed s).cells) 15) }
        result := toWord (encodeEmission packed s).count } := by
  have hl := Modulator.feed_eq (encodeStart packed s) .clock
    (itemsCells (encodeStart packed s).prev (layout s s.nsect.toNat)) rfl
  rw [← Modulator.items_eq] at hl
  have ht : (encodeLayout packed s).stopped = (layoutEmission packed s).stopped := hl.stopped
  have h := Modulator.feed_eq (encodeStart packed s) .clock
    (itemsCells (encodeStart packed s).prev
      (layout s s.nsect.toNat ++ List.replicate (s.outcap.toNat + 1) (.byte gapByte))) rfl
  rw [← Modulator.items_eq, ← pad_encodeLayout] at h
  have hm := modulated_of_fed h rfl rfl (layoutEmission packed s).stopped { s with wpos := 0#32 }
  show modulated (pad ((encodeLayout packed s).room + 1) (encodeLayout packed s)) (encodeLayout packed s).stopped _ = _
  rw [ht, hm]
  simp only [BitVec.toNat_ofNat, Nat.zero_mod, Nat.add_zero, Nat.zero_add]
  rfl

theorem encodeEmission_stopped (packed : Bool) (s : State) : (encodeEmission packed s).stopped = true :=
  emission_gaps_stopped packed false s.t1.toNat s.outcap.toNat 0 false _ _ (by omega)

theorem encodeEmission_bytes_le (packed : Bool) (s : State) : (encodeEmission packed s).bytes.length ≤ s.outcap.toNat :=
  emission_bytes_le _ _ _ _ _ _

/-- PACK in one form (43_pulse_codec.md R177). -/
theorem packEffect_eq (s : State) :
    packEffect s =
      { s.storeBytes (pulseBase + s.wpos.toNat)
          (packInto s.status.full (s.outcap.toNat - s.wpos.toNat) s.arg0.toNat).1 with
        wpos := toWord (s.wpos.toNat + (packInto s.status.full (s.outcap.toNat - s.wpos.toNat) s.arg0.toNat).1.length)
        plen := toWord (s.wpos.toNat + (packInto s.status.full (s.outcap.toNat - s.wpos.toNat) s.arg0.toNat).1.length)
        status := { s.status with full := (packInto s.status.full (s.outcap.toNat - s.wpos.toNat) s.arg0.toNat).2 }
        result := toWord (packInto s.status.full (s.outcap.toNat - s.wpos.toNat) s.arg0.toNat).1.length } := by
  unfold packEffect
  generalize packInto s.status.full (s.outcap.toNat - s.wpos.toNat) s.arg0.toNat = p
  obtain ⟨bytes, full⟩ := p
  rfl

/-! ## DECODE's memory -/

/-- What every pass of DECODE keeps of memory and VALID: slots that were valid, and everything outside the slots of sectors
1..n, read as at the start (45_track_decode_encode.md R237, R240). -/
structure Decoder.Keeps (s : State) (valid0 : Word) (n : Nat) (d : Decoder) : Prop where
  mono : ∀ i, validBit valid0 i = true → validBit d.valid i = true
  within : ∀ i, n ≤ i → validBit valid0 i = false → validBit d.valid i = false
  wf : s.mem.wf → d.mem.wf
  mapped : ∀ c ∈ d.mem, c ∈ s.mem ∨ (trackBase ≤ c.1 ∧ c.1 < trackBase + n * s.cfg.sectorBytes)
  outside : ∀ a, a < trackBase ∨ trackBase + n * s.cfg.sectorBytes ≤ a → d.mem.byte? a = s.mem.byte? a
  slots : ∀ i, i < 32 → validBit d.valid i = validBit valid0 i →
    ∀ k, k < s.cfg.sectorBytes → d.mem.byte? (slotAddr s.cfg i + k) = s.mem.byte? (slotAddr s.cfg i + k)

theorem slot_within {cfg : Config} {n r k : Nat} (hr : r < n) (hk : k ≤ cfg.sectorBytes) :
    slotAddr cfg r + k ≤ trackBase + n * cfg.sectorBytes := by
  have : (r + 1) * cfg.sectorBytes ≤ n * cfg.sectorBytes := Nat.mul_le_mul_right _ hr
  rw [Nat.add_mul, Nat.one_mul] at this
  unfold slotAddr
  omega

theorem slot_disjoint {cfg : Config} {r i k : Nat} (h : r ≠ i) (hk : k < cfg.sectorBytes) :
    slotAddr cfg i + k < slotAddr cfg r ∨ slotAddr cfg r + cfg.sectorBytes ≤ slotAddr cfg i + k := by
  unfold slotAddr
  rcases Nat.lt_or_gt_of_ne h with h | h
  · right
    have := Nat.mul_le_mul_right cfg.sectorBytes (show r + 1 ≤ i from h)
    rw [Nat.add_mul, Nat.one_mul] at this
    omega
  · left
    have := Nat.mul_le_mul_right cfg.sectorBytes (show i + 1 ≤ r from h)
    rw [Nat.add_mul, Nat.one_mul] at this
    omega

theorem Decoder.Keeps.start (f : Flags) (s : State) (n : Nat) :
    Decoder.Keeps s (decodeStart f s).valid n (decodeStart f s) where
  mono := fun _ h => h
  within := fun _ _ h => h
  wf := fun h => h
  mapped := fun _ h => .inl h
  outside := fun _ _ => rfl
  slots := fun _ _ _ _ _ => rfl

/-- A pass keeps them. -/
theorem Decoder.Keeps.pass {s : State} {packed : Bool} {valid0 : Word} {n : Nat} {d d' : Decoder} {go : Bool}
    (h : Decoder.Keeps s valid0 n d) (hp : Decoder.Passed s packed n d go d') : Decoder.Keeps s valid0 n d' := by
  have same : d'.valid = d.valid → d'.mem = d.mem → Decoder.Keeps s valid0 n d' := fun hv hm =>
    { mono := by rw [hv]; exact h.mono
      within := by rw [hv]; exact h.within
      wf := by rw [hm]; exact h.wf
      mapped := by rw [hm]; exact h.mapped
      outside := by rw [hm]; exact h.outside
      slots := by rw [hv, hm]; exact h.slots }
  rcases hp.effect with ⟨_, _, hv, hm⟩ | ⟨hdr, c1, hsaw⟩
  · exact same hv hm
  · rcases hsaw.slots with ⟨hv, hm⟩ | ⟨hfu, rec, c2, _, _, hlen, hv, hm⟩
    · exact same hv hm
    · obtain ⟨f1, f2, f3, _⟩ := followUp_spec hfu
      generalize (recByte hdr 3).toNat = r at f1 f2 f3 hv hm
      have hbl : ((rec.drop 1).take s.cfg.sectorBytes).length = s.cfg.sectorBytes := by
        rw [List.length_take, List.length_drop, hlen]
        omega
      have hin := slot_within (cfg := s.cfg) (show r - 1 < n by omega) (Nat.le_refl _)
      exact
        { mono := fun i hi => by rw [hv]; exact validBit_setValid_mono _ _ _ (h.mono i hi)
          within := fun i hi h0 => by
            have hd := h.within i hi h0
            rw [hv]
            cases hx : validBit (setValid d.valid (r - 1)) i with
            | false => rfl
            | true =>
              have := eq_of_validBit_setValid _ _ _ hx hd
              omega
          wf := fun hw => by rw [hm]; exact Memory.store_wf _ _ _ (h.wf hw)
          mapped := fun c hc => by
            rw [hm] at hc
            rcases Memory.mem_store _ _ _ c hc with hc | hc
            · exact h.mapped c hc
            · rw [hbl] at hc
              refine .inr ⟨?_, by omega⟩
              have : trackBase ≤ slotAddr s.cfg (r - 1) := Nat.le_add_right _ _
              omega
          outside := fun a ha => by
            rw [hm, Memory.byte?_store, hbl, if_neg, h.outside a ha]
            have : trackBase ≤ slotAddr s.cfg (r - 1) := Nat.le_add_right _ _
            omega
          slots := fun i h32 hi k hk => by
            rw [hv, validBit_setValid _ _ _ h32] at hi
            have hne : i ≠ r - 1 := by
              rintro rfl
              have h0 : validBit valid0 (r - 1) = false := by
                cases hx : validBit valid0 (r - 1) with
                | false => rfl
                | true => rw [h.mono _ hx] at f3; cases f3
              rw [h0] at hi
              simp at hi
            have hd : validBit d.valid i = validBit valid0 i := by simpa [hne] using hi
            rw [hm, Memory.byte?_store, hbl, if_neg, h.slots i h32 hd k hk]
            have := slot_disjoint (cfg := s.cfg) (Ne.symm hne) hk
            omega }

/-- What DECODE keeps (45_track_decode_encode.md R237, R240). -/
theorem decodeEnd_keeps (f : Flags) (s : State) :
    Decoder.Keeps s (decodeStart f s).valid s.nsect.toNat (decodeEnd f s) :=
  decodeEnd_induct f s _ (Decoder.Keeps.start f s _) (fun _ _ _ _ h hp => h.pass hp)

end Sys2Proof.Machine
end

