-- ==== Sys2Proof/Laws/Frame.lean ====
section
/-! SUPPORT. What the effect of an instruction can do to each part of the state, said once for all instructions; the frames
and the invariant rest on these. -/
namespace Sys2Proof.Machine

/-- The BAD_CONFIG column and the check the model makes (60_exceptions.md R335). -/
theorem badConfig_iff (i : Instr) (s : State) : badConfig i s ↔ configOk i s = false := by
  cases i <;> simp only [badConfig, configOk, badStream, badSectors, badCell, State.streamOk, State.outputOk, State.sectorsOk,
    State.cellLengthOk, Bool.and_eq_false_iff, decide_eq_false_iff_not, Bool.true_eq_false, Bool.or_eq_false_iff]
  all_goals first
    | omega
    | (rename_i f; cases f.packed <;> simp <;> omega)

/-- The BAD_ARG column and the check the model makes (60_exceptions.md R335). -/
theorem badArg_iff (i : Instr) (s : State) : badArg i s ↔ argOk i s = false := by
  have h0 : s.arg0.toNat = 0 ↔ s.arg0 = 0#32 :=
    ⟨fun h => BitVec.eq_of_toNat_eq (by simpa using h), fun h => by rw [h]; rfl⟩
  cases i <;> simp only [badArg, argOk, State.recordCountOk, State.modKind, Bool.and_eq_false_iff, decide_eq_false_iff_not,
    Bool.true_eq_false, ne_eq, not_not, ← h0]
  all_goals first
    | omega
    | (by_cases h3 : s.arg1.toNat % 4 = 3 <;> simp [h3])

/-- No effect touches ERR, ERRCODE or BUSYERR (10_state.md R24). -/
theorem effectOf_status (i : Instr) (s : State) :
    (effectOf i s).status.err = s.status.err ∧ (effectOf i s).status.errcode = s.status.errcode ∧
      (effectOf i s).status.busyerr = s.status.busyerr := by
  cases i
  case pack f => rw [effectOf, packEffect_eq]; exact ⟨rfl, rfl, rfl⟩
  case mod f => rw [effectOf, modEffect_eq]; exact ⟨rfl, rfl, rfl⟩
  case encode f => rw [effectOf, encodeEffect_eq]; exact ⟨rfl, rfl, rfl⟩
  all_goals first
    | exact ⟨rfl, rfl, rfl⟩
    | (simp only [effectOf, unpackResult]; split <;> exact ⟨rfl, rfl, rfl⟩)

/-- No effect touches what no command writes (30_encoding.md R92). -/
theorem effectOf_setup (i : Instr) (s : State) : SameSetup s (effectOf i s) := by
  cases i
  case pack f => simp only [effectOf, packEffect_eq]; constructor <;> rfl
  case mod f => simp only [effectOf, modEffect_eq]; constructor <;> rfl
  case encode f => simp only [effectOf, encodeEffect_eq]; constructor <;> rfl
  all_goals first
    | (constructor <;> rfl)
    | (simp only [effectOf, unpackResult]; split <;> constructor <;> rfl)

/-- No effect touches TAGV or TAG (10_state.md R41). -/
theorem effectOf_cache (i : Instr) (s : State) :
    (effectOf i s).cache.tagv = s.cache.tagv ∧ (effectOf i s).cache.tag = s.cache.tag := by
  cases i
  case pack f => simp only [effectOf, packEffect_eq]; constructor <;> rfl
  case mod f => simp only [effectOf, modEffect_eq]; constructor <;> rfl
  case encode f => simp only [effectOf, encodeEffect_eq]; constructor <;> rfl
  all_goals first
    | (constructor <;> rfl)
    | (simp only [effectOf, unpackResult]; split <;> constructor <;> rfl)

/-- All an effect can do to VALID (10_state.md R40, 46_track_buffer_system.md R276). -/
theorem effectOf_valid (i : Instr) (s : State) :
    (effectOf i s).valid = s.valid ∨ (∃ f, i = .decode f ∧ (effectOf i s).valid = (decodeEnd f s).valid) ∨
      (∃ f, i = .clrvalid f ∧ (effectOf i s).valid = 0#32) ∨
      ∃ f, i = .markwr f ∧ (effectOf i s).valid = setValid s.valid s.arg0.toNat := by
  cases i
  case pack f => simp only [effectOf, packEffect_eq]; exact .inl rfl
  case mod f => simp only [effectOf, modEffect_eq]; exact .inl rfl
  case encode f => simp only [effectOf, encodeEffect_eq]; exact .inl rfl
  case decode f => exact .inr (.inl ⟨f, rfl, rfl⟩)
  case clrvalid f => exact .inr (.inr (.inl ⟨f, rfl, rfl⟩))
  case markwr f => exact .inr (.inr (.inr ⟨f, rfl, rfl⟩))
  all_goals left; first | rfl | (simp only [effectOf, unpackResult]; split <;> rfl)

/-- All an effect can do to memory: nothing, or one store within the bounds its checks establish, or DECODE's slots
(20_memory.md R71). -/
theorem effectOf_mem (i : Instr) (s : State) (hc : configOk i s = true) (ha : argOk i s = true) :
    (effectOf i s).mem = s.mem ∨
    (∃ f bs, i = .demod f ∧ bs.length = s.arg0.toNat ∧ s.arg0.toNat ≤ s.cfg.recCap ∧
      (effectOf i s).mem = s.mem.store recBase bs) ∨
    (∃ bs, ((∃ f, i = .pack f) ∨ (∃ f, i = .mod f)) ∧ s.wpos.toNat + bs.length ≤ s.outcap.toNat ∧
      s.outcap.toNat ≤ s.cfg.pulseCap ∧ (effectOf i s).mem = s.mem.store (pulseBase + s.wpos.toNat) bs) ∨
    (∃ f bs, i = .encode f ∧ bs.length ≤ s.outcap.toNat ∧ s.outcap.toNat ≤ s.cfg.pulseCap ∧
      (effectOf i s).mem = s.mem.store pulseBase bs) ∨
    (∃ f, i = .decode f ∧ s.nsect.toNat ≤ s.cfg.maxSectors ∧ (effectOf i s).mem = (decodeEnd f s).mem) := by
  cases i
  case demod f =>
    simp only [argOk, State.recordCountOk, Bool.and_eq_true, decide_eq_true_eq] at ha
    exact .inr (.inl ⟨f, _, rfl, Reader.demod_length _ _ _ _ _, ha.2, rfl⟩)
  case pack f =>
    simp only [configOk, State.outputOk, Bool.and_eq_true, decide_eq_true_eq] at hc
    refine .inr (.inr (.inl ⟨_, .inl ⟨f, rfl⟩, ?_, hc.2, by simp only [effectOf, packEffect_eq]; rfl⟩))
    have := packInto_length s.status.full (s.outcap.toNat - s.wpos.toNat) s.arg0.toNat
    omega
  case mod f =>
    simp only [configOk, State.outputOk, Bool.and_eq_true, decide_eq_true_eq] at hc
    refine .inr (.inr (.inl ⟨_, .inr ⟨f, rfl⟩, ?_, hc.1.2, by simp only [effectOf, modEffect_eq]; rfl⟩))
    have := modEmission_bytes_le f.packed s
    omega
  case encode f =>
    simp only [configOk, Bool.and_eq_true, decide_eq_true_eq] at hc
    refine .inr (.inr (.inr (.inl ⟨f, _, rfl, ?_, hc.1.2, by simp only [effectOf, encodeEffect_eq]; rfl⟩)))
    exact encodeEmission_bytes_le f.packed s
  case decode f =>
    simp only [configOk, State.sectorsOk, Bool.and_eq_true, decide_eq_true_eq] at hc
    exact .inr (.inr (.inr (.inr ⟨f, rfl, hc.1.2, rfl⟩)))
  all_goals left; first | rfl | (simp only [effectOf, unpackResult]; split <;> rfl)

/-- An effect keeps memory in its canonical form. -/
theorem effectOf_wf (i : Instr) (s : State) (hc : configOk i s = true) (ha : argOk i s = true)
    (hm : s.mem.wf) : (effectOf i s).mem.wf := by
  rcases effectOf_mem i s hc ha with h | ⟨f, bs, _, h1, h2, h⟩ | ⟨bs, _, h1, h2, h⟩ | ⟨f, bs, _, h1, h2, h⟩ |
      ⟨f, _, h1, h⟩ <;> rw [h]
  · exact hm
  · exact Memory.store_wf _ _ _ hm
  · exact Memory.store_wf _ _ _ hm
  · exact Memory.store_wf _ _ _ hm
  · exact (decodeEnd_keeps f s).wf hm

/-- An effect lists only bytes of the memories (20_memory.md R71). -/
theorem effectOf_mapped (i : Instr) (s : State) (hl : s.cfg.legal) (hc : configOk i s = true) (ha : argOk i s = true)
    (hm : ∀ c ∈ s.mem, memoryAddr s.cfg c.1) : ∀ c ∈ (effectOf i s).mem, memoryAddr s.cfg c.1 := by
  intro c hcm
  rcases effectOf_mem i s hc ha with h | ⟨f, bs, _, h1, h2, h⟩ | ⟨bs, _, h1, h2, h⟩ | ⟨f, bs, _, h1, h2, h⟩ |
      ⟨f, _, h1, h⟩ <;> rw [h] at hcm
  · exact hm c hcm
  · rcases Memory.mem_store _ _ _ c hcm with hcm | hcm
    · exact hm c hcm
    · exact .inl (regionOf_rec hcm.1 (by omega))
  · rcases Memory.mem_store _ _ _ c hcm with hcm | hcm
    · exact hm c hcm
    · exact .inr (.inr (regionOf_pulse hl (by omega) (by omega)))
  · rcases Memory.mem_store _ _ _ c hcm with hcm | hcm
    · exact hm c hcm
    · exact .inr (.inr (regionOf_pulse hl (by omega) (by omega)))
  · rcases (decodeEnd_keeps f s).mapped c hcm with hcm | hcm
    · exact hm c hcm
    · have : s.nsect.toNat * s.cfg.sectorBytes ≤ s.cfg.trackBytes := Nat.mul_le_mul_right _ h1
      exact .inr (.inl (regionOf_track hl hcm.1 (by omega)))

end Sys2Proof.Machine
end

