-- ==== Sys2Proof/Laws/Step.lean ====
section
/-! SUPPORT. What a step can do, said once: it performs the pending command, or the host makes one access, or the platform
resets, or nothing but the turn passes. -/
namespace Sys2Proof.Machine

/-- All PERFORM can do when it answers a next state (20_memory.md R64, 60_exceptions.md R336). -/
theorem perform_next {s t : State} (h : perform s = .next t) :
    (∃ e, decodeCommand s.cmd = .error e ∧ t = s.cmdError .illegalCmd) ∨
      ∃ i, decodeCommand s.cmd = .ok i ∧ isFmFraming i = false ∧
        ((configOk i s = true ∧ argOk i s = true ∧ t = (effectOf i s).complete) ∨
          (configOk i s = true ∧ argOk i s = false ∧ t = s.cmdError .badArg) ∨
          (configOk i s = false ∧ t = s.cmdError .badConfig)) := by
  unfold perform at h
  split at h
  · rename_i i hi
    exact .inr ⟨i, hi, exec_next h⟩
  · rename_i e he
    exact .inl ⟨e, he, by simpa using h.symm⟩

/-- All a step can do when it answers a next state. -/
theorem step_next {s t : State} (h : step s = .next t) :
    (∃ ts, s.phase = .pending ∧ blockMoves s ∧ perform { s with turns := ts } = .next t) ∨
    (∃ op ts, s.hostFault = none ∧ t = State.hostAccess { s with turns := ts } op ∧
      (s.turns = .host op :: ts ∨ (s.turns = .poll :: ts ∧ op = .read Reg.status.addr .word))) ∨
    (∃ ts, s.turns = .reset :: ts ∧ t = { s.applyReset with turns := ts }) ∨
    (∃ ts, t = { s with turns := ts }) := by
  unfold step at h
  split at h
  · rename_i ht
    unfold lastTurn at h
    split at h
    · exact .inl ⟨s.turns, ‹_›, .inl ht, h⟩
    · split at h
      · exact .inr (.inr (.inr ⟨s.turns, by simpa using h.symm⟩))
      · cases h
  · rename_i ts ht
    unfold blockTurn at h
    split at h
    · exact .inl ⟨ts, ‹_›, .inr ⟨ts, .inl ht⟩, h⟩
    · exact .inr (.inr (.inr ⟨ts, by simpa using h.symm⟩))
  · rename_i op ts ht
    simp only [Host.Outcome.next.injEq, hostTurn] at h
    split at h
    · exact .inr (.inl ⟨op, ts, ‹_›, h.symm, .inl ht⟩)
    · exact .inr (.inr (.inr ⟨ts, h.symm⟩))
  · rename_i ts ht
    unfold pollTurn at h
    split at h
    · exact .inl ⟨s.turns, ‹_›, .inr ⟨ts, .inr ht⟩, h⟩
    · simp only [Host.Outcome.next.injEq, hostTurn] at h
      split at h
      · exact .inr (.inl ⟨_, ts, ‹_›, h.symm, .inr ⟨ht, rfl⟩⟩)
      · exact .inr (.inr (.inr ⟨ts, h.symm⟩))
  · rename_i ts ht
    exact .inr (.inr (.inl ⟨ts, ht, by simpa using h.symm⟩))

end Sys2Proof.Machine
end

