-- ==== Sys2Proof/Laws/Marks.lean ====
section
/-! SUPPORT. Symbols, the sync register and where a sync search stops. -/

namespace Sys2Proof.Machine

/-- The stream ahead is made of these intervals, in cells of T1 samples. -/
def Reads (r : Reader) (t1 : Nat) (ks : List Nat) : Prop := r.pairs.map Prod.fst = ks.map (· * t1)

theorem Reads.skip {r : Reader} {t1 : Nat} {ks : List Nat} (h : Reads r t1 ks) (m : Nat) : Reads (r.skip m) t1
    (ks.drop m) := by
  unfold Reads at *
  have : (r.skip m).pairs = r.pairs.drop m := by simp [Reader.skip, Reader.pairs]
  rw [this, List.map_drop, h, List.map_drop]

theorem Reads.length {r : Reader} {t1 : Nat} {ks : List Nat} (h : Reads r t1 ks) : r.elems.length = ks.length := by
  have := congrArg List.length h
  simpa [Reader.pairs] using this

/-- Thresholds that separate intervals of 2, 3 and 4 cells (44_line_code.md R211). -/
structure Thr (t1 t2 t3 : Nat) : Prop where
  a : 2 * t1 ≤ t2
  b : t2 < 3 * t1
  c : 3 * t1 ≤ t3
  d : t3 < 4 * t1

/-- With separating thresholds the symbol of k cells is k - 2. -/
theorem symbolCode_mul {t1 t2 t3 : Nat} (h : Thr t1 t2 t3) (k : Nat) (h1 : 1 ≤ k) (h4 : k ≤ 4) : symbolCode t2 t3 (k * t1)
    = k - 2 := by
  obtain ⟨a, b, c, d⟩ := h
  unfold symbolCode
  interval_cases k
  · rw [if_pos (by omega)]
  · rw [if_pos (by omega)]
  · rw [if_neg (by omega), if_pos (by omega)]
  · rw [if_neg (by omega), if_neg (by omega)]

theorem symbolCodes_map (t1 t2 t3 : Nat) (hT : Thr t1 t2 t3) (ps : List (Nat × Nat)) (ks : List Nat) (h : ps.map Prod.fst = ks.map (· * t1))
    (m : Nat) (hm : m ≤ ks.length)
    (hk : ∀ k ∈ ks.take m, 1 ≤ k ∧ k ≤ 4) : symbolCodes t2 t3 ps m = (ks.take m).map (· - 2) := by
  induction m generalizing ps ks with
  | zero => simp
  | succ m ih =>
    cases ks with
    | nil => simp at hm
    | cons k ks =>
      cases ps with
      | nil => simp at h
      | cons p ps =>
        obtain ⟨d, c⟩ := p
        simp only [List.map_cons, List.cons.injEq] at h
        obtain ⟨rfl, h⟩ := h
        have h1 := hk k (by simp)
        rw [symbolCodes, symbolCode_mul hT k h1.1 h1.2, List.take_succ_cons, List.map_cons]
        rw [ih ps ks h (by simpa using hm) (fun x hx => hk x (by simp [hx]))]

/-! ## register -/

/-- The symbols of a sequence as one base-4 number. -/
def horner : Nat → List Nat → Nat := fun r codes => codes.foldl (fun a k => a * 4 + k) r

theorem shiftedFrom_toNat (codes : List Nat) (reg : BitVec 28) : (shiftedFrom reg codes).toNat = horner reg.toNat
    codes % 2 ^ 28 := by
  induction codes generalizing reg with
  | nil => simp [shiftedFrom, horner, Nat.mod_eq_of_lt reg.isLt]
  | cons k codes ih =>
    have h1 : shiftedFrom reg (k :: codes) = shiftedFrom (BitVec.ofNat 28 (reg.toNat * 4 + k)) codes := rfl
    rw [h1, ih]
    have h2 : horner reg.toNat (k :: codes) = horner (reg.toNat * 4 + k) codes := rfl
    rw [h2]
    have key : ∀ (codes : List Nat) (a b : Nat), a % 2 ^ 28 = b % 2 ^ 28 → horner a codes % 2 ^ 28 = horner b codes % 2 ^ 28 := by
      intro codes
      induction codes with
      | nil => intro a b h; exact h
      | cons c cs ih =>
        intro a b h
        show horner (a * 4 + c) cs % 2 ^ 28 = horner (b * 4 + c) cs % 2 ^ 28
        exact ih _ _ (by omega)
    exact key codes _ _ (by simp only [BitVec.toNat_ofNat]; omega)

theorem shiftedIn_append' (x y : List Nat) : shiftedIn (x ++ y) = shiftedFrom (shiftedFrom 0#28 x) y := by
  simp only [shiftedIn, shiftedFrom, List.foldl_append]

theorem horner_eq (codes : List Nat) (r : Nat) : horner r codes = r * 4 ^ codes.length + horner 0 codes := by
  induction codes generalizing r with
  | nil => simp [horner]
  | cons k codes ih =>
    have h2 : ∀ r, horner r (k :: codes) = horner (r * 4 + k) codes := fun _ => rfl
    rw [h2, h2, ih (r * 4 + k), ih (0 * 4 + k), List.length_cons, Nat.pow_succ]
    ring

theorem horner_lt (codes : List Nat) (h : ∀ k ∈ codes, k < 4) : horner 0 codes < 4 ^ codes.length := by
  induction codes with
  | nil => simp [horner]
  | cons k codes ih =>
    have h2 : horner 0 (k :: codes) = horner (0 * 4 + k) codes := rfl
    rw [h2, horner_eq, List.length_cons, Nat.pow_succ]
    have := ih (fun x hx => h x (by simp [hx]))
    have hk := h k (by simp)
    have : (0 * 4 + k) * 4 ^ codes.length ≤ 3 * 4 ^ codes.length := Nat.mul_le_mul_right _ (by omega)
    omega

theorem horner_inj (a b : List Nat) (hl : a.length = b.length) (ha : ∀ k ∈ a, k < 4) (hb : ∀ k ∈ b, k < 4) (h : horner 0 a = horner 0 b)
    : a = b := by
  induction a generalizing b with
  | nil => cases b with
    | nil => rfl
    | cons _ _ => simp at hl
  | cons x a ih =>
    cases b with
    | nil => simp at hl
    | cons y b =>
      have h2 : ∀ k (l : List Nat), horner 0 (k :: l) = horner (0 * 4 + k) l := fun _ _ => rfl
      rw [h2, h2, horner_eq a, horner_eq b] at h
      have la := horner_lt a (fun k hk => ha k (by simp [hk]))
      have lb := horner_lt b (fun k hk => hb k (by simp [hk]))
      have hl' : a.length = b.length := by simpa using hl
      rw [hl'] at h la
      have hpos : 0 < 4 ^ b.length := Nat.pow_pos (by decide)
      have hxy : x = y := by
        have e1 : (x * 4 ^ b.length + horner 0 a) / 4 ^ b.length = x := by
          rw [Nat.mul_comm, Nat.mul_add_div hpos, Nat.div_eq_of_lt la]; rfl
        have e2 : (y * 4 ^ b.length + horner 0 b) / 4 ^ b.length = y := by
          rw [Nat.mul_comm, Nat.mul_add_div hpos, Nat.div_eq_of_lt lb]; rfl
        simp only [Nat.zero_mul, Nat.zero_add] at h
        rw [h] at e1; omega
      subst hxy
      rw [ih b hl' (fun k hk => ha k (by simp [hk])) (fun k hk => hb k (by simp [hk])) (by omega)]

/-- The 14 symbols of the sync mark (41_classifier_sync.md R128). -/
def magicCodes : List Nat := [2, 1, 2, 1, 0, 2, 1, 2, 1, 0, 2, 1, 2, 1]

/-- The intervals of the sync mark, in cells (41_classifier_sync.md R128). -/
def magicIntervals : List Nat := [4, 3, 4, 3, 2, 4, 3, 4, 3, 2, 4, 3, 4, 3]

/-- Whatever was shifted in before, the mark leaves the magic value. -/
theorem shiftedIn_append_magic (a : List Nat) : shiftedIn (a ++ magicCodes) = magicMfm := by
  apply BitVec.eq_of_toNat_eq
  have : shiftedIn (a ++ magicCodes) = shiftedFrom (shiftedFrom 0#28 a) magicCodes := by
    simp [shiftedIn, shiftedFrom, List.foldl_append]
  rw [this, shiftedFrom_toNat, horner_eq]
  have h1 : 4 ^ magicCodes.length = 2 ^ 28 := by decide
  have h2 : horner 0 magicCodes = magicMfm.toNat := by decide
  rw [h1, h2, Nat.mul_add_mod_self_right]
  exact Nat.mod_eq_of_lt magicMfm.isLt

/-- The magic value appears only behind the 14 symbols of the mark. -/
theorem magic_suffix (codes : List Nat) (hc : ∀ k ∈ codes, k < 4) (h14 : 14 ≤ codes.length) (h : shiftedIn codes = magicMfm)
    :
    codes.drop (codes.length - 14) = magicCodes := by
  have e : codes = codes.take (codes.length - 14) ++ codes.drop (codes.length - 14) := (List.take_append_drop _ _).symm
  have hl : (codes.drop (codes.length - 14)).length = 14 := by simp; omega
  rw [e] at h
  rw [shiftedIn_append'] at h
  have h3 := congrArg BitVec.toNat h
  rw [shiftedFrom_toNat, horner_eq, hl, show (4 ^ 14 : Nat) = 2 ^ 28 by decide, Nat.mul_add_mod_self_right] at h3
  have hlt := horner_lt (codes.drop (codes.length - 14)) (fun k hk => hc k (List.mem_of_mem_drop hk))
  rw [hl, show (4 ^ 14 : Nat) = 2 ^ 28 by decide] at hlt
  rw [Nat.mod_eq_of_lt hlt] at h3
  exact horner_inj _ _ (by rw [hl]; rfl) (fun k hk => hc k (List.mem_of_mem_drop hk)) (by decide) (h3.trans (by decide))

/-! ## kmp -/

/-- How much of 2, 1, 2, 1 the symbols read so far end in; 4 is absorbing. -/
def kmp (h c : Nat) : Nat :=
  if h = 4 ∨ 3 ≤ c then 4
  else if h = 0 then (if c = 2 then 1 else 0)
  else if h = 1 then (if c = 1 then 2 else if c = 2 then 1 else 0)
  else if h = 2 then (if c = 2 then 3 else 0)
  else (if c = 1 then 4 else if c = 2 then 1 else 0)

theorem kmp_le (h c : Nat) (hh : h ≤ 4) : kmp h c ≤ 4 := by
  unfold kmp; split_ifs <;> omega

theorem kmp_fold_le (l : List Nat) (h : Nat) (hh : h ≤ 4) : l.foldl kmp h ≤ 4 := by
  induction l generalizing h with
  | nil => exact hh
  | cons c l ih => exact ih _ (kmp_le _ _ hh)

theorem kmp_four (l : List Nat) : l.foldl kmp 4 = 4 := by
  induction l with
  | nil => rfl
  | cons c l ih => simp only [List.foldl_cons]; rw [show kmp 4 c = 4 by simp [kmp], ih]

theorem kmp_2121 (h : Nat) (hh : h ≤ 4) : [2, 1, 2, 1].foldl kmp h = 4 := by interval_cases h <;> decide

theorem kmp_21 (h : Nat) (hh : h ≤ 4) : 2 ≤ [2, 1].foldl kmp h := by interval_cases h <;> decide

theorem kmp_lt3 (l : List Nat) (h : Nat) (hf : l.foldl kmp h ≠ 4) : ∀ c ∈ l, c < 3 := by
  induction l generalizing h with
  | nil => simp
  | cons c l ih =>
    intro x hx
    rcases List.mem_cons.1 hx with rfl | hx
    · by_contra hge
      apply hf
      simp only [List.foldl_cons]
      rw [show kmp h x = 4 by unfold kmp; rw [if_pos (by omega)], kmp_four]
    · exact ih _ hf x hx

/-- suffix is clean too -/
theorem kmp_suffix (l : List Nat) (h : Nat) (hh : h ≤ 4) (hf : l.foldl kmp h ≤ 1) : l.foldl kmp 0 ≤ 1 := by
  have key : ∀ (l : List Nat) (h g : Nat), h ≤ 4 → (g = 0 ∨ g = h ∨ (h = 3 ∧ g = 1)) → l.foldl kmp h ≤ 1 → l.foldl kmp g ≤ 1 := by
    intro l
    induction l with
    | nil => intro h g hh hg hf; simp only [List.foldl_nil] at *; omega
    | cons c l ih =>
      intro h g hh hg hf
      simp only [List.foldl_cons] at *
      refine ih (kmp h c) (kmp g c) (kmp_le _ _ hh) ?_ hf
      by_cases hc : 3 ≤ c
      · right; left; simp [kmp, hc]
      · have h4 : h ≠ 4 := by
          rintro rfl
          rw [show kmp 4 c = 4 by simp [kmp], kmp_four] at hf; omega
        have hn : kmp h c ≠ 4 := by
          intro h'; rw [h', kmp_four] at hf; omega
        have : h = 0 ∨ h = 1 ∨ h = 2 ∨ h = 3 := by omega
        have hc' : c = 0 ∨ c = 1 ∨ c = 2 := by omega
        rcases hg with rfl | rfl | ⟨rfl, rfl⟩
        · rcases this with rfl | rfl | rfl | rfl <;> rcases hc' with rfl | rfl | rfl <;> revert hn <;> decide
        · exact .inr (.inl rfl)
        · rcases hc' with rfl | rfl | rfl <;> revert hn <;> decide
  exact key l h 0 hh (.inl rfl) hf

/-- The symbol ordinals of intervals in cells. -/
def codesOf (ks : List Nat) : List Nat := ks.map (· - 2)

/-- No mark begins among these intervals. -/
def Clean (ks : List Nat) : Prop := (codesOf ks).foldl kmp 0 ≤ 1

theorem Clean.drop {ks : List Nat} (h : Clean ks) (m : Nat) : Clean (ks.drop m) := by
  unfold Clean codesOf at *
  have e : ks = ks.take m ++ ks.drop m := (List.take_append_drop _ _).symm
  rw [e, List.map_append, List.foldl_append] at h
  exact kmp_suffix _ _ (kmp_fold_le _ _ (by omega)) h

theorem Clean.le {ks : List Nat} (h : Clean ks) : ∀ k ∈ ks, k ≤ 4 := by
  intro k hk
  have := kmp_lt3 (codesOf ks) 0 (by unfold Clean at h; omega) (k - 2) (List.mem_map_of_mem hk)
  omega

/-- In clean intervals followed by the mark, the mark is not seen before its end. -/
theorem no_early {ks : List Nat} (h : Clean ks) (k : Nat) (hk : k < ks.length + 14) :
    shiftedIn ((codesOf ks ++ magicCodes).take k) ≠ magicMfm := by
  intro hm
  have hc : ∀ c ∈ (codesOf ks ++ magicCodes).take k, c < 4 := by
    intro c hc
    rcases List.mem_append.1 (List.mem_of_mem_take hc) with hc | hc
    · have := kmp_lt3 (codesOf ks) 0 (by unfold Clean at h; omega) c hc; omega
    · exact (show ∀ c ∈ magicCodes, c < 4 by decide) c hc
  have hlen : ((codesOf ks ++ magicCodes).take k).length = k := by simp [codesOf, magicCodes]; omega
  have h14 : 14 ≤ ((codesOf ks ++ magicCodes).take k).length := by
    by_contra hlt
    have := shiftedIn_lt _ hc (by omega)
    rw [hm] at this
    have h13 : 4 ^ ((codesOf ks ++ magicCodes).take k).length ≤ 4 ^ 13 := Nat.pow_le_pow_right (by omega) (by omega)
    have hm' : magicMfm.toNat = 160588953 := rfl
    have h13' : (4 : Nat) ^ 13 = 67108864 := by decide
    omega
  have hs := magic_suffix _ hc h14 hm
  rw [hlen] at hs h14
  -- position i = k - 14
  obtain ⟨i, rfl⟩ : ∃ i, k = i + 14 := ⟨k - 14, by omega⟩
  rw [Nat.add_sub_cancel] at hs
  have hi : i < ks.length := by omega
  have get : ∀ j, j < 14 → (codesOf ks ++ magicCodes)[i + j]? = magicCodes[j]? := by
    intro j hj
    have := congrArg (fun l : List Nat => l[j]?) hs
    simp only [List.getElem?_drop] at this
    rw [← this, List.getElem?_take_of_lt (by omega)]
  have hcl : (codesOf ks).length = ks.length := by simp [codesOf]
  by_cases c4 : i + 4 ≤ ks.length
  · have e : codesOf ks = (codesOf ks).take i ++ [2, 1, 2, 1] ++ (codesOf ks).drop (i + 4) := by
      have e1 : (codesOf ks).drop i = [2, 1, 2, 1] ++ (codesOf ks).drop (i + 4) := by
        have g : ∀ j, j < 4 → (codesOf ks)[i + j]? = magicCodes[j]? := fun j hj => by
          rw [← get j (by omega), List.getElem?_append_left (by omega)]
        apply List.ext_getElem?
        intro j
        rw [List.getElem?_drop]
        by_cases hj : j < 4
        · rw [g j hj, List.getElem?_append_left (by simpa using hj)]
          interval_cases j <;> rfl
        · rw [List.getElem?_append_right (by simp; omega), List.getElem?_drop]
          congr 1; simp; omega
      rw [List.append_assoc, ← e1, List.take_append_drop]
    unfold Clean at h
    rw [e, List.foldl_append, List.foldl_append, kmp_2121 _ (kmp_fold_le _ _ (by omega)), kmp_four] at h
    omega
  · have hl0 : (codesOf ks ++ magicCodes)[ks.length]? = some 2 := by
      rw [List.getElem?_append_right (by omega), hcl, Nat.sub_self]; rfl
    have : i + 3 = ks.length ∨ i + 2 = ks.length ∨ i + 1 = ks.length := by omega
    rcases this with h3 | h3 | h3
    · have := get 3 (by omega)
      rw [h3, hl0] at this; simp [magicCodes] at this
    · have e : codesOf ks = (codesOf ks).take i ++ [2, 1] := by
        have g : ∀ j, j < 2 → (codesOf ks)[i + j]? = magicCodes[j]? := fun j hj => by
          rw [← get j (by omega), List.getElem?_append_left (by omega)]
        have e1 : (codesOf ks).drop i = [2, 1] := by
          apply List.ext_getElem?
          intro j
          rw [List.getElem?_drop]
          by_cases hj : j < 2
          · rw [g j hj]; interval_cases j <;> rfl
          · rw [List.getElem?_eq_none (by omega), List.getElem?_eq_none (by simp; omega)]
        rw [← e1, List.take_append_drop]
      unfold Clean at h
      rw [e, List.foldl_append] at h
      have := kmp_21 (((codesOf ks).take i).foldl kmp 0) (kmp_fold_le _ _ (by omega))
      omega
    · have := get 1 (by omega)
      rw [h3, hl0] at this; simp [magicCodes] at this

/-- A sync search over clean intervals and a mark stops right behind the mark (41_classifier_sync.md R129). -/
theorem syncSearch_finds {t1 t2 t3 : Nat} (hT : Thr t1 t2 t3) {r : Reader} {a b : List Nat} (hr : Reads r t1 (a ++ magicIntervals ++ b))
    (ha : Clean a) (h1 : ∀ k ∈ a, 1 ≤ k) :
    ∃ r', r.syncSearch t2 t3 = (r', magicMfm) ∧ Reads r' t1 b := by
  have hlen := hr.length
  have hmi : magicIntervals.length = 14 := rfl
  simp only [List.length_append, hmi] at hlen
  obtain ⟨m, m1, m2, m3, m4⟩ := r.syncSearch_spec t2 t3
  have hcodes : ∀ k, k ≤ a.length + 14 → symbolCodes t2 t3 r.pairs k = (codesOf a ++ magicCodes).take k := by
    intro k hk
    rw [symbolCodes_map t1 t2 t3 hT r.pairs _ hr k (by simp [hmi]; omega)]
    · have e1 : (a ++ magicIntervals ++ b).take k = (a ++ magicIntervals).take k := by
        rw [List.take_append_of_le_length (by simp [hmi]; omega)]
      rw [e1, List.map_take, List.map_append]; rfl
    · intro x hx
      have e1 : (a ++ magicIntervals ++ b).take k = (a ++ magicIntervals).take k := by
        rw [List.take_append_of_le_length (by simp [hmi]; omega)]
      rw [e1] at hx
      rcases List.mem_append.1 (List.mem_of_mem_take hx) with hx | hx
      · exact ⟨h1 x hx, ha.le x hx⟩
      · exact (show ∀ x ∈ magicIntervals, 1 ≤ x ∧ x ≤ 4 by decide) x hx
  have hm : m = a.length + 14 := by
    have hfull : shiftedIn (symbolCodes t2 t3 r.pairs (a.length + 14)) = magicMfm := by
      rw [hcodes _ (Nat.le_refl _), List.take_of_length_le (by simp [codesOf, magicCodes])]
      exact shiftedIn_append_magic _
    rcases Nat.lt_trichotomy m (a.length + 14) with hlt | heq | hgt
    · rcases m3 with ⟨h, _⟩ | ⟨_, h⟩
      · rw [hcodes m (by omega)] at h
        exact absurd h (no_early ha m hlt)
      · omega
    · exact heq
    · exact absurd hfull (m2 _ hgt)
  subst hm
  have hfull : shiftedIn (symbolCodes t2 t3 r.pairs (a.length + 14)) = magicMfm := by
    rw [hcodes _ (Nat.le_refl _), List.take_of_length_le (by simp [codesOf, magicCodes])]
    exact shiftedIn_append_magic _
  rw [hfull] at m4
  refine ⟨_, m4, ?_⟩
  have := hr.skip (a.length + 14)
  have e : (a ++ magicIntervals ++ b).drop (a.length + 14) = b := by
    rw [List.drop_append_of_le_length (by simp [hmi]), List.drop_of_length_le (by simp [hmi]), List.nil_append]
  rwa [e] at this

end Sys2Proof.Machine
end

