-- ==== Sys2Proof/Laws/Cells.lean ====
section
/-! SUPPORT. Cells, intervals and what a demodulation of MFM cells gives. -/

namespace Sys2Proof.Machine

/-- The cells that intervals close. -/
def cellsOf (ks : List Nat) : List Bool := ks.flatMap (fun k => List.replicate (k - 1) false ++ [true])

theorem cellsOf_append (a b : List Nat) : cellsOf (a ++ b) = cellsOf a ++ cellsOf b := by simp [cellsOf]

/-- The cells of the intervals of a cell sequence, up to its open run. -/
theorem cellsOf_intervals (run : Nat) (xs : List Bool) :
    cellsOf (intervals run xs) ++ List.replicate (openRun run xs) false = List.replicate run false ++ xs := by
  induction xs generalizing run with
  | nil => simp [intervals, openRun, cellsOf]
  | cons x xs ih =>
    cases x with
    | false =>
      simp only [intervals, openRun]
      rw [ih, List.replicate_succ']; simp
    | true =>
      simp only [intervals, openRun]
      have := ih 0
      simp only [List.replicate_zero, List.nil_append] at this
      simp only [cellsOf, List.flatMap_cons, Nat.add_sub_cancel] at this ⊢
      rw [List.append_assoc, this]; simp

theorem intervals_append (run : Nat) (xs ys : List Bool) : intervals run (xs ++ ys) = intervals run xs ++ intervals
    (openRun run xs) ys := by
  induction xs generalizing run with
  | nil => rfl
  | cons x xs ih => cases x <;> simp [intervals, openRun, ih]

theorem openRun_append (run : Nat) (xs ys : List Bool) : openRun run (xs ++ ys) = openRun (openRun run xs) ys := by
  induction xs generalizing run with
  | nil => rfl
  | cons x xs ih => cases x <;> simp [openRun, ih]

theorem intervals_pos (run : Nat) (xs : List Bool) : ∀ k ∈ intervals run xs, 1 ≤ k := by
  induction xs generalizing run with
  | nil => simp [intervals]
  | cons x xs ih =>
    cases x with
    | false => exact ih _
    | true =>
      intro k hk
      rcases List.mem_cons.1 hk with rfl | hk
      · omega
      · exact ih _ k hk

/-! ## mfm regions -/

/-- The matching state behind a cell sequence. -/
def hOf (run h : Nat) (xs : List Bool) : Nat := (codesOf (intervals run xs)).foldl kmp h

theorem hOf_append (run h : Nat) (xs ys : List Bool) : hOf run h (xs ++ ys) = hOf (openRun run xs) (hOf run h xs) ys
    := by
  simp [hOf, intervals_append, codesOf, List.foldl_append]

/-- The states an MFM cell sequence of data bytes can be in: the last data bit, the open run, the matching state. -/
abbrev MfmAt (p : Bool) (run h : Nat) : Prop :=
  (p = true ∧ run = 0 ∧ h ≤ 1) ∨ (p = false ∧ run = 0 ∧ h = 0) ∨ (p = false ∧ run = 1 ∧ (h = 0 ∨ h = 2)) ∨ (p = false ∧ run = 2 ∧ h ≤ 1)

theorem MfmAt.cases {p : Bool} {run h : Nat} (hm : MfmAt p run h) : (p, run, h) ∈
    [(true,0,0),(true,0,1),(false,0,0),(false,1,0),(false,1,2),(false,2,0),(false,2,1)] := by
  rcases hm with ⟨rfl, rfl, hh⟩ | ⟨rfl, rfl, rfl⟩ | ⟨rfl, rfl, rfl | rfl⟩ | ⟨rfl, rfl, hh⟩
  · have : h = 0 ∨ h = 1 := by omega
    rcases this with rfl | rfl <;> decide
  · decide
  · decide
  · decide
  · have : h = 0 ∨ h = 1 := by omega
    rcases this with rfl | rfl <;> decide


/-- One data bit keeps the MFM states. -/
theorem MfmAt.step {p : Bool} {run h : Nat} (hm : MfmAt p run h) (d : Bool) :
    MfmAt d (openRun run [!(p || d), d]) (hOf run h [!(p || d), d]) := by
  have key : ∀ x ∈ [(true,0,0),(true,0,1),(false,0,0),(false,1,0),(false,1,2),(false,2,0),(false,2,1)], ∀ d : Bool,
    MfmAt d (openRun x.2.1 [!(x.1 || d), d]) (hOf x.2.1 x.2.2 [!(x.1 || d), d]) := by decide
  exact key _ hm.cases d

/-- Data bits keep the MFM states. -/
theorem MfmAt.bits {p : Bool} {run h : Nat} (hm : MfmAt p run h) (ds : List Bool) :
    MfmAt (ds.getLast?.getD p) (openRun run (mfmCells p ds)) (hOf run h (mfmCells p ds)) := by
  induction ds generalizing p run h with
  | nil => exact hm
  | cons d ds ih =>
    have e : mfmCells p (d :: ds) = [!(p || d), d] ++ mfmCells d ds := rfl
    rw [e, openRun_append, hOf_append]
    have := ih (hm.step d)
    have e2 : (d :: ds).getLast?.getD p = ds.getLast?.getD d := by cases ds <;> simp [List.getLast?_cons]
    rw [e2]; exact this

/-- The start of a sync word does not begin a mark early. -/
theorem MfmAt.mark {p : Bool} {run h : Nat} (hm : MfmAt p run h) : hOf run h [false, true] ≤ 1 := by
  have key : ∀ x ∈ [(true,0,0),(true,0,1),(false,0,0),(false,1,0),(false,1,2),(false,2,0),(false,2,1)], hOf x.2.1 x.2.2 [false, true] ≤ 1 := by decide
  exact key _ hm.cases

/-- Three SYNC_C2 words. -/
def c2Cells : List Bool := wordCells 0x5224#16 ++ wordCells 0x5224#16 ++ wordCells 0x5224#16

/-- Three SYNC_A1 words. -/
def a1Cells : List Bool := wordCells 0x4489#16 ++ wordCells 0x4489#16 ++ wordCells 0x4489#16

/-- The cells of 0xFC behind SYNC_C2. -/
def fcCells : List Bool := mfmCells false ((List.range 8).map (fun j => (0xFC#8).getLsbD (7 - j)))

/-- The cells of the index mark, written out. -/
def idxList : List Bool :=
    [false,true,false,true,false,false,true,false,false,false,true,false,false,true,false,false, false,true,false,true,false,false,true,false,false,false,true,false,false,true,false,false,
  false,true,false,true,false,false,true,false,false,false,true,false,false,true,false,false, false,true,false,true,false,true,false,true,false,true,false,true,false,false,true,false]

theorem idx_eq : c2Cells ++ fcCells = idxList := by decide +kernel

theorem idx_key : ∀ x ∈ [(true,0,0),(true,0,1),(false,0,0),(false,1,0),(false,1,2),(false,2,0),(false,2,1)],
    openRun x.2.1 idxList = 1 ∧ hOf x.2.1 x.2.2 idxList = 0 := by decide +kernel

/-- The index mark and its 0xFC keep the MFM states. -/
theorem MfmAt.index {p : Bool} {run h : Nat} (hm : MfmAt p run h) :
    MfmAt false (openRun run (c2Cells ++ fcCells)) (hOf run h (c2Cells ++ fcCells)) := by
  rw [idx_eq]
  have k := idx_key (p, run, h) hm.cases
  dsimp only at k
  rw [k.1, k.2]
  exact .inr (.inr (.inl ⟨rfl, rfl, .inl rfl⟩))

/-- Cells that follow MFM contain no sync mark. -/
theorem clean_of_mfmAt {xs : List Bool} {p : Bool} (h : MfmAt p (openRun 0 xs) (hOf 0 0 xs)) : Clean (intervals 0 (xs ++ [false, true]))
    := by
  unfold Clean
  have := h.mark
  rwa [← hOf_append] at this

/-- The intervals of cells with a sync mark in them. -/
theorem intervals_mark (xs rest : List Bool) : intervals 0 (xs ++ a1Cells ++ rest) = intervals 0 (xs ++ [false, true])
    ++ magicIntervals ++ intervals 0 rest := by
  have e : xs ++ a1Cells ++ rest = (xs ++ [false, true]) ++ (a1Cells.drop 2 ++ rest) := by
    simp only [List.append_assoc]; rfl
  have o : openRun 0 (xs ++ [false, true]) = 0 := by rw [openRun_append]; rfl
  have o2 : openRun 0 (a1Cells.drop 2) = 0 := by decide
  have o3 : intervals 0 (a1Cells.drop 2) = magicIntervals := by decide
  have e3 : intervals 0 (a1Cells.drop 2 ++ rest) = magicIntervals ++ intervals 0 rest := by rw [intervals_append, o2, o3]
  rw [e, intervals_append, o, e3, List.append_assoc]

/-- Intervals of MFM cells are at least 2 cells. -/
theorem intervals_two (p : Bool) (run : Nat) (ds : List Bool) (h : p = false → 1 ≤ run) : (∀ k ∈ intervals run (mfmCells p ds), 2 ≤ k)
    := by
  induction ds generalizing p run with
  | nil => simp [mfmCells, intervals]
  | cons d ds ih =>
    intro k hk
    cases p <;> cases d <;> simp only [mfmCells, Bool.or_false, Bool.or_true, Bool.not_false, Bool.not_true, intervals, List.mem_cons] at hk
    · rcases hk with rfl | hk
      · have := h rfl; omega
      · exact ih false 1 (by simp) k hk
    · rcases hk with rfl | hk
      · omega
      · exact ih true 0 (by simp) k hk
    · exact ih false _ (by omega) k hk
    · rcases hk with rfl | hk
      · omega
      · exact ih true 0 (by simp) k hk

/-- The data cells of MFM cells are the data bits (44_line_code.md R201, R207). -/
theorem dataCells_mfm (p : Bool) (ds : List Bool) (rest : List Bool) : dataCells .clock (mfmCells p ds ++ rest) = ds
    ++ dataCells .clock rest := by
  induction ds generalizing p with
  | nil => rfl
  | cons d ds ih => simp only [mfmCells, List.cons_append, dataCells, ih]

theorem codeCells_eq (k : Nat) (h : 2 ≤ k) : codeCells (k - 2) = List.replicate (k - 1) false ++ [true] := by
  unfold codeCells; rw [show k - 2 + 1 = k - 1 by omega]

theorem flatMap_codes (ks : List Nat) (h : ∀ k ∈ ks, 2 ≤ k) : (codesOf ks).flatMap codeCells = cellsOf ks := by
  induction ks with
  | nil => rfl
  | cons k ks ih =>
    simp only [codesOf, List.map_cons, List.flatMap_cons, cellsOf] at *
    rw [codeCells_eq k (h k (by simp)), ih (fun x hx => h x (by simp [hx]))]

/-- The bits of bytes, most significant first (20_memory.md R69). -/
def bitsOf (bs : List Byte) : List Bool := bs.flatMap (fun b => (List.range 8).map (fun j => b.getLsbD (7 - j)))

theorem bitsOf_length (bs : List Byte) : (bitsOf bs).length = 8 * bs.length := by
  induction bs with
  | nil => rfl
  | cons b bs ih => simp only [bitsOf, List.flatMap_cons, List.length_append, List.length_map, List.length_range, List.length_cons] at *; omega

theorem bitsOf_getD (bs : List Byte) (rest : List Bool) (i j : Nat) (hi : i < bs.length) (hj : j < 8) :
    (bitsOf bs ++ rest).getD (8 * i + j) false = (bs.getD i 0#8).getLsbD (7 - j) := by
  induction bs generalizing i with
  | nil => simp at hi
  | cons b bs ih =>
    have e : bitsOf (b :: bs) = (List.range 8).map (fun j => b.getLsbD (7 - j)) ++ bitsOf bs := rfl
    rw [e, List.append_assoc, List.getD_eq_getElem?_getD]
    cases i with
    | zero =>
      rw [List.getElem?_append_left (by simp; omega)]
      simp [hj]
    | succ i =>
      rw [List.getElem?_append_right (by simp; omega)]
      have := ih i (by simpa using hi)
      rw [List.getD_eq_getElem?_getD] at this
      simp only [List.length_map, List.length_range]
      rw [show 8 * (i + 1) + j - 8 = 8 * i + j by omega, this]; rfl

/-- Bytes are determined by their bits. -/
theorem bytes_of_agree {bytes bs : List Byte} {rest : List Bool} (hl : bytes.length = bs.length) (h : bitsAgree bytes (bitsOf bs ++ rest))
    : bytes = bs := by
  apply List.ext_getElem hl
  intro i h1 h2
  apply BitVec.eq_of_getLsbD_eq
  intro k hk
  have := h i (7 - k) h1 (by omega)
  rw [bitsOf_getD bs rest i (7 - k) h2 (by omega), show 7 - (7 - k) = k by omega] at this
  simpa [List.getD_eq_getElem?_getD, h1, h2] using this

/-- A demodulation of intervals gives the data cells of their cells. -/
theorem demod_reads {t1 t2 t3 : Nat} (hT : Thr t1 t2 t3) {r : Reader} {ks ext : List Nat} (hr : Reads r t1 (ks ++ ext))
    (hk : ∀ k ∈ ks, 2 ≤ k ∧ k ≤ 4) {bs : List Byte} {rest : List Bool} (hb : dataCells .clock (cellsOf ks) = bitsOf bs ++ rest) :
    ∃ r' p, r.demod t2 t3 bs.length .clock = (bs, r', p) ∧ ∃ m, m ≤ ks.length ∧ Reads r' t1 (ks.drop m ++ ext) := by
  obtain ⟨m, m1, m2, m3, m4, m5⟩ := r.demod_spec t2 t3 bs.length .clock
  have hcells : ∀ k, k ≤ ks.length → r.cells t2 t3 k = cellsOf (ks.take k) := by
    intro k hkl
    have e : (ks ++ ext).take k = ks.take k := List.take_append_of_le_length hkl
    unfold Reader.cells
    rw [symbolCodes_map t1 t2 t3 hT r.pairs _ hr k (by simp; omega), e]
    · exact flatMap_codes _ (fun x hx => (hk x (List.mem_of_mem_take hx)).1)
    · intro x hx
      rw [e] at hx
      have := hk x (List.mem_of_mem_take hx); omega
  have hm : m ≤ ks.length := by
    by_contra hlt
    have := m2 ks.length (by omega)
    rw [hcells _ (Nat.le_refl _), List.take_length, hb, List.length_append, bitsOf_length] at this
    omega
  rw [hcells m hm] at m1 m4
  have hpre : bitsAgree (r.demod t2 t3 bs.length .clock).1 (bitsOf bs ++ rest) := by
    intro i j hi hj
    rw [m4 i j hi hj, ← hb]
    have e : cellsOf ks = cellsOf (ks.take m) ++ cellsOf (ks.drop m) := by rw [← cellsOf_append, List.take_append_drop]
    rw [e, dataCells_append, List.getD_eq_getElem?_getD, List.getD_eq_getElem?_getD, List.getElem?_append_left]
    rw [m3] at hi; omega
  have hbytes := bytes_of_agree m3 hpre
  refine ⟨r.skip m, parityAfter .clock (r.cells t2 t3 m).length, Prod.ext hbytes m5, m, hm, ?_⟩
  have h := hr.skip m
  rw [List.drop_append_of_le_length hm] at h
  exact h

/-- A demodulation right behind a sync mark gives the bytes modulated there. -/
theorem demod_after_mark {t1 t2 t3 : Nat} (hT : Thr t1 t2 t3) {r : Reader} {bs : List Byte} {more : List Bool} {ext : List Nat}
    (hr : Reads r t1 (intervals 0 (mfmCells true (bitsOf bs ++ more) ++ [false, true]) ++ ext)) :
    ∃ r' p, r.demod t2 t3 bs.length .clock = (bs, r', p) ∧ ∃ a, Clean a ∧ (∀ k ∈ a, 1 ≤ k) ∧ Reads r' t1 (a ++ ext) := by
  have hclean : Clean (intervals 0 (mfmCells true (bitsOf bs ++ more) ++ [false, true])) := clean_of_mfmAt (MfmAt.bits (.inl ⟨rfl, rfl, by decide⟩) _)
  have hcells : cellsOf (intervals 0 (mfmCells true (bitsOf bs ++ more) ++ [false, true])) = mfmCells true (bitsOf bs ++ more) ++ [false, true] := by
    have := cellsOf_intervals 0 (mfmCells true (bitsOf bs ++ more) ++ [false, true])
    have o : openRun 0 (mfmCells true (bitsOf bs ++ more) ++ [false, true]) = 0 := by rw [openRun_append]; rfl
    rw [o] at this; simpa using this
  have h2 : ∀ k ∈ intervals 0 (mfmCells true (bitsOf bs ++ more) ++ [false, true]), 2 ≤ k ∧ k ≤ 4 := by
    intro k hk
    refine ⟨?_, hclean.le k hk⟩
    rw [intervals_append] at hk
    rcases List.mem_append.1 hk with hk | hk
    · exact intervals_two true 0 _ (by simp) k hk
    · simp only [intervals, List.mem_cons, List.not_mem_nil, or_false] at hk; omega
  obtain ⟨r', p, h3, m, h4, h5⟩ := demod_reads hT hr h2 (bs := bs) (rest := more ++ dataCells .clock [false, true]) (by
    rw [hcells, dataCells_mfm, List.append_assoc])
  exact ⟨r', p, h3, _, hclean.drop m, fun k hk => intervals_pos _ _ k (List.mem_of_mem_drop hk), h5⟩

/-- The same at the end of a stream. -/
theorem demod_last {t1 t2 t3 : Nat} (hT : Thr t1 t2 t3) {r : Reader} {bs : List Byte} {more : List Bool} {ext : List Nat}
    (hmore : 1 ≤ more.length)
    (hr : Reads r t1 (intervals 0 (mfmCells true (bitsOf bs ++ more)) ++ ext)) :
    ∃ r' p, r.demod t2 t3 bs.length .clock = (bs, r', p) := by
  set xs := mfmCells true (bitsOf bs ++ more) with hxs
  have hat : MfmAt ((bitsOf bs ++ more).getLast?.getD true) (openRun 0 xs) (hOf 0 0 xs) := MfmAt.bits (.inl ⟨rfl, rfl, by decide⟩) _
  have h4 : ∀ k ∈ intervals 0 xs, 2 ≤ k ∧ k ≤ 4 := by
    intro k hk
    refine ⟨intervals_two true 0 _ (by simp) k hk, ?_⟩
    have hne : hOf 0 0 xs ≠ 4 := by rcases hat with h | h | h | h <;> omega
    have := kmp_lt3 (codesOf (intervals 0 xs)) 0 hne (k - 2) (List.mem_map_of_mem hk)
    omega
  have hcells := cellsOf_intervals 0 xs
  simp only [List.replicate_zero, List.nil_append] at hcells
  have hopen : openRun 0 xs ≤ 2 := by rcases hat with h | h | h | h <;> omega
  have hd : dataCells .clock (cellsOf (intervals 0 xs)) ++ dataCells (parityAfter .clock (cellsOf (intervals 0 xs)).length) (List.replicate (openRun 0 xs) false) = bitsOf bs ++ more := by
    rw [← dataCells_append, hcells, hxs]
    have := dataCells_mfm true (bitsOf bs ++ more) []
    simpa [dataCells] using this
  have hshort : (dataCells (parityAfter .clock (cellsOf (intervals 0 xs)).length) (List.replicate (openRun 0 xs) false)).length ≤ 1 := by
    have : openRun 0 xs = 0 ∨ openRun 0 xs = 1 ∨ openRun 0 xs = 2 := by omega
    generalize parityAfter .clock (cellsOf (intervals 0 xs)).length = p
    rcases this with h | h | h <;> rw [h] <;> cases p <;> decide
  have hlen := congrArg List.length hd
  simp only [List.length_append, bitsOf_length] at hlen
  have hbig : 8 * bs.length ≤ (dataCells .clock (cellsOf (intervals 0 xs))).length := by omega
  obtain ⟨r', p, h5, _⟩ := demod_reads hT hr h4 (bs := bs) (rest := (dataCells .clock (cellsOf (intervals 0 xs))).drop (8 * bs.length)) (by
    have h6 : (dataCells .clock (cellsOf (intervals 0 xs))).take (8 * bs.length) = bitsOf bs := by
      have := congrArg (List.take (8 * bs.length)) hd
      rw [List.take_append_of_le_length hbig, List.take_append_of_le_length (l₁ := bitsOf bs) (by rw [bitsOf_length])] at this
      rw [this, List.take_of_length_le (by rw [bitsOf_length])]
    rw [← h6, List.take_append_drop])
  exact ⟨r', p, h5⟩

end Sys2Proof.Machine
end

