-- ==== Sys2Proof/Laws/Crc.lean ====
section
/-! SUPPORT. The laws of the CRC engine (42_crc.md): a step is linear and one-to-one in the CRC. -/
namespace Sys2Proof.Machine

/-- One shift is linear. -/
theorem crcShift_xor (x y : BitVec 16) : crcShift (x ^^^ y) = crcShift x ^^^ crcShift y := by
  have h : (x ^^^ y) <<< 1 = (x <<< 1) ^^^ (y <<< 1) := by
    apply BitVec.eq_of_getLsbD_eq
    intro i hi
    simp only [BitVec.getLsbD_shiftLeft, BitVec.getLsbD_xor]
    cases decide (i < 16) <;> cases decide (i < 1) <;> simp
  simp only [crcShift, BitVec.getLsbD_xor]
  rw [h]
  generalize x <<< 1 = a
  generalize y <<< 1 = b
  apply BitVec.eq_of_getLsbD_eq
  intro i hi
  cases x.getLsbD 15 <;> cases y.getLsbD 15 <;>
    simp only [Bool.xor_false, Bool.xor_true, Bool.not_false, Bool.not_true, Bool.false_eq_true, if_true, if_false,
      BitVec.getLsbD_xor] <;>
    cases a.getLsbD i <;> cases b.getLsbD i <;> cases (0x1021#16).getLsbD i <;> rfl

/-- Only 0 shifts to 0. -/
theorem crcShift_eq_zero (x : BitVec 16) (h : crcShift x = 0#16) : x = 0#16 := by
  unfold crcShift at h
  split at h
  · have := congrArg (fun z => z.getLsbD 0) h
    simp at this
  · rename_i h15
    apply BitVec.eq_of_getLsbD_eq
    intro i hi
    by_cases h' : i = 15
    · subst h'
      simpa using h15
    · have := congrArg (fun z => z.getLsbD (i + 1)) h
      simp only [BitVec.getLsbD_shiftLeft, show i + 1 < 16 by omega, decide_true, Bool.true_and,
        show ¬ (i + 1 < 1) by omega, decide_false, Bool.not_false, Nat.add_sub_cancel, BitVec.getLsbD_zero] at this
      rw [this, BitVec.getLsbD_zero]

/-- The eight shifts of a step. -/
def crcShift8 (x : BitVec 16) : BitVec 16 :=
  crcShift (crcShift (crcShift (crcShift (crcShift (crcShift (crcShift (crcShift x)))))))

theorem crcStep_eq (crc : BitVec 16) (b : Byte) : crcStep crc b = crcShift8 (crc ^^^ (b.setWidth 16 <<< 8)) := rfl

theorem crcShift8_xor (x y : BitVec 16) : crcShift8 (x ^^^ y) = crcShift8 x ^^^ crcShift8 y := by
  simp only [crcShift8, crcShift_xor]

theorem crcShift8_eq_zero (x : BitVec 16) (h : crcShift8 x = 0#16) : x = 0#16 := by
  unfold crcShift8 at h
  iterate 8 replace h := crcShift_eq_zero _ h
  exact h

/-- A low byte is shifted up. -/
theorem crcShift8_low (l : Byte) : crcShift8 (l.setWidth 16) = l.setWidth 16 <<< 8 := by
  have h : ∀ n : Fin 256,
      crcShift8 ((BitVec.ofNat 8 n.val).setWidth 16) = (BitVec.ofNat 8 n.val).setWidth 16 <<< 8 := by
    decide +kernel
  simpa using h ⟨l.toNat, l.isLt⟩

/-- The xor of two steps is the step of the xors. -/
theorem crcStep_xor (a b : BitVec 16) (x y : Byte) : crcStep a x ^^^ crcStep b y = crcStep (a ^^^ b) (x ^^^ y) := by
  simp only [crcStep_eq]
  rw [← crcShift8_xor]
  congr 1
  apply BitVec.eq_of_getLsbD_eq
  intro i hi
  simp only [BitVec.getLsbD_xor, BitVec.getLsbD_shiftLeft, BitVec.getLsbD_setWidth]
  cases a.getLsbD i <;> cases b.getLsbD i <;> cases x.getLsbD (i - 8) <;> cases y.getLsbD (i - 8) <;>
    cases decide (i < 8) <;> cases decide (i - 8 < 16) <;> cases decide (i < 16) <;> rfl

/-- A step is one-to-one in the CRC. -/
theorem crcStep_inj (a b : BitVec 16) (x : Byte) (h : crcStep a x = crcStep b x) : a = b := by
  have h0 : crcStep a x ^^^ crcStep b x = 0#16 := by rw [h, BitVec.xor_self]
  rw [crcStep_xor, BitVec.xor_self, crcStep_eq] at h0
  simpa [BitVec.xor_eq_zero_iff] using crcShift8_eq_zero _ h0

theorem crc16_append (xs ys : List Byte) (init : BitVec 16) : crc16 (xs ++ ys) init = crc16 ys (crc16 xs init) := by
  simp [crc16]

end Sys2Proof.Machine
end

