-- ==== Sys2Proof/Laws/PerInstr.lean ====
section
/-! SUPPORT. The opcode table, one lemma per constructor: every encoded instruction has the bits spec/opcode_table.json gives
its row. -/
namespace Sys2Proof.Laws.MatchesTable

/-- The bits of a command word under the mask 0xFFFFF8FF are the row's match (30_encoding.md R91, R92). -/
def commandMatches (code : Code) (row : Word) : Prop :=
  match code with
  | .command w => w &&& 0xFFFFF8FF#32 = row
  | .element _ => False

/-- The first bytes of an element meet the row's condition, and it has the row's length (30_encoding.md R98). -/
def elementMatches (code : Code) (len : Nat) (row : Byte → Byte → Prop) : Prop :=
  match code with
  | .command _ => False
  | .element bytes => bytes.length = len ∧ row (bytes.getD 0 0#8) (bytes.getD 1 0#8)

/-- The encoding of a well-formed instruction matches its row of the opcode table. -/
def Statement (i : Instr) : Prop :=
  WellFormed i = true →
    match i with
    | .nop _ => commandMatches (encode i) 0x00000000#32
    | .classify _ => commandMatches (encode i) 0x00000001#32
    | .readsym _ => commandMatches (encode i) 0x00000002#32
    | .sync _ => commandMatches (encode i) 0x00000003#32
    | .demod _ => commandMatches (encode i) 0x00000004#32
    | .crc _ => commandMatches (encode i) 0x00000005#32
    | .pack _ => commandMatches (encode i) 0x00000006#32
    | .unpack _ => commandMatches (encode i) 0x00000007#32
    | .mod _ => commandMatches (encode i) 0x00000008#32
    | .decode _ => commandMatches (encode i) 0x00000009#32
    | .encode _ => commandMatches (encode i) 0x0000000A#32
    | .clrvalid _ => commandMatches (encode i) 0x0000000B#32
    | .markwr _ => commandMatches (encode i) 0x0000000C#32
    | .endMark => elementMatches (encode i) 1 (fun b0 _ => b0 = 0x00#8)
    | .gw1 _ => elementMatches (encode i) 1 (fun b0 _ => 0x01 ≤ b0.toNat ∧ b0.toNat ≤ 0xF9)
    | .gw2 _ _ => elementMatches (encode i) 2 (fun b0 b1 => 0xFA ≤ b0.toNat ∧ b0.toNat ≤ 0xFE ∧ b1 ≠ 0x00#8)
    | .gw2End _ => elementMatches (encode i) 2 (fun b0 b1 => 0xFA ≤ b0.toNat ∧ b0.toNat ≤ 0xFE ∧ b1 = 0x00#8)
    | .gw6 _ _ _ _ => elementMatches (encode i) 6 (fun b0 b1 => b0 = 0xFF#8 ∧ b1 = 0x02#8)
    | .gw6Skip _ _ _ _ _ => elementMatches (encode i) 6 (fun b0 b1 => b0 = 0xFF#8 ∧ b1 ≠ 0x02#8)

theorem commandWord_masked (op : Nat) (h : op < 16) (f : Flags) :
    commandWord op f &&& 0xFFFFF8FF#32 = BitVec.ofNat 32 op := by
  have key : ∀ (k : Fin 16) (p c m : Bool),
      commandWord k.val ⟨p, c, m⟩ &&& 0xFFFFF8FF#32 = BitVec.ofNat 32 k.val := by decide
  exact key ⟨op, h⟩ f.packed f.clrv f.fm

theorem nop (f : Flags) : Statement (.nop f) := fun _ => commandWord_masked 0 (by decide) f
theorem classify (f : Flags) : Statement (.classify f) := fun _ => commandWord_masked 1 (by decide) f
theorem readsym (f : Flags) : Statement (.readsym f) := fun _ => commandWord_masked 2 (by decide) f
theorem sync (f : Flags) : Statement (.sync f) := fun _ => commandWord_masked 3 (by decide) f
theorem demod (f : Flags) : Statement (.demod f) := fun _ => commandWord_masked 4 (by decide) f
theorem crc (f : Flags) : Statement (.crc f) := fun _ => commandWord_masked 5 (by decide) f
theorem pack (f : Flags) : Statement (.pack f) := fun _ => commandWord_masked 6 (by decide) f
theorem unpack (f : Flags) : Statement (.unpack f) := fun _ => commandWord_masked 7 (by decide) f
theorem mod (f : Flags) : Statement (.mod f) := fun _ => commandWord_masked 8 (by decide) f
theorem decode (f : Flags) : Statement (.decode f) := fun _ => commandWord_masked 9 (by decide) f
theorem encode (f : Flags) : Statement (.encode f) := fun _ => commandWord_masked 10 (by decide) f
theorem clrvalid (f : Flags) : Statement (.clrvalid f) := fun _ => commandWord_masked 11 (by decide) f
theorem markwr (f : Flags) : Statement (.markwr f) := fun _ => commandWord_masked 12 (by decide) f

theorem endMark : Statement .endMark := fun _ => ⟨rfl, rfl⟩

theorem gw1 (b0 : Byte) : Statement (.gw1 b0) := fun h => by
  simp only [WellFormed, isGw1Lead, Bool.and_eq_true, decide_eq_true_eq] at h
  exact ⟨rfl, h⟩

theorem gw2 (b0 b1 : Byte) : Statement (.gw2 b0 b1) := fun h => by
  simp only [WellFormed, isGw2Lead, Bool.and_eq_true, decide_eq_true_eq] at h
  exact ⟨rfl, h.1.1, h.1.2, h.2⟩

theorem gw2End (b0 : Byte) : Statement (.gw2End b0) := fun h => by
  simp only [WellFormed, isGw2Lead, Bool.and_eq_true, decide_eq_true_eq] at h
  exact ⟨rfl, h.1, h.2, rfl⟩

theorem gw6 (p0 p1 p2 p3 : Byte) : Statement (.gw6 p0 p1 p2 p3) := fun _ => ⟨rfl, rfl, rfl⟩

theorem gw6Skip (b1 p0 p1 p2 p3 : Byte) : Statement (.gw6Skip b1 p0 p1 p2 p3) := fun h => by
  simp only [WellFormed, decide_eq_true_eq] at h
  exact ⟨rfl, rfl, h⟩

end Sys2Proof.Laws.MatchesTable
end

