-- ==== Sys2Proof/Laws/Reads.lean ====
section
/-! SUPPORT. DECODE's loop as the chain of reads `readsTrack` describes: one read, one pass, the loop
(45_track_decode_encode.md R232 to R239). -/
namespace Sys2Proof.Machine

/-- Memory after a read: a DAM with its mark and CRC right fills its sector's slot (45_track_decode_encode.md R237). -/
def memAfter (cfg : Config) (mem : Memory) (r : TrackRecord) : Memory :=
  match r.wanted with
  | none => mem
  | some sector =>
    if validRecord cfg 0xFB#8 r.bytes then
      mem.store (slotAddr cfg (sector - 1)) ((r.bytes.drop 1).take cfg.sectorBytes)
    else mem

/-- What DECODE carries, after some reads (45_track_decode_encode.md R232, R233, R237, R239). -/
structure Decoder.Read (cfg : Config) (d : Decoder) (rs : List TrackRecord) (d' : Decoder) : Prop where
  valid : d'.valid = validAtEnd cfg d.valid rs
  synccnt : d'.synccnt = d.synccnt + BitVec.ofNat 32 rs.length
  parity : d'.parity = parityAtEnd d.parity rs
  idamv : d'.idamv = (d.idamv || rs.any (fun r => decide (isIdam cfg r)))
  lastidam : d'.lastidam = rs.foldl (fun w r => if isIdam cfg r then headerWord r.bytes else w) d.lastidam
  mem : d'.mem = rs.foldl (memAfter cfg) d.mem

theorem Decoder.Read.trans {cfg : Config} {d d' d'' : Decoder} {rs rs' : List TrackRecord} (h : Decoder.Read cfg d rs d')
    (h' : Decoder.Read cfg d' rs' d'') : Decoder.Read cfg d (rs ++ rs') d'' where
  valid := by rw [h'.valid, h.valid, validAtEnd, validAtEnd, validAtEnd, List.foldl_append]
  synccnt := by rw [h'.synccnt, h.synccnt, List.length_append, BitVec.ofNat_add, BitVec.add_assoc]
  parity := by rw [h'.parity, h.parity, parityAtEnd, parityAtEnd, parityAtEnd, List.foldl_append]
  idamv := by rw [h'.idamv, h.idamv, List.any_append, Bool.or_assoc]
  lastidam := by rw [h'.lastidam, h.lastidam, List.foldl_append]
  mem := by rw [h'.mem, h.mem, List.foldl_append]

/-- A decoder whose last sync search, from `c` on, has failed (41_classifier_sync.md R127, 45_track_decode_encode.md R238). -/
def Decoder.RanOut (s : State) (packed : Bool) (c : Nat) (d : Decoder) : Prop :=
  ∃ es, isStream packed s c es ∧ d.reader.cursor = posAfter c es es.length ∧
    d.syncreg = shiftedIn (symbolCodes s.t2.toNat s.t3.toNat es es.length)

theorem Decoder.search_ranOut {s : State} {packed : Bool} {d d1 : Decoder} (hd : d.reader.At s packed)
    (h : d.search s.t2.toNat s.t3.toNat = (false, d1)) : Decoder.RanOut s packed d.reader.cursor d1 := by
  obtain ⟨h1, h2⟩ := Decoder.search_false h
  obtain ⟨m, _, _, h3, h4⟩ := d.reader.syncSearch_spec s.t2.toNat s.t3.toNat
  have hs : isStream packed s d.reader.cursor d.reader.pairs := by
    have := isStream_readerAt packed s d.reader.cursor
    rwa [← hd.elems] at this
  have hm : m = d.reader.pairs.length := by
    rw [h4] at h1
    rw [(h3.resolve_left fun hx => h1 hx.1).2, Reader.pairs, List.length_map]
  refine ⟨_, hs, ?_, ?_⟩ <;> rw [h2, h4, ← hm]
  rfl

/-- A successful search with the record behind it (45_track_decode_encode.md R232 steps 2 and 3, 6 and 7). -/
theorem Decoder.search_record {s : State} {packed : Bool} {d d1 d2 : Decoder} {n : Nat} {bytes : List Byte}
    (hd : d.reader.At s packed) (h : d.search s.t2.toNat s.t3.toNat = (true, d1))
    (h2 : d1.record s.t2.toNat s.t3.toNat n = (bytes, d2)) :
    d2.reader.At s packed ∧ recordBehind packed s n d.reader.cursor = some (bytes, d2.reader.cursor, d2.parity) ∧
      d2.syncreg = magicMfm ∧ d2.synccnt = d.synccnt + 1#32 ∧ d2.lastidam = d.lastidam ∧ d2.idamv = d.idamv ∧
      d2.valid = d.valid ∧ d2.mem = d.mem := by
  have ha := (Decoder.record_at (Decoder.search_at hd h).1 n).1
  have hb := recordBehind_of_search hd n h
  obtain ⟨hm, hd1⟩ := Decoder.search_true h
  rw [h2] at ha hb
  have : d2 = (d1.record s.t2.toNat s.t3.toNat n).2 := by rw [h2]
  refine ⟨ha, hb, ?_, ?_, ?_, ?_, ?_, ?_⟩ <;> rw [this, hd1]
  · exact hm
  all_goals rfl

/-- One read, looking for a header. -/
theorem Decoder.Read.header {cfg : Config} {d d' : Decoder} {hdr : List Byte} {c : Nat} (hv : d'.valid = d.valid)
    (hm : d'.mem = d.mem) (hs : d'.synccnt = d.synccnt + 1#32)
    (hi : validRecord cfg 0xFE#8 hdr ∧ d'.idamv = true ∧ d'.lastidam = headerWord hdr ∨
      ¬ validRecord cfg 0xFE#8 hdr ∧ d'.idamv = d.idamv ∧ d'.lastidam = d.lastidam) :
    Decoder.Read cfg d [⟨none, hdr, c, d'.parity⟩] d' := by
  refine ⟨hv, hs, rfl, ?_, ?_, hm⟩ <;> rcases hi with ⟨h1, h2, h3⟩ | ⟨h1, h2, h3⟩
  · rw [h2, List.any_cons, decide_eq_true (show isIdam cfg _ from ⟨rfl, h1⟩), Bool.true_or, Bool.or_true]
  · rw [h2, List.any_cons, decide_eq_false (fun h : isIdam cfg _ => h1 h.2)]
    simp
  · rw [h3]
    exact (if_pos ⟨rfl, h1⟩).symm
  · rw [h3]
    exact (if_neg fun h : isIdam cfg _ => h1 h.2).symm

/-- One read, looking for the DAM of a sector. -/
theorem Decoder.Read.payload {cfg : Config} {d d' : Decoder} {rec : List Byte} {r c : Nat}
    (hs : d'.synccnt = d.synccnt + 1#32) (hi : d'.idamv = d.idamv) (hl : d'.lastidam = d.lastidam)
    (hv : d'.valid = validAfter cfg d.valid ⟨some r, rec, c, d'.parity⟩)
    (hm : d'.mem = memAfter cfg d.mem ⟨some r, rec, c, d'.parity⟩) :
    Decoder.Read cfg d [⟨some r, rec, c, d'.parity⟩] d' :=
  ⟨hv, hs, rfl, by simp [hi, isIdam], by simp [hl, isIdam], hm⟩

/-- Which sector's DAM is looked for after a header that passed (45_track_decode_encode.md R234). -/
theorem wantedAfter_idam {cfg : Config} (n : Nat) (valid : Word) {hdr : List Byte} {c : Nat} {p : Parity}
    (h : validRecord cfg 0xFE#8 hdr) :
    wantedAfter cfg n valid ⟨none, hdr, c, p⟩ =
      if followUp cfg n valid hdr = true then some (recByte hdr 3).toNat else none := by
  have h1 : isIdam cfg ⟨none, hdr, c, p⟩ := ⟨rfl, h⟩
  have h2 : followUp cfg n valid hdr = true ↔ 1 ≤ (hdr.getD 3 0#8).toNat ∧ (hdr.getD 3 0#8).toNat ≤ n ∧
      valid.getLsbD ((hdr.getD 3 0#8).toNat - 1) = false ∧ (hdr.getD 4 0#8).toNat = cfg.sizeCode := by
    unfold followUp recByte validBit
    simp only [Bool.and_eq_true, decide_eq_true_eq, Bool.not_eq_true', and_assoc]
  exact if_congr ((and_iff_right h1).trans h2.symm) rfl rfl

theorem wantedAfter_rejected {cfg : Config} (n : Nat) (valid : Word) {hdr : List Byte} {c : Nat} {p : Parity}
    (h : ¬ validRecord cfg 0xFE#8 hdr) : wantedAfter cfg n valid ⟨none, hdr, c, p⟩ = none :=
  if_neg fun hx => h hx.1.2

/-- The bit a checked DAM sets (45_track_decode_encode.md R237). -/
theorem validAfter_accepted {cfg : Config} (valid : Word) {rec : List Byte} {r c : Nat} {p : Parity}
    (h : validRecord cfg 0xFB#8 rec) : validAfter cfg valid ⟨some r, rec, c, p⟩ = setValid valid (r - 1) := if_pos h

theorem validAfter_rejected {cfg : Config} (valid : Word) {rec : List Byte} {r c : Nat} {p : Parity}
    (h : ¬ validRecord cfg 0xFB#8 rec) : validAfter cfg valid ⟨some r, rec, c, p⟩ = valid := if_neg h

/-- The slot a checked DAM fills (45_track_decode_encode.md R237). -/
theorem memAfter_accepted {cfg : Config} (mem : Memory) {rec : List Byte} {r c : Nat} {p : Parity}
    (h : validRecord cfg 0xFB#8 rec) :
    memAfter cfg mem ⟨some r, rec, c, p⟩ = mem.store (slotAddr cfg (r - 1)) ((rec.drop 1).take cfg.sectorBytes) := if_pos h

theorem memAfter_rejected {cfg : Config} (mem : Memory) {rec : List Byte} {r c : Nat} {p : Parity}
    (h : ¬ validRecord cfg 0xFB#8 rec) : memAfter cfg mem ⟨some r, rec, c, p⟩ = mem := if_neg h

/-- What a stretch of the loop is as reads of the track, from a header or the DAM of a sector on: those it makes, what goes on
behind them where the loop goes on, and that they end where it ends. -/
structure Decoder.Reads (s : State) (packed : Bool) (n : Nat) (wanted : Option Nat) (d : Decoder) (go : Bool) (d' : Decoder)
    (rs : List TrackRecord) : Prop where
  read : Decoder.Read s.cfg d rs d'
  goes : go = true → rs ≠ [] ∧ d'.reader.cursor = readEnd d.reader.cursor rs ∧ d'.syncreg = magicMfm ∧
    ∀ rest, readsTrack packed s n none d'.valid d'.reader.cursor rest →
      readsTrack packed s n wanted d.valid d.reader.cursor (rs ++ rest)
  ends : go = false → d'.valid = d.valid ∧ readsTrack packed s n wanted d.valid d.reader.cursor rs ∧
    Decoder.RanOut s packed (readEnd d.reader.cursor rs) d'

/-- A sync search that fails is no read. -/
theorem Decoder.Reads.of_fail {s : State} {packed : Bool} {n : Nat} {d d' : Decoder} (wanted : Option Nat)
    (hd : d.reader.At s packed) (h : d.search s.t2.toNat s.t3.toNat = (false, d')) :
    Decoder.Reads s packed n wanted d false d' [] := by
  have h2 := (Decoder.search_false h).2
  refine ⟨?_, (fun h => nomatch h), fun _ => ⟨by rw [h2], .inr (recordBehind_of_fail hd _ h), Decoder.search_ranOut hd h⟩⟩
  subst h2
  constructor <;> simp [validAtEnd, parityAtEnd]

/-- The payload of a sector as reads of the track (45_track_decode_encode.md R235 to R237). -/
theorem Decoder.payload_reads {s : State} {packed : Bool} {d d' : Decoder} (n r : Nat) (hd : d.reader.At s packed) (go : Bool)
    (h : d.payload s.cfg s.t2.toNat s.t3.toNat r = (go, d')) : ∃ rs, Decoder.Reads s packed n (some r) d go d' rs := by
  unfold Decoder.payload at h
  cases hs : d.search s.t2.toNat s.t3.toNat with
  | mk b d1 =>
    rw [hs] at h
    cases b with
    | false =>
      simp only [Prod.mk.injEq] at h
      obtain ⟨rfl, rfl⟩ := h
      exact ⟨[], Decoder.Reads.of_fail _ hd hs⟩
    | true =>
      cases hrec : d1.record s.t2.toNat s.t3.toNat (1 + s.cfg.sectorBytes + 2) with
      | mk rec d2 =>
        obtain ⟨-, hread, hm, hc, hl, hi, hv, hmem⟩ := Decoder.search_record hd hs hrec
        rw [show 1 + s.cfg.sectorBytes + 2 = readLength s.cfg (some r) by rw [readLength]; omega] at hread
        have fin : ∀ x : Decoder, x.reader = d2.reader → x.syncreg = d2.syncreg → x.parity = d2.parity →
            x.synccnt = d2.synccnt → x.idamv = d2.idamv → x.lastidam = d2.lastidam →
            x.valid = validAfter s.cfg d.valid ⟨some r, rec, d2.reader.cursor, x.parity⟩ →
            x.mem = memAfter s.cfg d.mem ⟨some r, rec, d2.reader.cursor, x.parity⟩ →
            Decoder.Reads s packed n (some r) d true x [⟨some r, rec, d2.reader.cursor, x.parity⟩] := by
          intro x e1 e2 e3 e4 e5 e6 e7 e8
          refine ⟨.payload (e4.trans hc) (e5.trans hi) (e6.trans hl) e7 e8,
            fun _ => ⟨List.cons_ne_nil _ _, congrArg Reader.cursor e1, e2.trans hm, fun rest hrest => ?_⟩, fun h => nomatch h⟩
          rw [e1, e7] at hrest
          exact ⟨(fun h => nomatch h), rfl, by rw [e3]; exact hread, hrest⟩
        simp only [hrec] at h
        split at h <;> rename_i hok <;> simp only [Prod.mk.injEq] at h <;> obtain ⟨rfl, rfl⟩ := h
        · refine ⟨_, fin (d2.accept s.cfg r rec) rfl rfl rfl rfl rfl rfl ?_ ?_⟩
          · rw [validAfter_accepted _ (recordOk_valid hok)]
            exact congrArg (fun v => setValid v (r - 1)) hv
          · rw [memAfter_accepted _ (recordOk_valid hok)]
            exact congrArg (fun m : Memory => m.store _ _) hmem
        · refine ⟨_, fin d2 rfl rfl rfl rfl rfl rfl ?_ ?_⟩
          · rw [validAfter_rejected _ fun hx => hok ((recordOk_iff (by decide)).2 hx)]
            exact hv
          · rw [memAfter_rejected _ fun hx => hok ((recordOk_iff (by decide)).2 hx)]
            exact hmem

/-- One pass as reads of the track (45_track_decode_encode.md R232). -/
theorem Decoder.pass_reads {s : State} {packed : Bool} {d d' : Decoder} (n : Nat) (hd : d.reader.At s packed) (go : Bool)
    (hc : validCount d.valid n ≠ n) (h : d.pass s.cfg s.t2.toNat s.t3.toNat n = (go, d')) :
    ∃ rs, Decoder.Reads s packed n none d go d' rs := by
  unfold Decoder.pass at h
  cases hs : d.search s.t2.toNat s.t3.toNat with
  | mk b d1 =>
    rw [hs] at h
    cases b with
    | false =>
      simp only [Prod.mk.injEq] at h
      obtain ⟨rfl, rfl⟩ := h
      exact ⟨[], Decoder.Reads.of_fail _ hd hs⟩
    | true =>
      cases hrec : d1.record s.t2.toNat s.t3.toNat 7 with
      | mk hdr d2 =>
        obtain ⟨hat, hread, hm, hn, hl, hi, hv, hmem⟩ := Decoder.search_record hd hs hrec
        have hcons : ∀ rest, readsTrack packed s n (wantedAfter s.cfg n d.valid ⟨none, hdr, d2.reader.cursor, d2.parity⟩)
            d.valid d2.reader.cursor rest →
            readsTrack packed s n none d.valid d.reader.cursor (⟨none, hdr, d2.reader.cursor, d2.parity⟩ :: rest) :=
          fun rest hr => ⟨fun _ => hc, rfl, hread, hr⟩
        simp only [hrec] at h
        by_cases hok : recordOk s.cfg hdr markIdam = true
        · have hvr : validRecord s.cfg 0xFE#8 hdr := recordOk_valid hok
          have hr1 : Decoder.Read s.cfg d [⟨none, hdr, d2.reader.cursor, d2.parity⟩] (d2.capture hdr) :=
            .header (d' := d2.capture hdr) hv hmem hn (.inl ⟨hvr, rfl, rfl⟩)
          rw [wantedAfter_idam n d.valid hvr] at hcons
          rw [if_pos hok, show (d2.capture hdr).valid = d.valid from hv] at h
          split at h <;> rename_i hfu
          · rw [if_pos hfu] at hcons
            obtain ⟨rs, hp⟩ := Decoder.payload_reads (d := d2.capture hdr) n (recByte hdr 3).toNat hat go h
            refine ⟨_, hr1.trans hp.read, fun hg => ?_, fun hg => ?_⟩
            · obtain ⟨-, h2, h3, h4⟩ := hp.goes hg
              rw [show (d2.capture hdr).valid = d.valid from hv] at h4
              exact ⟨by simp, h2, h3, fun rest hrest => hcons _ (h4 rest hrest)⟩
            · obtain ⟨h1, h2, h3⟩ := hp.ends hg
              rw [show (d2.capture hdr).valid = d.valid from hv] at h1 h2
              exact ⟨h1, hcons _ h2, h3⟩
          · rw [if_neg hfu] at hcons
            simp only [Prod.mk.injEq] at h
            obtain ⟨rfl, rfl⟩ := h
            refine ⟨_, hr1, fun _ => ⟨by simp, rfl, hm, fun rest hrest => hcons _ ?_⟩, (fun h => nomatch h)⟩
            rw [show (d2.capture hdr).valid = d.valid from hv] at hrest
            exact hrest
        · have hvr : ¬ validRecord s.cfg 0xFE#8 hdr := fun hx => hok ((recordOk_iff (by decide)).2 hx)
          rw [wantedAfter_rejected n d.valid hvr] at hcons
          rw [if_neg hok] at h
          simp only [Prod.mk.injEq] at h
          obtain ⟨rfl, rfl⟩ := h
          refine ⟨_, .header hv hmem hn (.inr ⟨hvr, hi, hl⟩), fun _ => ⟨by simp, rfl, hm, fun rest hrest => hcons _ ?_⟩,
            (fun h => nomatch h)⟩
          rw [hv] at hrest
          exact hrest

/-- The loop as reads of the track (45_track_decode_encode.md R232, R238). -/
theorem decodeLoop_reads {s : State} {packed : Bool} (n fuel : Nat) (d : Decoder) (hd : d.reader.At s packed)
    (hf : d.reader.elems.length < fuel) :
    let d' := decodeLoop s.cfg s.t2.toNat s.t3.toNat n fuel d
    ∃ rs, Decoder.Read s.cfg d rs d' ∧ readsTrack packed s n none d.valid d.reader.cursor rs ∧
      if validCount d'.valid n = n then
        d'.reader.cursor = readEnd d.reader.cursor rs ∧ d'.syncreg = if rs = [] then d.syncreg else magicMfm
      else Decoder.RanOut s packed (readEnd d.reader.cursor rs) d' := by
  induction fuel generalizing d with
  | zero => omega
  | succ fuel ih =>
    rw [decodeLoop]
    simp only [countValid_eq]
    split <;> rename_i hn
    · refine ⟨[], ⟨rfl, (BitVec.add_zero _).symm, rfl, (Bool.or_false _).symm, rfl, rfl⟩, .inl ⟨rfl, hn⟩, ?_⟩
      exact ⟨rfl, rfl⟩
    · split <;> rename_i d' he <;> obtain ⟨rs, h⟩ := Decoder.pass_reads n hd _ hn he
      · have hp := Decoder.pass_spec n hd _ _ he
        have hg := hp.goes rfl
        obtain ⟨h1, h2, h3, h4⟩ := h.goes rfl
        obtain ⟨rs', a1, a2, a3⟩ := ih d' hp.at' (by omega)
        refine ⟨rs ++ rs', h.read.trans a1, h4 rs' a2, ?_⟩
        have hend : readEnd d.reader.cursor (rs ++ rs') = readEnd d'.reader.cursor rs' := by
          rw [h2, readEnd, readEnd, readEnd, List.foldl_append]
        rw [hend]
        split <;> rename_i hv
        · rw [if_pos hv] at a3
          refine ⟨a3.1, a3.2.trans ?_⟩
          rw [h3, ite_self, if_neg (by simp [h1])]
        · rwa [if_neg hv] at a3
      · obtain ⟨h1, h2, h3⟩ := h.ends rfl
        refine ⟨rs, h.read, h2, ?_⟩
        rw [h1, if_neg hn]
        exact h3

/-! ## Chains of reads -/

/-- A read takes no valid bit away (45_track_decode_encode.md R240). -/
theorem validAfter_mono (cfg : Config) (v : Word) (r : TrackRecord) (i : Nat) (h : v.getLsbD i = true) :
    (validAfter cfg v r).getLsbD i = true := by
  unfold validAfter
  split
  · exact h
  · split
    · exact validBit_setValid_mono _ _ _ h
    · exact h

/-- Reads take no valid bit away (45_track_decode_encode.md R240). -/
theorem validAtEnd_mono (cfg : Config) (v : Word) (rs : List TrackRecord) (i : Nat) (h : v.getLsbD i = true) :
    (validAtEnd cfg v rs).getLsbD i = true := by
  induction rs generalizing v with
  | nil => exact h
  | cons r rs ih => exact ih _ (validAfter_mono cfg v r i h)

/-- What is looked for at a read inside a chain. -/
theorem readsTrack_split {packed : Bool} {s : State} {n : Nat} {w : Option Nat} {v : Word} {c : Nat} {xs : List TrackRecord}
    {r : TrackRecord} {ys : List TrackRecord} (h : readsTrack packed s n w v c (xs ++ r :: ys)) :
    readsTrack packed s n r.wanted (validAtEnd s.cfg v xs) (readEnd c xs) (r :: ys) ∧
      ((xs = [] ∧ r.wanted = w) ∨ ∃ xs' q, xs = xs' ++ [q] ∧ r.wanted = wantedAfter s.cfg n (validAtEnd s.cfg v xs') q) := by
  induction xs generalizing w v c with
  | nil =>
    obtain ⟨h1, h2, h3⟩ := h
    subst h2
    exact ⟨⟨h1, rfl, h3⟩, .inl ⟨rfl, rfl⟩⟩
  | cons x xs ih =>
    obtain ⟨_, _, _, h4⟩ := h
    obtain ⟨a, b⟩ := ih h4
    refine ⟨a, .inr ?_⟩
    rcases b with ⟨rfl, b⟩ | ⟨xs', q, rfl, b⟩
    · exact ⟨[], x, rfl, b⟩
    · exact ⟨x :: xs', q, rfl, b⟩

/-- What a read that is followed up is (45_track_decode_encode.md R234). -/
theorem wantedAfter_some {cfg : Config} {n : Nat} {v : Word} {r : TrackRecord} {k : Nat} (h : wantedAfter cfg n v r = some k) :
    isIdam cfg r ∧ (r.bytes.getD 3 0#8).toNat = k ∧ 1 ≤ k ∧ k ≤ n ∧ v.getLsbD (k - 1) = false ∧
      (r.bytes.getD 4 0#8).toNat = cfg.sizeCode := by
  unfold wantedAfter at h
  simp only at h
  split at h
  · rename_i hx
    cases h
    exact ⟨hx.1, rfl, hx.2.1, hx.2.2.1, hx.2.2.2.1, hx.2.2.2.2⟩
  · cases h

/-- A read whose DAM is looked for has the IDAM before it. -/
theorem readsTrack_dam {packed : Bool} {s : State} {n : Nat} {v : Word} {c k : Nat} {xs ys : List TrackRecord}
    {r : TrackRecord} (h : readsTrack packed s n none v c (xs ++ r :: ys)) (hr : r.wanted = some k) :
    ∃ xs' hdr, xs = xs' ++ [hdr] ∧ isIdam s.cfg hdr ∧ (hdr.bytes.getD 3 0#8).toNat = k ∧ 1 ≤ k ∧ k ≤ n ∧
      (hdr.bytes.getD 4 0#8).toNat = s.cfg.sizeCode ∧ (validAtEnd s.cfg v xs).getLsbD (k - 1) = false := by
  rcases (readsTrack_split h).2 with ⟨_, h2⟩ | ⟨xs', q, rfl, h2⟩
  · rw [hr] at h2
    cases h2
  · rw [hr] at h2
    obtain ⟨a, b, c, d, e, f⟩ := wantedAfter_some h2.symm
    refine ⟨xs', q, rfl, a, b, c, d, f, ?_⟩
    rw [validAtEnd, List.foldl_append]
    show (validAfter s.cfg (validAtEnd s.cfg v xs') q).getLsbD _ = false
    rw [validAfter, a.1]
    exact e

/-- A valid sector is not looked for again (45_track_decode_encode.md R240, R249). -/
theorem readsTrack_skips {packed : Bool} {s : State} {n : Nat} {w : Option Nat} {v : Word} {c i : Nat} {rs : List TrackRecord}
    (h : readsTrack packed s n w v c rs) (hw : w ≠ some (i + 1)) (hv : v.getLsbD i = true) :
    ∀ y ∈ rs, y.wanted ≠ some (i + 1) := by
  induction rs generalizing w v c with
  | nil => simp
  | cons r rs ih =>
    obtain ⟨_, h2, _, h4⟩ := h
    intro y hy
    rcases List.mem_cons.1 hy with rfl | hy
    · rw [h2]
      exact hw
    · refine ih h4 (fun hx => ?_) (validAfter_mono _ _ _ _ hv) y hy
      have := (wantedAfter_some hx).2.2.2.2.1
      rw [Nat.add_sub_cancel, hv] at this
      cases this

/-- A read writes to no other slot than that of the sector it looks for (45_track_decode_encode.md R237). -/
theorem memAfter_other {cfg : Config} (mem : Memory) (r : TrackRecord) {i k : Nat} (hk : k < cfg.sectorBytes)
    (hr : r.wanted ≠ some (i + 1)) (h0 : r.wanted ≠ some 0) :
    (memAfter cfg mem r).byte? (slotAddr cfg i + k) = mem.byte? (slotAddr cfg i + k) := by
  unfold memAfter
  split
  · rfl
  · rename_i sec hs
    split
    · have hne : sec - 1 ≠ i := by
        intro hx
        rcases Nat.eq_zero_or_pos sec with rfl | hp
        · exact h0 hs
        · exact hr (hs.trans (congrArg some (by omega)))
      have := slot_disjoint (cfg := cfg) hne hk
      rw [Memory.byte?_store, if_neg]
      rw [List.length_take]
      omega
    · rfl

end Sys2Proof.Machine
end

