-- ==== Sys2Proof/Laws/Sectors.lean ====
section
/-! SUPPORT. The cells of a track layout, and one pass of DECODE over one sector of it. -/

namespace Sys2Proof.Machine

theorem mfmCells_append (p : Bool) (xs ys : List Bool) : mfmCells p (xs ++ ys) = mfmCells p xs ++ mfmCells
    (xs.getLast?.getD p) ys := by
  induction xs generalizing p with
  | nil => rfl
  | cons x xs ih =>
    have e2 : (x :: xs).getLast?.getD p = xs.getLast?.getD x := by cases xs <;> simp [List.getLast?_cons]
    rw [e2]; simp [mfmCells, ih]

theorem bitsOf_append (a b : List Byte) : bitsOf (a ++ b) = bitsOf a ++ bitsOf b := by simp [bitsOf]

theorem bits8_last (b : Byte) (p : Bool) : (((List.range 8).map (fun j => b.getLsbD (7 - j))).getLast?).getD p =
    b.getLsbD 0 := by
  simp [List.range_succ]

theorem itemsCells_bytes (p : Bool) (bs : List Byte) (is : List Item) :
    itemsCells p (bs.map .byte ++ is) = mfmCells p (bitsOf bs) ++ itemsCells ((bitsOf bs).getLast?.getD p) is := by
  induction bs generalizing p with
  | nil => rfl
  | cons b bs ih =>
    have e : bitsOf (b :: bs) = (List.range 8).map (fun j => b.getLsbD (7 - j)) ++ bitsOf bs := rfl
    rw [e, mfmCells_append, bits8_last, List.map_cons, List.cons_append, itemsCells, ih, List.append_assoc]
    have e2 : ((List.range 8).map (fun j => b.getLsbD (7 - j)) ++ bitsOf bs).getLast?.getD p = (bitsOf bs).getLast?.getD (b.getLsbD 0) := by
      cases h : bitsOf bs with
      | nil => rw [List.append_nil, bits8_last]; rfl
      | cons x xs => rw [List.getLast?_append]; simp [List.getLast?_cons]
    rw [e2]

theorem fill_eq (k : Nat) (b : Byte) : fill k b = (List.replicate k b).map .byte := by simp [fill]

theorem itemsCells_a1 (p : Bool) (is : List Item) : itemsCells p (List.replicate 3 (.word syncA1) ++ is) = a1Cells ++
    itemsCells true is := by
  have : itemsCells p (List.replicate 3 (.word syncA1) ++ is) = wordCells syncA1 ++ (wordCells syncA1 ++ (wordCells syncA1 ++ itemsCells (syncA1.getLsbD 0) is)) := rfl
  rw [this]
  have e : syncA1.getLsbD 0 = true := by decide
  rw [e, ← List.append_assoc, ← List.append_assoc]; rfl

theorem itemsCells_c2 (p : Bool) (is : List Item) : itemsCells p (List.replicate 3 (.word syncC2) ++ is) = c2Cells ++
    itemsCells false is := by
  have : itemsCells p (List.replicate 3 (.word syncC2) ++ is) = wordCells syncC2 ++ (wordCells syncC2 ++ (wordCells syncC2 ++ itemsCells (syncC2.getLsbD 0) is)) := rfl
  rw [this]
  have e : syncC2.getLsbD 0 = false := by decide
  rw [e, ← List.append_assoc, ← List.append_assoc]; rfl

/-- The gap before a header record. -/
def preBytes (cfg : Config) : List Byte := List.replicate cfg.gap1 gapByte ++ List.replicate cfg.gapPresync 0x00#8

/-- The gap before a data record. -/
def midBytes (cfg : Config) : List Byte := List.replicate cfg.gap2 gapByte ++ List.replicate cfg.gapPresync 0x00#8

/-- The gap behind a sector. -/
def postBytes (cfg : Config) : List Byte := List.replicate cfg.gap3 gapByte

/-- The cells of one sector. -/
theorem itemsCells_sector (cfg : Config) (cyl head : Byte) (r : Nat) (pay : List Byte) (p : Bool) (is : List Item) :
    itemsCells p (sectorItems cfg cyl head r pay ++ is) =
      mfmCells p (bitsOf (preBytes cfg)) ++ a1Cells ++
        (mfmCells true (bitsOf (withCrc cfg (idamBody cfg cyl head r)) ++ bitsOf (midBytes cfg)) ++ a1Cells ++
          (mfmCells true (bitsOf (withCrc cfg (markDam :: pay)) ++ bitsOf (postBytes cfg)) ++
            itemsCells ((bitsOf (withCrc cfg (markDam :: pay)) ++ bitsOf (postBytes cfg)).getLast?.getD true) is)) := by
  have e : sectorItems cfg cyl head r pay ++ is = (preBytes cfg).map .byte ++ (List.replicate 3 (.word syncA1) ++
     ((withCrc cfg (idamBody cfg cyl head r) ++ midBytes cfg).map .byte ++ (List.replicate 3 (.word syncA1) ++ ((withCrc cfg (markDam :: pay) ++ postBytes cfg).map .byte ++ is)))) := by
    simp only [sectorItems, recordItems, fill_eq, preBytes, midBytes, postBytes, List.map_append, List.append_assoc]
  rw [e, itemsCells_bytes, itemsCells_a1, itemsCells_bytes, itemsCells_a1, itemsCells_bytes, bitsOf_append, bitsOf_append]
  simp only [List.append_assoc]

/-- The cells of the index mark. -/
theorem itemsCells_index (cfg : Config) (p : Bool) (is : List Item) :
    itemsCells p (indexItems cfg ++ is) = mfmCells p (bitsOf (List.replicate cfg.gap4a gapByte ++ List.replicate cfg.gapPresync 0x00#8)) ++ (c2Cells ++ fcCells) ++ itemsCells false is := by
  have e : indexItems cfg ++ is = (List.replicate cfg.gap4a gapByte ++ List.replicate cfg.gapPresync 0x00#8).map .byte ++ (List.replicate 3 (.word syncC2) ++ ([markIam].map .byte ++ is)) := by
    simp only [indexItems, fill_eq, List.map_append, List.append_assoc]; rfl
  rw [e, itemsCells_bytes, itemsCells_c2, itemsCells_bytes]
  have e3 : (bitsOf [markIam]).getLast?.getD false = false := by decide
  have e4 : mfmCells false (bitsOf [markIam]) = fcCells := by decide
  rw [e3, e4]; simp only [List.append_assoc]

/-- Intervals of a layout are at most 4 cells. -/
theorem items_le4 (p : Bool) (run : Nat) (is : List Item) (hw : ∀ i ∈ is, ∀ w, i = .word w → w = syncA1 ∨ w = syncC2)
    (h : run ≤ 2) (hp : p = true → run = 0) : ∀ k ∈ intervals run (itemsCells p is), k ≤ 4 := by
  have bits : ∀ (ds : List Bool) (p : Bool) (run : Nat), run ≤ 2 → (p = true → run = 0) →
      (∀ k ∈ intervals run (mfmCells p ds), k ≤ 4) ∧ openRun run (mfmCells p ds) ≤ 2 ∧ (ds.getLast?.getD p = true → openRun run (mfmCells p ds) = 0) := by
    intro ds
    induction ds with
    | nil => intro p run h hp; exact ⟨by simp [mfmCells, intervals], h, hp⟩
    | cons d ds ih =>
      intro p run h hp
      have e2 : (d :: ds).getLast?.getD p = ds.getLast?.getD d := by cases ds <;> simp [List.getLast?_cons]
      rw [e2]
      cases p <;> cases d <;> simp only [mfmCells, Bool.or_false, Bool.or_true, Bool.not_false, Bool.not_true, intervals, openRun, List.mem_cons]
      · obtain ⟨a, b, c⟩ := ih false 1 (by omega) (by simp)
        exact ⟨fun k hk => by rcases hk with rfl | hk; omega; exact a k hk, b, c⟩
      · obtain ⟨a, b, c⟩ := ih true 0 (by omega) (by simp)
        exact ⟨fun k hk => by rcases hk with rfl | hk; omega; exact a k hk, b, c⟩
      · have := hp rfl
        obtain ⟨a, b, c⟩ := ih false (run + 1 + 1) (by omega) (by simp)
        exact ⟨a, b, c⟩
      · have := hp rfl
        obtain ⟨a, b, c⟩ := ih true 0 (by omega) (by simp)
        exact ⟨fun k hk => by rcases hk with rfl | hk; omega; exact a k hk, b, c⟩
  induction is generalizing p run with
  | nil => simp [itemsCells, intervals]
  | cons i is ih =>
    have hw' : ∀ i ∈ is, ∀ w, i = .word w → w = syncA1 ∨ w = syncC2 := fun x hx => hw x (by simp [hx])
    cases i with
    | byte b =>
      rw [itemsCells, intervals_append]
      obtain ⟨x, y, z⟩ := bits ((List.range 8).map (fun j => b.getLsbD (7 - j))) p run h hp
      rw [bits8_last] at z
      intro k hk
      rcases List.mem_append.1 hk with hk | hk
      · exact x k hk
      · exact ih _ _ hw' y z k hk
    | word w =>
      have hw1 := hw (.word w) (by simp) w rfl
      rw [itemsCells, intervals_append]
      intro k hk
      have key : (w.getLsbD 0 = true → openRun run (wordCells w) = 0) ∧ openRun run (wordCells w) ≤ 2 ∧ ∀ k ∈ intervals run (wordCells w), k ≤ 4 := by
        have : run = 0 ∨ run = 1 ∨ run = 2 := by omega
        rcases hw1 with rfl | rfl <;> rcases this with rfl | rfl | rfl <;> decide
      rcases List.mem_append.1 hk with hk | hk
      · exact key.2.2 k hk
      · exact ih _ _ hw' key.2.1 key.1 k hk

/-- What fits does not depend on what comes behind it. -/
theorem fitCount_append (room : Nat) (L G : List (List Byte)) (h : L.length ≤ fitCount room L) : L.length ≤ fitCount
    room (L ++ G) := by
  induction L generalizing room with
  | nil => simp
  | cons e L ih =>
    simp only [fitCount, List.cons_append, List.length_cons] at *
    split at h
    · rw [if_pos ‹_›]; have := ih (room - e.length) (by omega); omega
    · omega

theorem fitCount_le' (room : Nat) (L : List (List Byte)) : fitCount room L ≤ L.length := fitCount_le room L

/-- One pass of DECODE over one sector as ENCODE writes it. -/
theorem pass_reads {cfg : Config} {t1 t2 t3 n : Nat} (hT : Thr t1 t2 t3) {d : Decoder} {a ks2 : List Nat} {hdr dam : List Byte}
    {mid : List Bool} {Q : Reader → Prop}
    (hr : Reads d.reader t1 (a ++ magicIntervals ++ (intervals 0 (mfmCells true (bitsOf hdr ++ mid) ++ [false, true]) ++ magicIntervals ++ ks2)))
    (ha : Clean a) (ha1 : ∀ k ∈ a, 1 ≤ k) (hh : hdr.length = 7) (hok : recordOk cfg hdr markIdam = true) (hfu : followUp cfg n d.valid hdr = true)
    (hdl : dam.length = 1 + cfg.sectorBytes + 2) (hdok : recordOk cfg dam markDam = true)
    (hq : ∀ r', Reads r' t1 ks2 → ∃ r'' p, r'.demod t2 t3 dam.length .clock = (dam, r'', p) ∧ Q r'') :
    ∃ d', d.pass cfg t2 t3 n = (true, d') ∧ Q d'.reader ∧ d'.synccnt = d.synccnt + 1#32 + 1#32 ∧ d'.lastidam = idamWord hdr ∧
      d'.valid = setValid d.valid ((recByte hdr 3).toNat - 1) ∧
      d'.mem = d.mem.store (slotAddr cfg ((recByte hdr 3).toNat - 1)) ((dam.drop 1).take cfg.sectorBytes) := by
  obtain ⟨r1, e1, f1⟩ := syncSearch_finds hT hr ha ha1
  have f1' : Reads r1 t1 (intervals 0 (mfmCells true (bitsOf hdr ++ mid) ++ [false, true]) ++ (magicIntervals ++ ks2)) := by
    rw [← List.append_assoc]; exact f1
  obtain ⟨r2, p2, e2, a', ca', pa', f2⟩ := demod_after_mark hT f1'
  rw [← List.append_assoc] at f2
  obtain ⟨r3, e3, f3⟩ := syncSearch_finds hT f2 ca' pa'
  obtain ⟨r4, p4, e4, f4⟩ := hq r3 f3
  rw [hh] at e2
  rw [hdl] at e4
  have s1 : d.search t2 t3 = (true, { d with reader := r1, syncreg := magicMfm, parity := .clock, synccnt := d.synccnt + 1#32 }) := by
    unfold Decoder.search; rw [e1]; simp
  refine ⟨({ ({ ({ d with reader := r1, syncreg := magicMfm, parity := .clock, synccnt := d.synccnt + 1#32 } : Decoder) with reader := r2, parity := p2, lastidam := idamWord hdr, idamv := true } : Decoder) with reader := r4, syncreg := magicMfm, parity := p4, synccnt := d.synccnt + 1#32 + 1#32 } : Decoder).accept cfg (recByte hdr 3).toNat dam, ?_, f4, rfl, rfl, rfl, rfl⟩
  unfold Decoder.pass
  rw [s1]
  simp only [Decoder.record, e2, hok, if_true, Decoder.capture, hfu]
  unfold Decoder.payload
  simp only [Decoder.search, e3, if_true, Decoder.record, e4, hdok]

end Sys2Proof.Machine
end

