-- ==== Sys2Proof/Tests/Slice0.lean ====
section
/-! SUPPORT. Tests on fixed values taken from the spec's encodings and from 95_test_vectors.md, and witnesses: states and
operands that meet the hypotheses of the statements. -/
namespace Sys2Proof.Tests

open Sys2Proof Sys2Proof.Machine

-- One theorem after the other: elaborated all at once, each would hold a thread of its own.
set_option Elab.async false

/-! ## Helpers -/

/-- The next state of a step, if there is one. -/
def after (o : Host.Outcome State Fault Refusal) : Option State :=
  match o with
  | .next s => some s
  | .fault _ => none
  | .refused _ => none

/-- A property of the next state of a step, which exists. -/
def reaches (o : Host.Outcome State Fault Refusal) (p : State → Bool) : Bool := (after o).any p

theorem next_of_reaches {o : Host.Outcome State Fault Refusal} {p : State → Bool} (h : reaches o p = true) :
    ∃ t, o = .next t ∧ p t = true := by
  cases o with
  | next s => exact ⟨s, rfl, by simpa [reaches, after] using h⟩
  | fault r => simp [reaches, after] at h
  | refused r => simp [reaches, after] at h

/-- No flag set. -/
def f0 : Flags := ⟨false, false, false⟩

/-- P set. -/
def fP : Flags := ⟨true, false, false⟩

/-- C set. -/
def fC : Flags := ⟨false, true, false⟩

/-- F set. -/
def fF : Flags := ⟨false, false, true⟩

/-- The default block with the thresholds of 95_test_vectors.md. -/
def base : State := { State.reset with t1 := 40#16, t2 := 100#32, t3 := 140#32 }

/-- A block with small parameters, all legal. -/
def small : State := { base with cfg := ⟨0, 2, 4096, 1, 1, 1, 1, 1, 1, 1, 1, 0xFFFF#16⟩ }

/-- A pulse stream placed in PULSE. -/
def withPulse (bytes : List Byte) (s : State) : State :=
  { s with mem := Memory.cells pulseBase bytes, plen := BitVec.ofNat 32 bytes.length }

/-- Bytes placed in REC and counted in ARG0. -/
def withRec (bytes : List Byte) (s : State) : State :=
  { s with mem := Memory.cells recBase bytes, arg0 := BitVec.ofNat 32 bytes.length }

/-- A command pending. -/
def pending (w : Word) (s : State) : State := s.issue w

/-- The first `n` bytes of PULSE. -/
def pulse (n : Nat) (s : State) : List Byte := s.readBytes pulseBase n

/-- Two zero bytes and three SYNC_A1 words (95_test_vectors.md V-SYNC-1, durations 0 to 30). -/
def markStream : List Byte :=
  [40, 80, 80, 80, 80, 80, 80, 80, 80, 80, 80, 80, 80, 80, 80, 80].map (BitVec.ofNat 8)
    ++ [120, 160, 120, 160, 120, 80, 160, 120, 160, 120, 80, 160, 120, 160, 120].map (BitVec.ofNat 8)

/-- The stream of 95_test_vectors.md V-SYNC-1. -/
def headerStream : List Byte :=
  markStream
    ++ [80, 80, 80, 80, 80, 80, 80, 120, 80, 80, 80, 80, 80, 80, 80, 80, 80, 80, 80, 80].map (BitVec.ofNat 8)
    ++ [80, 80, 80, 80, 80, 80, 80, 80, 80, 80, 120, 120, 80, 80, 80, 80, 120, 160, 80, 120].map (BitVec.ofNat 8)
    ++ [120, 160, 120, 120, 80, 160, 80, 80, 80, 160, 120, 120, 80, 80, 120, 120, 120, 120, 80, 80].map (BitVec.ofNat 8)

/-! ## Well-formedness: a term each check refuses (30_encoding.md R98) -/

theorem test_gw1_lead_not_zero : WellFormed (.gw1 0x00#8) = false := by decide
theorem test_gw1_lead_at_most_f9 : WellFormed (.gw1 0xFA#8) = false := by decide
theorem test_gw2_lead_at_least_fa : WellFormed (.gw2 0xF9#8 0x01#8) = false := by decide
theorem test_gw2_lead_at_most_fe : WellFormed (.gw2 0xFF#8 0x01#8) = false := by decide
theorem test_gw2_second_not_zero : WellFormed (.gw2 0xFA#8 0x00#8) = false := by decide
theorem test_gw2End_lead_in_range : WellFormed (.gw2End 0xF9#8) = false ∧ WellFormed (.gw2End 0xFF#8) = false := by decide
theorem test_gw6Skip_second_not_two : WellFormed (.gw6Skip 0x02#8 0x00#8 0x00#8 0x00#8 0x00#8) = false := by decide

/-! ## Decoding: a word of every constructor, written from 30_encoding.md R91, R92, R98 -/

theorem test_decode_nop : decodeTableWord 32 0x00000000 = some (.nop ⟨false, false, false⟩) := by decide
theorem test_decode_classify : decodeTableWord 32 0x00000401 = some (.classify ⟨false, false, true⟩) := by decide
theorem test_decode_readsym : decodeTableWord 32 0x00000102 = some (.readsym ⟨true, false, false⟩) := by decide
theorem test_decode_sync : decodeTableWord 32 0x00000103 = some (.sync ⟨true, false, false⟩) := by decide
theorem test_decode_demod : decodeTableWord 32 0x00000504 = some (.demod ⟨true, false, true⟩) := by decide
theorem test_decode_crc : decodeTableWord 32 0x00000005 = some (.crc ⟨false, false, false⟩) := by decide
theorem test_decode_pack : decodeTableWord 32 0x00000106 = some (.pack ⟨true, false, false⟩) := by decide
theorem test_decode_unpack : decodeTableWord 32 0x00000207 = some (.unpack ⟨false, true, false⟩) := by decide
theorem test_decode_mod : decodeTableWord 32 0x00000108 = some (.mod ⟨true, false, false⟩) := by decide
theorem test_decode_decode : decodeTableWord 32 0x00000309 = some (.decode ⟨true, true, false⟩) := by decide
theorem test_decode_encode : decodeTableWord 32 0x0000010A = some (.encode ⟨true, false, false⟩) := by decide
theorem test_decode_clrvalid : decodeTableWord 32 0x0000000B = some (.clrvalid ⟨false, false, false⟩) := by decide
theorem test_decode_markwr : decodeTableWord 32 0x0000070C = some (.markwr ⟨true, true, true⟩) := by decide
theorem test_decode_end : decodeTableWord 8 0x00 = some .endMark := by decide
theorem test_decode_gw1 : decodeTableWord 8 0xF9 = some (.gw1 0xF9#8) := by decide
theorem test_decode_gw2 : decodeTableWord 16 0x33FA = some (.gw2 0xFA#8 0x33#8) := by decide
theorem test_decode_gw2End : decodeTableWord 16 0x00FE = some (.gw2End 0xFE#8) := by decide
theorem test_decode_gw6 : decodeTableWord 48 0x010117EB02FF = some (.gw6 0xEB#8 0x17#8 0x01#8 0x01#8) := by decide
theorem test_decode_gw6Skip :
    decodeTableWord 48 0x0C0B0A0903FF = some (.gw6Skip 0x03#8 0x09#8 0x0A#8 0x0B#8 0x0C#8) := by decide
theorem test_decode_reserved :
    decodeTableWord 32 0x0000000D = none ∧ decodeTableWord 32 0x000000FF = none ∧ decodeTableWord 32 0x00000809 = none := by
  decide

/-! ## The commands (expected values from 95_test_vectors.md) -/

/-- V-SYS-1. -/
theorem test_nop_sets_done : reaches (step (State.reset.withFetchWord 32 0)) (fun t => t.statusWord == 2#32) = true := by
  decide

/-- V-CLS-3, V-CLS-4, V-CLS-5. -/
theorem test_classify_boundaries :
    reaches (exec (.classify f0) { base with arg0 := 101#32 }) (fun t => t.result == 1#32) = true ∧
    reaches (exec (.classify f0) { base with arg0 := 140#32 }) (fun t => t.result == 1#32) = true ∧
    reaches (exec (.classify f0) { base with arg0 := 141#32 }) (fun t => t.result == 2#32) = true := by decide

/-- V-CLS-8 and 41_classifier_sync.md R121: no Medium when T2 ≥ T3 (log 25). -/
theorem test_classify_no_medium :
    reaches (exec (.classify f0) { State.reset with t2 := 140#32, t3 := 100#32, arg0 := 140#32 })
      (fun t => t.result == 0#32) = true ∧
    reaches (exec (.classify f0) { State.reset with t2 := 140#32, t3 := 100#32, arg0 := 141#32 })
      (fun t => t.result == 2#32) = true := by decide

/-- V-RS-1, the second READSYM. -/
theorem test_readsym_medium :
    reaches (exec (.readsym f0) { withPulse [40#8, 120#8, 160#8] base with cursor := 1#32 })
      (fun t => t.result == 1#32 && t.cursor == 2#32 && !t.status.eof) = true := by decide +kernel

/-- V-RS-3: an unknown escape, then END; CURSOR does not move. -/
theorem test_readsym_skip_to_end :
    reaches (exec (.readsym fP) (withPulse [0xFF#8, 0x03#8, 9#8, 9#8, 9#8, 9#8, 0#8] base))
      (fun t => t.result == 0x100#32 && t.cursor == 0#32 && t.status.eof) = true := by decide +kernel

/-- V-SYNC-1: found at CURSOR 31. -/
theorem test_sync_finds_the_mark :
    reaches (exec (.sync f0) (withPulse headerStream base))
      (fun t => t.result == 1#32 && t.cursor == 31#32 && t.syncreg == 0x9926499#28 && t.status.sync && !t.status.eof) = true := by
  decide +kernel

/-- V-SYNC-4: Short symbols only. -/
theorem test_sync_fails_on_shorts :
    reaches (exec (.sync f0) (withPulse (List.replicate 20 80#8) base))
      (fun t => t.result == 0#32 && t.cursor == 20#32 && t.syncreg == 0#28 && t.status.eof) = true := by decide +kernel

/-- V-DEM-5: a Medium, then sentinels. -/
theorem test_demod_medium_then_sentinels :
    reaches (exec (.demod f0) { withPulse [120#8] base with arg0 := 1#32 })
      (fun t => t.readBytes recBase 1 == [0#8] && t.cursor == 1#32 && t.dstate.parity == .data) = true := by decide +kernel

/-- V-SYNC-1: DEMOD 7 behind the mark. -/
theorem test_demod_header :
    reaches (exec (.demod f0) { withPulse headerStream base with arg0 := 7#32, cursor := 31#32 })
      (fun t => t.readBytes recBase 7 == [0xFE#8, 0#8, 0#8, 1#8, 2#8, 0xCA#8, 0x6F#8] && t.cursor == 80#32
        && t.dstate.parity == .clock) = true := by decide +kernel

/-- V-CRC-7. -/
theorem test_crc_header :
    reaches (exec (.crc f0) { withRec [0xFE#8, 0#8, 0#8, 1#8, 2#8] base with arg1 := 0xCDB4#32 })
      (fun t => t.result == 0xCA6F#32) = true := by decide +kernel

/-- V-CRC-12, ASCII "123456789". -/
theorem test_crc_check_string :
    reaches (exec (.crc f0)
        { withRec [0x31#8, 0x32#8, 0x33#8, 0x34#8, 0x35#8, 0x36#8, 0x37#8, 0x38#8, 0x39#8] base with arg1 := 0xFFFF#32 })
      (fun t => t.result == 0x29B1#32) = true := by decide +kernel

/-- V-PACK-12: 100000. -/
theorem test_pack_escape :
    reaches (exec (.pack f0) { base with arg0 := 100000#32, outcap := 8#32 })
      (fun t => pulse 6 t == [0xFF#8, 0x02#8, 0x41#8, 0x1B#8, 0x0D#8, 0x01#8] && t.wpos == 6#32 && t.result == 6#32) = true := by
  decide +kernel

/-- V-BPK-1: PACK 2000 into two bytes of room. -/
theorem test_pack_terminates_a_full_buffer :
    reaches (exec (.pack f0) { base with arg0 := 2000#32, wpos := 3#32, outcap := 5#32 })
      (fun t => t.readBytes (pulseBase + 3) 1 == [0#8] && t.plen == 4#32 && t.result == 1#32 && t.status.full) = true := by
  decide +kernel

/-- V-PARSE-8: bit 0 of a payload byte is ignored. -/
theorem test_unpack_escape :
    reaches (exec (.unpack f0) (withPulse [0xFF#8, 0x02#8, 0xEA#8, 0x16#8, 0#8, 0#8] base))
      (fun t => t.result == 1525#32 && t.cursor == 6#32 && t.status.eof) = true := by decide +kernel

/-- V-PARSE-2: a zero second byte ends the stream. -/
theorem test_unpack_zero_second_byte :
    reaches (exec (.unpack f0) (withPulse [0xFA#8, 0#8] base))
      (fun t => t.result == 0x80000000#32 && t.cursor == 0#32) = true := by decide +kernel

/-- V-MOD-1: one SYNC_A1. -/
theorem test_mod_sync_word :
    reaches (exec (.mod f0) { base with arg0 := 1#32, arg1 := 1#32, outcap := 1000#32 })
      (fun t => pulse 5 t == [80#8, 160#8, 120#8, 160#8, 120#8] && t.result == 5#32 && t.plen == 5#32 && t.dstate.encPrev
        && t.dstate.encRun == 0#4 && !t.status.trunc) = true := by decide +kernel

/-- V-MOD-6: a pending run of 15 saturates the first byte. -/
theorem test_mod_saturates :
    reaches (exec (.mod f0) { withRec [0#8] base with dstate := ⟨.clock, true, 15#4⟩, outcap := 1000#32 })
      (fun t => pulse 7 t == [255#8, 80#8, 80#8, 80#8, 80#8, 80#8, 80#8] && t.result == 7#32 && !t.dstate.encPrev
        && t.dstate.encRun == 1#4) = true := by decide +kernel

/-- V-DEC-5: a header with no data record. -/
theorem test_decode_header_only :
    reaches (exec (.decode fC) { withPulse headerStream base with nsect := 1#8 })
      (fun t => t.result == 0#32 && t.synccnt == 1#32 && t.lastidam == 0x02010000#32 && t.status.idamv && t.cursor == 91#32
        && t.status.eof) = true := by decide +kernel

/-- A track with one small sector of 0xAA, worked out from 30_encoding.md R101 to R103 and 44_line_code.md R205: a mark, the
header FE 00 00 01 00 with its CRC, a mark, the data record, a gap byte; no gaps and no presync in front. -/
def sectorStream : List Byte :=
  ([80, 160, 120, 160, 120, 80, 160, 120, 160, 120, 80, 160, 120, 160, 120].map (BitVec.ofNat 8))
    ++ List.replicate 7 80#8 ++ [120#8] ++ List.replicate 22 80#8
    ++ ([120, 120, 80, 80, 80, 80, 80, 80, 120, 80, 80, 160, 160, 120, 80, 120].map (BitVec.ofNat 8))
    ++ ([160, 80, 160, 80, 160, 120, 160, 120, 80, 160, 120, 160, 120, 80, 160, 120, 160, 120].map (BitVec.ofNat 8))
    ++ List.replicate 5 80#8 ++ [160#8, 80#8, 80#8] ++ List.replicate 512 160#8
    ++ ([80, 120, 80, 80, 80, 120, 160, 80, 80, 120, 80, 80, 80, 120, 120, 120, 80, 80].map (BitVec.ofNat 8))

/-- The small block with that capture. -/
def sectorCapture : State := { withPulse sectorStream small with nsect := 1#8 }

set_option maxRecDepth 100000 in
/-- 45_track_decode_encode.md R232 to R239 on that stream. -/
theorem test_decode_sector :
    reaches (exec (.decode f0) sectorCapture)
      (fun t => t.result == 1#32 && t.valid == 1#32 && t.synccnt == 2#32 && t.lastidam == 0x00010000#32
        && t.readBytes trackBase 128 == List.replicate 128 0xAA#8) = true := by decide +kernel

/-- V-ENC-1: the first durations. -/
theorem test_encode_first_durations :
    reaches (exec (.encode f0) { base with nsect := 1#8, outcap := 12#32 })
      (fun t => pulse 12 t == [40#8, 120#8, 120#8, 120#8, 80#8, 80#8, 120#8, 120#8, 120#8, 120#8, 80#8, 80#8]
        && t.result == 12#32 && t.status.trunc && t.status.full) = true := by decide +kernel

/-- V-ENC-5. -/
theorem test_encode_no_room :
    reaches (exec (.encode f0) { base with nsect := 1#8, wpos := 7#32 })
      (fun t => t.result == 0#32 && t.plen == 0#32 && t.wpos == 0#32 && t.status.trunc && t.status.full) = true := by
  decide +kernel

/-- V-TB-2. -/
theorem test_clrvalid :
    reaches (exec (.clrvalid f0) { base with valid := 0x3FFFF#32 }) (fun t => t.valid == 0#32) = true := by decide

/-- V-TB-1. -/
theorem test_markwr :
    reaches (exec (.markwr f0) { base with nsect := 18#8, arg0 := 17#32 })
      (fun t => t.valid == 0x20000#32 && t.cache.dirty) = true := by decide

/-- V-ERR-6. -/
theorem test_markwr_bad_arg :
    reaches (exec (.markwr f0) { base with nsect := 18#8, arg0 := 18#32 })
      (fun t => t.statusWord == 0x36#32 && t.valid == 0#32 && !t.cache.dirty) = true := by decide

/-! ## The element forms, fetched at CURSOR -/

/-- V-PARSE-1. -/
theorem test_end_element :
    reaches (step (base.withFetchWord 8 0x00)) (fun t => t.result == 0x80000000#32 && t.cursor == 0#32) = true := by
  decide +kernel

/-- V-PARSE-10. -/
theorem test_gw1_element :
    reaches (step (base.withFetchWord 8 0x28)) (fun t => t.result == 40#32 && t.cursor == 1#32 && t.status.eof) = true := by
  decide +kernel

/-- V-PACK-16, 300. -/
theorem test_gw2_element :
    reaches (step (base.withFetchWord 16 0x33FA)) (fun t => t.result == 300#32 && t.cursor == 2#32) = true := by
  decide +kernel

/-- V-PARSE-2. -/
theorem test_gw2End_element :
    reaches (step (base.withFetchWord 16 0x00FA)) (fun t => t.result == 0x80000000#32 && t.cursor == 0#32) = true := by
  decide +kernel

/-- V-PACK-11, 16384. -/
theorem test_gw6_element :
    reaches (step (base.withFetchWord 48 0x0103010102FF)) (fun t => t.result == 16384#32 && t.cursor == 6#32) = true := by
  decide +kernel

/-- V-PARSE-5. -/
theorem test_gw6Skip_element :
    reaches (exec (.gw6Skip 3#8 9#8 9#8 9#8 9#8) (withPulse [0xFF#8, 3#8, 9#8, 9#8, 9#8, 9#8, 0x28#8] base))
      (fun t => t.result == 40#32 && t.cursor == 7#32) = true := by decide +kernel

/-! ## Errors, the host and its sequences -/

/-- V-ERR-3: ILLEGAL_CMD wins over the FM refusal and BAD_CONFIG. -/
theorem test_illegal_wins : reaches (step (pending 0x00000C09#32 base)) (fun t => t.statusWord == 0x16#32) = true := by
  decide +kernel

/-- V-SYS-4: a busy read, then the command, then `ack`. -/
theorem test_busy_read :
    let t := (pending 0#32 base).hostRead Reg.t2.addr .word
    reaches (step t) (fun u => u.statusWord == 0x2002#32
      && (u.hostWrite Reg.status.addr .word 0x2006#32).statusWord == 0#32) = true := by decide +kernel

/-- V-SYS-5: a misaligned register access. -/
theorem test_bus_error :
    (base.hostRead 0x000001#21 .word).hostFault = some ⟨0x000001#21, .word⟩ ∧
    (base.hostRead 0x000001#21 .word).status = base.status := by decide +kernel

/-- V-HOST-1. -/
theorem test_block_mapping :
    blockPlace 18 2879 = (79, 1, 17) ∧ blockPlace 18 19 = (0, 1, 1) ∧ blockPlace 18 40 = (1, 0, 4) ∧
    blockInRange FormatName.f1440K.info 2880 = false := by decide

/-- V-HOST-2. -/
theorem test_boot_signature :
    bootSignature 0xEB#8 0x1E#8 0x90#8 = true ∧ bootSignature 0xEB#8 0x1D#8 0x90#8 = false ∧
    bootSignature 0xE9#8 0x3C#8 0x90#8 = false ∧ bootSignature 0xEB#8 0x3C#8 0x00#8 = false := by decide

/-- V-HOST-5. -/
theorem test_thresholds :
    thresholds 40000000 2000 = (80, 200, 280) ∧ thresholds 40000000 867 = (34, 86, 121) ∧
    thresholds 40000000 1667 = (66, 166, 233) := by decide

/-! ## Witnesses: states and operands that meet the hypotheses of the statements -/

/-- A pending command with a list of turns. -/
def waiting (w : Word) (ts : List Turn) : State := { pending w base with turns := ts }

/-- A block whose host has faulted. -/
def faulted : State := { base with hostFault := some ⟨0x1FFFFF#21, .byte⟩ }

theorem witness_DecodeOfEncode :
    WellFormed (.decode fC) = true ∧ encode (.decode fC) = .command 0x00000209#32 ∧
    WellFormed (.gw2 0xFE#8 0xFF#8) = true ∧ encode (.gw2 0xFE#8 0xFF#8) = .element [0xFE#8, 0xFF#8] := by decide

theorem witness_EncodeOfDecode :
    decodeCommand 0x0000070C#32 = .ok (.markwr ⟨true, true, true⟩) ∧
    decodeElement [0xFF#8, 0x00#8, 1#8, 2#8, 3#8, 4#8, 5#8] = .ok (.gw6Skip 0x00#8 1#8 2#8 3#8 4#8, [5#8]) := ⟨rfl, rfl⟩

/-- The first and last reserved opcode and the lowest reserved bit, on each turn of the block, and the last opcode. -/
theorem witness_IllegalCommandWords :
    (∀ n ∈ [0x0D, 0xFF, 0x800], ∀ ts ∈ [[], [.poll], [.block, .reset]],
      (waiting (BitVec.ofNat 32 n) ts).phase = .pending ∧ (waiting (BitVec.ofNat 32 n) ts).turns = ts ∧
        (0x0D ≤ (waiting (BitVec.ofNat 32 n) ts).cmd.toNat % 256 ∨
          (waiting (BitVec.ofNat 32 n) ts).cmd.toNat / 2048 ≠ 0)) ∧
    (waiting 0x70C#32 []).cmd.toNat % 256 < 0x0D ∧ (waiting 0x70C#32 []).cmd.toNat / 2048 = 0 := by decide +kernel

theorem witness_StepPerformsTheCommand :
    decodeCommand 0x03#32 = .ok (.sync f0) ∧
    (∀ ts ∈ [[], [.poll], [.block, .reset]], (waiting 0x03#32 ts).phase = .pending ∧
      (waiting 0x03#32 ts).cmd = 0x03#32 ∧ (waiting 0x03#32 ts).turns = ts) := ⟨rfl, by decide +kernel⟩

theorem witness_UnpackRunsTheElementAtCursor :
    fetchElement (withPulse [0xFA#8, 0x33#8] base) = .ok (.gw2 0xFA#8 0x33#8, []) ∧
    fetchElement (withPulse [0xFA#8] base) = .error .truncated ∧
    fetchElement base = .error .pastEnd ∧
    small.cfg.legal ∧ 6 ≤ small.cfg.pulseCap ∧ 48 ≠ 32 ∧
    decodeTableWord 48 0x010117EB02FF = some (.gw6 0xEB#8 0x17#8 0x01#8 0x01#8) :=
  ⟨by rfl, by rfl, by rfl, by decide +kernel⟩

theorem witness_StepTakesTheTurn :
    (∀ ts ∈ [[.host (.read Reg.id.addr .word)], [.block], [.poll], []],
      ({ base with turns := ts } : State).turns = ts ∧ base.phase = .idle ∧ base.hostFault = none) ∧
    (∀ ts ∈ [[.host (.read Reg.id.addr .word)], [.poll], []],
      ({ faulted with turns := ts } : State).turns = ts ∧ faulted.phase = .idle ∧
        faulted.hostFault = some ⟨0x1FFFFF#21, .byte⟩) ∧
    ({ base with turns := [.reset] } : State).turns = [.reset] := by decide +kernel

theorem inv_of_pending : Inv (pending 0x0B#32 State.reset) :=
  ⟨by decide +kernel, by decide +kernel, by decide +kernel, fun i _ => by simp [pending, State.issue, State.reset, State.resetWith, validBit],
    by decide +kernel, by decide +kernel, fun _ => by decide +kernel⟩

theorem witness_StepKeepsInv : Inv (pending 0x0B#32 State.reset) ∧ ∃ t, step (pending 0x0B#32 State.reset) = .next t :=
  ⟨inv_of_pending, _, rfl⟩

theorem witness_ResetMeetsInv : small.cfg.legal ∧ Config.default.legal := by decide +kernel

theorem witness_StepStopsOnlyAsSpecified :
    step faulted = .fault (.hostBusError 0x1FFFFF#21 .byte) ∧
    step (waiting 0x00000409#32 []) = .refused .fmFramingNotInSource := ⟨rfl, rfl⟩

theorem witness_IssuedCommandCompletes :
    base.phase = .idle ∧
    (∀ ts ∈ [[], [.block], [.poll, .reset]], (waiting 0x209#32 ts).phase = .pending ∧ (waiting 0x209#32 ts).turns = ts) ∧
    safePending (waiting 0x209#32 []) := by
  refine ⟨by decide +kernel, by decide +kernel, ?_⟩
  intro i h
  have e : decodeCommand 0x209#32 = .ok (.decode fC) := rfl
  have : Except.ok (.decode fC) = (Except.ok i : Except Reject Instr) := e.symm.trans h
  cases this
  rfl

theorem witness_UnusedFlagsAreIgnored :
    0x0C < 0x0D ∧ fP ≠ (⟨true, true, false⟩ : Flags) ∧ fP.packed = (⟨true, true, false⟩ : Flags).packed ∧
    fP.fm = (⟨true, true, false⟩ : Flags).fm := by decide

/-- The rows' conditions at their boundaries (60_exceptions.md R335; V-ERR-6, V-ERR-8 to V-ERR-10), for SYNC, MOD, DECODE and MARKWR. -/
theorem witness_CheckTable :
    (isFmFraming (.sync f0) = false ∧ badConfig (.sync f0) { base with plen := 3#32, cursor := 4#32 } ∧
      ¬ badConfig (.sync f0) { base with plen := 3#32, cursor := 3#32 } ∧ ¬ badArg (.sync f0) base) ∧
    (badConfig (.mod f0) { base with t1 := 64#16 } ∧ ¬ badConfig (.mod f0) { base with t1 := 63#16 } ∧
      badArg (.mod f0) { base with arg0 := 516#32 } ∧ ¬ badArg (.mod f0) { base with arg0 := 515#32, arg1 := 2#32 }) ∧
    (badConfig (.decode f0) { base with nsect := 19#8 } ∧ ¬ badConfig (.decode f0) { base with nsect := 18#8 }) ∧
    (¬ badConfig (.markwr f0) { base with nsect := 18#8 } ∧ badArg (.markwr f0) { base with nsect := 18#8, arg0 := 18#32 } ∧
      ¬ badArg (.markwr f0) { base with nsect := 18#8, arg0 := 17#32 }) := by
  simp only [isFmFraming, badConfig, badArg, badStream, badSectors, badCell]
  decide +kernel

theorem witness_ErrorsArePrecise :
    ∃ t, perform (pending 0x06#32 base) = .next t ∧ (pending 0x06#32 base).status.err = false ∧ t.status.err = true :=
  ⟨_, rfl, rfl, rfl⟩

theorem witness_ResetValues : (State.reset = State.reset ∨ False) ∧ small.applyReset = State.applyReset small := ⟨.inl rfl, rfl⟩

theorem witness_ResetEndsThePendingCommand :
    (waiting 0x209#32 [.reset, .block]).turns = .reset :: [.block] ∧ (waiting 0x209#32 [.reset, .block]).phase = .pending := by
  decide +kernel

theorem witness_MarkwrMarksTheSlot :
    let s : State := { base with nsect := 18#8, arg0 := 17#32 }
    1 ≤ s.nsect.toNat ∧ s.nsect.toNat ≤ s.cfg.maxSectors ∧ s.arg0.toNat < s.nsect.toNat := by decide +kernel

theorem witness_ClassifierIsMonotone : (100 < 140 ∧ 100 ≤ 101) ∧ 100 ≤ 140 ∧ 100 ≤ 100 := by decide

/-- A read at the end of a full PULSE, and one before it. -/
theorem witness_ReadsymResult :
    let s : State := { small with plen := 4096#32, cursor := 4096#32 }
    let u : State := { withPulse [40#8, 120#8] base with cursor := 1#32 }
    (s.plen.toNat ≤ s.cfg.pulseCap ∧ s.cursor.toNat ≤ s.plen.toNat ∧ nextAt false s s.cursor.toNat = none) ∧
    (u.plen.toNat ≤ u.cfg.pulseCap ∧ u.cursor.toNat ≤ u.plen.toNat ∧ nextAt false u u.cursor.toNat = some (120, 2)) := by
  decide +kernel

theorem witness_SyncFindsTheMark :
    let s := withPulse headerStream base
    fP.fm = false ∧ s.plen.toNat ≤ s.cfg.pulseCap ∧ s.cursor.toNat ≤ s.plen.toNat := by decide +kernel

theorem witness_CrcDetectsOneFlippedBit :
    let rec_ : List Byte := [0xFE#8, 0#8, 0#8, 1#8, 2#8, 0xCA#8, 0x6F#8]
    6 < rec_.length ∧ 7 < 8 ∧ crc16 rec_ 0xCDB4#16 = 0#16 := by decide +kernel

theorem witness_CrcResult :
    ({ base with arg0 := 515#32 } : State).arg0.toNat ≤ base.cfg.recCap ∧ base.arg0.toNat ≤ base.cfg.recCap := by
  decide +kernel

/-- A value at each end of each form. -/
theorem witness_PackBytesOfValue :
    (∀ v ∈ [1, 249], 1 ≤ v ∧ v ≤ 2 ^ 28 - 1 ∧ v ≤ 249) ∧
    (∀ v ∈ [250, 1524], 1 ≤ v ∧ v ≤ 2 ^ 28 - 1 ∧ 250 ≤ v ∧ v ≤ 1524) ∧
    (∀ v ∈ [1525, 268435455], 1 ≤ v ∧ v ≤ 2 ^ 28 - 1 ∧ 1525 ≤ v) := by decide

theorem witness_ParseOfPack : 1 ≤ 1 ∧ 1 ≤ 2 ^ 28 := by decide

/-- An element that fits exactly, one that does not with a byte of room, one with none, and FULL set. -/
theorem witness_PackResult :
    (∀ s ∈ [({ base with arg0 := 300#32, wpos := 1#32, outcap := 3#32 } : State),
        { base with arg0 := 300#32, wpos := 2#32, outcap := 3#32 }, { base with arg0 := 300#32, wpos := 3#32, outcap := 3#32 },
        { base with arg0 := 300#32, outcap := 262144#32, status := { base.status with full := true } }],
      s.wpos.toNat ≤ s.outcap.toNat ∧ s.outcap.toNat ≤ s.cfg.pulseCap ∧ s.arg0 ≠ 0#32) := by decide +kernel

theorem witness_UnpackResult :
    let s := withPulse [0xFE#8, 0xFF#8] base
    let u : State := { s with cursor := 2#32 }
    (s.plen.toNat ≤ s.cfg.pulseCap ∧ s.cursor.toNat ≤ s.plen.toNat ∧ nextAt true s s.cursor.toNat = some (1524, 2)) ∧
    (u.plen.toNat ≤ u.cfg.pulseCap ∧ u.cursor.toNat ≤ u.plen.toNat ∧ nextAt true u u.cursor.toNat = none) := by
  decide +kernel

/-- A stream with exactly six bytes left, and one with five. -/
theorem witness_ElementForms :
    let s : State := { small with plen := 6#32 }
    let u : State := { small with plen := 4096#32, cursor := 4091#32 }
    (s.plen.toNat ≤ s.cfg.pulseCap ∧ s.cursor.toNat ≤ s.plen.toNat ∧ s.cursor.toNat + 6 ≤ s.plen.toNat) ∧
    (u.plen.toNat ≤ u.cfg.pulseCap ∧ u.cursor.toNat ≤ u.plen.toNat ∧ ¬ u.cursor.toNat + 6 ≤ u.plen.toNat) := by
  decide +kernel

theorem witness_UnpackOfPack :
    let s : State := { base with outcap := 5#32 }
    let vs : List Word := [10#32, 300#32, 2000#32]
    s.wpos = 0#32 ∧ s.status.full = false ∧ s.outcap.toNat ≤ s.cfg.pulseCap ∧ vs ≠ [] ∧ (∀ v ∈ vs, v ≠ 0#32) := by
  simp [base, State.reset, State.resetWith, Status.reset, Config.default]

theorem witness_DemodResult :
    let s : State := { withPulse headerStream base with arg0 := 515#32, cursor := 91#32 }
    f0.fm = false ∧ s.plen.toNat ≤ s.cfg.pulseCap ∧ s.cursor.toNat ≤ s.plen.toNat ∧ 1 ≤ s.arg0.toNat ∧
    s.arg0.toNat ≤ s.cfg.recCap := by decide +kernel

theorem witness_CellWordsAndMagic : 0 < [true, false].length ∧ 1 < [true, false].length := by decide

/-- Each kind, the raw form at its longest cell, the packed form beyond it. -/
theorem witness_ModResult :
    ∀ x ∈ [(f0, ({ base with arg0 := 515#32, arg1 := 0#32, t1 := 63#16 } : State)),
        (f0, { base with arg0 := 1#32, arg1 := 1#32, wpos := 9#32, outcap := 9#32 }),
        (fP, { base with arg0 := 1#32, arg1 := 2#32, t1 := 65535#16, outcap := 262144#32 })],
      x.1.fm = false ∧ x.2.wpos.toNat ≤ x.2.outcap.toNat ∧ x.2.outcap.toNat ≤ x.2.cfg.pulseCap ∧ 1 ≤ x.2.t1.toNat ∧
      (x.1.packed = true ∨ 4 * x.2.t1.toNat ≤ 255) ∧ x.2.arg1.toNat % 4 ≠ 3 ∧ 1 ≤ x.2.arg0.toNat ∧
      x.2.arg0.toNat ≤ x.2.cfg.recCap := by decide +kernel

/-- Two bytes behind a sync word. -/
def afterMark : State :=
  { withRec [0xFE#8, 0x4E#8] base with dstate := ⟨.clock, true, 0#4⟩, wpos := 5#32, outcap := 100#32 }

theorem witness_DemodOfMod :
    (2 * 40 ≤ 100 ∧ 100 < 3 * 40 ∧ 3 * 40 ≤ 140 ∧ 140 < 4 * 40 ∧ 2 ≤ 4) ∧
    (afterMark.wpos.toNat ≤ afterMark.outcap.toNat ∧ afterMark.outcap.toNat ≤ afterMark.cfg.pulseCap ∧
      4 * afterMark.t1.toNat ≤ 255 ∧ 1 ≤ afterMark.arg0.toNat ∧ afterMark.arg0.toNat ≤ afterMark.cfg.recCap ∧
      afterMark.dstate.encPrev = true ∧ afterMark.dstate.encRun = 0#4 ∧ afterMark.arg1.toNat % 4 = 0 ∧
      2 * afterMark.t1.toNat ≤ afterMark.t2.toNat ∧ afterMark.t2.toNat < 3 * afterMark.t1.toNat ∧
      3 * afterMark.t1.toNat ≤ afterMark.t3.toNat ∧ afterMark.t3.toNat < 4 * afterMark.t1.toNat) ∧
    ∃ t, exec (.mod f0) afterMark = .next t ∧ (!t.status.trunc) = true :=
  ⟨by decide, by decide +kernel, next_of_reaches (by decide +kernel)⟩

/-- The header of that capture as DECODE's loop reads it, worked out from 44_line_code.md R202. -/
def headerRead : TrackRecord := ⟨none, [0xFE#8, 0#8, 0#8, 1#8, 0#8, 0xEA#8, 0x2D#8], 64, .clock⟩

/-- Its data record. -/
def dataRead : TrackRecord := ⟨some 1, 0xFB#8 :: List.replicate 128 0xAA#8 ++ [0xC1#8, 0x70#8], 612, .data⟩

set_option maxRecDepth 100000 in
/-- A loop that ends with every sector valid, and one that ends with the stream. -/
theorem witness_DecodeResult :
    (f0.fm = false ∧ 1 ≤ sectorCapture.nsect.toNat ∧ sectorCapture.nsect.toNat ≤ sectorCapture.cfg.maxSectors ∧
      sectorCapture.plen.toNat ≤ sectorCapture.cfg.pulseCap) ∧
    readsTrack false sectorCapture 1 none 0#32 0 [headerRead, dataRead] ∧
    validCount (validAtEnd small.cfg 0#32 [headerRead, dataRead]) 1 = 1 ∧
    readsTrack false { small with nsect := 2#8 } 2 none 0#32 0 [] ∧ validCount (validAtEnd small.cfg 0#32 []) 2 ≠ 2 := by
  refine ⟨by decide +kernel, ⟨fun _ => by decide, rfl, by decide +kernel, (fun h => nomatch h), by decide +kernel,
    by decide +kernel, .inl ⟨rfl, by decide +kernel⟩⟩, by decide +kernel, .inr (by decide +kernel), by decide⟩

theorem witness_DecodeOfAValidTrack :
    let s : State := { base with nsect := 18#8, valid := 0x3FFFF#32, plen := 262144#32 }
    f0.fm = false ∧ f0.clrv = false ∧ 1 ≤ s.nsect.toNat ∧ s.nsect.toNat ≤ s.cfg.maxSectors ∧
    s.plen.toNat ≤ s.cfg.pulseCap ∧ (∀ i, i < s.nsect.toNat → s.valid.getLsbD i = true) := by decide +kernel

set_option maxRecDepth 100000 in
/-- The last IDAM of the reads above, a DECODE that reads none, and one that captures a header of another size, which it does
not follow up (45_track_decode_encode.md R233, R234). -/
theorem witness_DecodeCapturesTheIdam :
    ([headerRead, dataRead] = [] ++ headerRead :: [dataRead] ∧ isIdam small.cfg headerRead ∧ ¬ isIdam small.cfg dataRead) ∧
    reaches (exec (.decode f0) { small with nsect := 2#8 }) (fun t => !t.status.idamv && t.synccnt == 0#32) = true ∧
    reaches (exec (.decode f0) { withPulse headerStream small with nsect := 1#8 })
      (fun t => t.status.idamv && t.lastidam == 0x02010000#32 && t.synccnt == 1#32 && t.cursor == 91#32) = true :=
  ⟨⟨rfl, by decide +kernel, by decide +kernel⟩, by decide +kernel, by decide +kernel⟩

set_option maxRecDepth 100000 in
/-- The read that makes sector 1 valid, in its place among the reads of `witness_DecodeResult`; and a sector not made valid. -/
theorem witness_DecodeWritesOnlyCheckedRecords :
    (small.cfg.legal ∧ f0.fm = false ∧ 0 < sectorCapture.nsect.toNat ∧
      sectorCapture.nsect.toNat ≤ sectorCapture.cfg.maxSectors ∧ sectorCapture.plen.toNat ≤ sectorCapture.cfg.pulseCap ∧
      sectorCapture.valid.getLsbD 0 = false) ∧
    ([headerRead, dataRead] = [headerRead] ++ dataRead :: [] ∧ dataRead.wanted = some (0 + 1) ∧
      validRecord small.cfg 0xFB#8 dataRead.bytes) ∧
    reaches (exec (.decode f0) sectorCapture) (fun t => t.valid.getLsbD 0) = true ∧
    reaches (exec (.decode f0) { small with nsect := 2#8 }) (fun t => !t.valid.getLsbD 0) = true :=
  ⟨by decide +kernel, ⟨rfl, rfl, by decide +kernel⟩, by decide +kernel, by decide +kernel⟩

/-- One sector already valid, the other not. -/
theorem witness_DecodeNeverRegresses :
    f0.clrv = false ∧ ({ small with nsect := 2#8, valid := 1#32 } : State).valid.getLsbD 0 = true ∧
    ∃ t, exec (.decode f0) { small with nsect := 2#8, valid := 1#32 } = .next t ∧ t.valid.getLsbD 0 = true :=
  ⟨rfl, by decide +kernel, next_of_reaches (by decide +kernel)⟩

theorem witness_EncodeResult :
    ∀ x ∈ [(f0, ({ base with nsect := 18#8, t1 := 63#16 } : State)), (fP, { base with nsect := 1#8, outcap := 262144#32 })],
      x.1.fm = false ∧ 1 ≤ x.2.nsect.toNat ∧ x.2.nsect.toNat ≤ x.2.cfg.maxSectors ∧ x.2.outcap.toNat ≤ x.2.cfg.pulseCap ∧
      1 ≤ x.2.t1.toNat ∧ (x.1.packed = true ∨ 4 * x.2.t1.toNat ≤ 255) := by decide +kernel

/-- One small sector of 0xAA, with room for its track. -/
def smallTrack : State :=
  { small with mem := Memory.cells trackBase (List.replicate 128 0xAA#8), nsect := 1#8, outcap := 750#32 }

set_option maxRecDepth 100000 in
theorem witness_TrackRoundTrip :
    (smallTrack.cfg.legal ∧ 1 ≤ smallTrack.cfg.gap3 ∧ 1 ≤ smallTrack.nsect.toNat ∧
      smallTrack.nsect.toNat ≤ smallTrack.cfg.maxSectors ∧ smallTrack.outcap.toNat ≤ smallTrack.cfg.pulseCap ∧
      1 ≤ smallTrack.t1.toNat ∧ 4 * smallTrack.t1.toNat ≤ 255 ∧ smallTrack.t2.toNat = 5 * smallTrack.t1.toNat / 2 ∧
      smallTrack.t3.toNat = 7 * smallTrack.t1.toNat / 2) ∧
    ∃ t, exec (.encode f0) smallTrack = .next t ∧ (!t.status.trunc) = true :=
  ⟨by decide +kernel, next_of_reaches (by decide +kernel)⟩

theorem witness_CommandsWriteOnlyWhatTheMapLists :
    base.cfg.legal ∧ (∃ t, exec (.clrvalid f0) base = .next t) ∧ Resource.result ∉ Resource.writtenBy (.clrvalid f0) :=
  ⟨by decide +kernel, ⟨_, rfl⟩, by decide⟩

/-- A command that changes a byte. -/
theorem witness_CommandStoresStayInRange :
    ∃ t, exec (.demod f0) { withRec [0x12#8] small with arg0 := 1#32 } = .next t ∧
      decide (t.readByte recBase ≠ ({ withRec [0x12#8] small with arg0 := 1#32 } : State).readByte recBase) = true :=
  next_of_reaches (by decide +kernel)

/-- A bit that falls by a command, by a host write and by a reset, and a bit that rises. -/
theorem witness_ValidityEpoch :
    reaches (step { waiting 0x0B#32 [] with valid := 1#32 }) (fun t => !t.valid.getLsbD 0) = true ∧
    reaches (step { base with valid := 1#32, turns := wr .nsect 1#32 }) (fun t => !t.valid.getLsbD 0) = true ∧
    reaches (step { waiting 0x0B#32 [.reset] with valid := 1#32 }) (fun t => !t.valid.getLsbD 0) = true ∧
    reaches (step { waiting 0x0C#32 [.poll] with nsect := 1#8 }) (fun t => t.valid.getLsbD 0) = true := by
  decide +kernel

theorem witness_RegisterWriteThenRead :
    base.phase = .idle ∧ Reg.nsect ≠ .cmd ∧ Reg.nsect ≠ .status ∧ Reg.valid ≠ .nsect ∧ Reg.wpos ≠ .cmd ∧ Reg.wpos ≠ .status ∧
    Reg.status ≠ .wpos ∧ (∀ a ∈ [0x5C, 0xFC], 0x5C ≤ a ∧ a < 0x100 ∧ a % 4 = 0) := by decide +kernel

/-- The first and the last access of each memory. -/
theorem witness_HostMemoryIsLittleEndian :
    base.phase = .idle ∧
    (∀ x ∈ [(0x001000#21, Width.word), (0x001202#21, .byte), (0x010000#21, .half), (0x0123FC#21, .word), (0x100000#21, .byte),
        (0x13FFFC#21, .word)],
      accessOk base.cfg x.1.toNat x.2 = true ∧ 0x100 ≤ x.1.toNat) := by decide +kernel

theorem witness_AllowedAccesses : base.cfg.legal ∧ accessOk base.cfg 0x001200 .word = false := by decide +kernel

theorem witness_BusErrorHasNoEffect :
    (∀ x ∈ [(0x000001#21, Width.word), (0x000004#21, .byte), (0x000100#21, .word), (0x001203#21, .byte), (0x140000#21, .word),
        (0x1FFFFF#21, .byte)], accessOk base.cfg x.1.toNat x.2 = false) ∧
    (∃ t, faulted.hostFault = some ⟨0x1FFFFF#21, .byte⟩ ∧ step { faulted with turns := [.reset] } = .next t) :=
  ⟨by decide +kernel, _, rfl, rfl⟩

theorem witness_BusyRule :
    (waiting 0#32 []).phase = .pending ∧
    (∀ a ∈ [0x00, 0x04, 0x08, 0x0C, 0xFC], accessOk base.cfg a .word = true) ∧
    Reg.cmd.addr ≠ Reg.id.addr ∧ Reg.cmd.addr ≠ Reg.status.addr ∧ Reg.cmd.addr ≠ Reg.irqen.addr := by decide +kernel

theorem witness_InterruptLevel : base.phase = .idle := by decide +kernel

theorem witness_BlockMapping :
    blockInRange FormatName.f1440K.info 0 = true ∧ blockInRange FormatName.f1440K.info 2879 = true ∧
    blockPlace 18 2879 = blockPlace 18 2879 := by decide

/-- A volume with track 0, head 0 of a one-sector format in its cache. -/
def cached : Volume where
  block := { base with nsect := 1#8, cache := ⟨false, true, 0#16⟩ }
  drive := ⟨[], [], [], [], [], [], []⟩
  state := .ready
  format := some ⟨80, 1, 1000, 200, true, 2⟩
  doubleStep := false
  fSample := 40000000
  writeOutcap := 4096
  packedOut := false

theorem witness_WriteSectorHit :
    cached.format = some ⟨80, 1, 1000, 200, true, 2⟩ ∧ blockInRange ⟨80, 1, 1000, 200, true, 2⟩ 0 = true ∧
    cached.block.phase = .idle ∧ 1 = cached.block.nsect.toNat ∧ 1 ≤ cached.block.cfg.maxSectors ∧
    (List.replicate 512 0x5A#8).length = cached.block.cfg.sectorBytes ∧
    cached.hit (blockPlace 1 0).1 (blockPlace 1 0).2.1 = true := by decide +kernel

theorem witness_SyncWithoutWork :
    cached.block.cache.dirty = false ∧
    (let v : Volume := { cached with block := { cached.block with cache := ⟨true, true, 0#16⟩ } }
     v.block.cache.dirty = true ∧ 0 < v.block.nsect.toNat ∧ v.block.valid.getLsbD 0 = false) := by decide +kernel

end Sys2Proof.Tests
end

/-! The reset family (70_reset_and_hazards.md R371): the state right after the first reset meets the machine invariant. -/
namespace Sys2Proof.Machine

/-- The default parameters lie in their own ranges (00_scope.md R9). -/
theorem Config.default_legal : Config.default.legal := by decide

/-- A block's first reset meets the invariant exactly when its parameters are legal: everything else `Inv` asks for is a
reset value of R371, an empty written memory (R372) or the idle phase. -/
theorem inv_resetWith_iff (cfg : Config) : Inv (State.resetWith cfg) ↔ cfg.legal where
  mp h := h.legal
  mpr hl :=
    { legal := hl
      memWf := List.Pairwise.nil
      memMapped := fun _ hc => nomatch hc
      validInRange := fun _ _ => BitVec.getLsbD_zero
      errcodeSet := iff_of_true rfl rfl
      errcodeKnown := Nat.zero_le 3
      pendingClear := fun hp => nomatch hp }

/-- Settles O9: reset is the first reset with the default parameters, which are legal. -/
theorem resetMeetsInv : Obligations.ResetMeetsInv :=
  ⟨(inv_resetWith_iff _).mpr Config.default_legal, fun cfg hl => (inv_resetWith_iff cfg).mpr hl⟩

end Sys2Proof.Machine

/-! The machine invariant `Inv`, kept by every operation a step is made of: the command error, an effect and its completion,
a register write, a memory write, a host access, a reset. -/
namespace Sys2Proof.Machine

/-! ### The block -/

/-- What is still to happen is no part of the invariant. -/
theorem Inv.withTurns {s : State} (h : Inv s) (ts : List Turn) : Inv { s with turns := ts } :=
  { h with }

/-- The value of the host's last access is no part of the invariant (log 11). -/
theorem Inv.withBusRead {s : State} (h : Inv s) (x : Option Word) : Inv { s with busRead := x } :=
  { h with }

/-- The codes a command error can have (60_exceptions.md R331). -/
theorem ErrCode.code_ne_zero (e : ErrCode) : e.code ≠ 0#4 := by cases e <;> decide

theorem ErrCode.code_le (e : ErrCode) : e.code.toNat ≤ 3 := by cases e <;> decide

/-- A command error sets ERR together with a code from 1 to 3, and leaves the block idle (60_exceptions.md R331, R333). -/
theorem Inv.cmdError {s : State} (h : Inv s) (e : ErrCode) : Inv (s.cmdError e) :=
  { h with
    errcodeSet := iff_of_false e.code_ne_zero Bool.true_eq_false.mp
    errcodeKnown := e.code_le
    pendingClear := fun hp => nomatch hp }

/-- The sectors of a checked command lie below min(NSECT, MAX_SECTORS), the bound of VALID (10_state.md R49). -/
theorem min_of_sectorsOk {s : State} (h : s.sectorsOk = true) : min s.nsect.toNat s.cfg.maxSectors = s.nsect.toNat := by
  simp only [State.sectorsOk, Bool.and_eq_true, decide_eq_true_eq] at h
  exact Nat.min_eq_left h.2

/-- An effect sets no VALID bit above the range: DECODE stores only sectors it was asked for, MARKWR checks its slot
(10_state.md R49, 60_exceptions.md R335). -/
theorem effectOf_validInRange {i : Instr} {s : State} (hc : configOk i s = true) (ha : argOk i s = true)
    (hv : ∀ k, min s.nsect.toNat s.cfg.maxSectors ≤ k → validBit s.valid k = false) (k : Nat)
    (hk : min s.nsect.toNat s.cfg.maxSectors ≤ k) : validBit (effectOf i s).valid k = false := by
  obtain h | ⟨f, rfl, h⟩ | ⟨f, rfl, h⟩ | ⟨f, rfl, h⟩ := effectOf_valid i s <;> rw [h]
  · exact hv k hk
  · simp only [configOk, Bool.and_eq_true] at hc
    have start : validBit (decodeStart f s).valid k = false := by
      show validBit (if f.clrv then 0#32 else s.valid) k = false
      split
      · exact BitVec.getLsbD_zero
      · exact hv k hk
    exact (decodeEnd_keeps f s).within k (min_of_sectorsOk hc.1 ▸ hk) start
  · exact BitVec.getLsbD_zero
  · have slot : s.arg0.toNat < s.nsect.toNat := of_decide_eq_true ha
    have bound : s.nsect.toNat ≤ k := min_of_sectorsOk hc ▸ hk
    refine Bool.eq_false_iff.mpr fun hset => ?_
    have : k = s.arg0.toNat := eq_of_validBit_setValid _ _ _ hset (hv k hk)
    omega

/-- A command whose checks pass keeps the invariant. -/
theorem Inv.effectOf_complete {s : State} (h : Inv s) {i : Instr} (hc : configOk i s = true) (ha : argOk i s = true) :
    Inv (effectOf i s).complete := by
  obtain ⟨herr, hcode, -⟩ := effectOf_status i s
  have hsame := effectOf_setup i s
  exact
    { legal := by rw [State.complete_cfg, hsame.cfg]; exact h.legal
      memWf := effectOf_wf i s hc ha h.memWf
      memMapped := by rw [State.complete_cfg, hsame.cfg]; exact effectOf_mapped i s h.legal hc ha h.memMapped
      validInRange := by
        rw [State.complete_cfg, State.complete_nsect, hsame.cfg, hsame.nsect]
        exact effectOf_validInRange hc ha h.validInRange
      errcodeSet := by rw [State.complete_status]; simp only [herr, hcode]; exact h.errcodeSet
      errcodeKnown := by rw [State.complete_status]; simp only [hcode]; exact h.errcodeKnown
      pendingClear := fun hp => nomatch hp }

/-- PERFORM keeps the invariant (20_memory.md R64). -/
theorem Inv.perform {s t : State} (h : Inv s) (hp : perform s = .next t) : Inv t := by
  obtain ⟨_, -, rfl⟩ | ⟨i, -, -, ⟨hc, ha, rfl⟩ | ⟨-, -, rfl⟩ | ⟨-, rfl⟩⟩ := perform_next hp
  · exact h.cmdError _
  · exact h.effectOf_complete hc ha
  · exact h.cmdError _
  · exact h.cmdError _

/-- A reset keeps the parameters and is otherwise the state of a first reset (70_reset_and_hazards.md R371). -/
theorem Inv.applyReset {s : State} (h : Inv s) : Inv s.applyReset :=
  { (inv_resetWith_iff s.cfg).mpr h.legal with }

/-! ### The host -/

/-- The issue of a command clears DONE and ERR together with ERRCODE (20_memory.md R64). -/
theorem Inv.issue {s : State} (h : Inv s) (v : Word) : Inv (s.issue v) :=
  { h with
    errcodeSet := iff_of_true rfl rfl
    errcodeKnown := Nat.zero_le 3
    pendingClear := fun _ => ⟨rfl, rfl⟩ }

/-- An acknowledgement clears ERR only together with ERRCODE (10_state.md R24). -/
theorem Inv.ackStatus {s : State} (h : Inv s) (v : Word) : Inv (s.ackStatus v) :=
  { h with
    errcodeSet := by
      show (if v.getLsbD 2 then 0#4 else s.status.errcode) = 0#4 ↔ (s.status.err && !v.getLsbD 2) = false
      cases v.getLsbD 2
      · simpa using h.errcodeSet
      · simp
    errcodeKnown := by
      show (if v.getLsbD 2 then 0#4 else s.status.errcode).toNat ≤ 3
      split
      · exact Nat.zero_le 3
      · exact h.errcodeKnown
    pendingClear := fun hp => by simp [State.ackStatus, h.pendingClear hp] }

/-- A write to any register keeps the invariant: NSECT takes VALID with it (10_state.md R28). -/
theorem Inv.writeReg {s : State} (h : Inv s) (v : Word) (r : Reg) : Inv (s.writeReg v r) := by
  cases r
  case cmd => exact h.issue v
  case status => exact h.ackStatus v
  case nsect => exact { h with validInRange := fun _ _ => BitVec.getLsbD_zero }
  all_goals exact { h with }

/-- Every byte between two of one memory lies in that memory (20_memory.md R62). -/
theorem memoryAddr_between {cfg : Config} (hl : cfg.legal) {a b k : Nat} {r : Region} (ha : regionOf cfg a = some r)
    (hb : regionOf cfg b = some r) (hr : r ≠ .regs) (hak : a ≤ k) (hkb : k ≤ b) : memoryAddr cfg k := by
  obtain ⟨rfl, -⟩ | ⟨rfl, -, lo, -⟩ | ⟨rfl, -, lo, -⟩ | ⟨rfl, -, lo, -⟩ := regionOf_cases ha <;>
    obtain ⟨e, -⟩ | ⟨e, -, -, hi⟩ | ⟨e, -, -, hi⟩ | ⟨e, -, -, hi⟩ := regionOf_cases hb <;> cases e
  · exact absurd rfl hr
  · exact .inl (regionOf_rec (by omega) (by omega))
  · exact .inr (.inl (regionOf_track hl (by omega) (by omega)))
  · exact .inr (.inr (regionOf_pulse hl (by omega) (by omega)))

/-- An allowed write to a memory lists only bytes of that memory (20_memory.md R62, R63). -/
theorem Inv.storeBytes {s : State} (h : Inv s) {a : Nat} {w : Width} (hok : accessOk s.cfg a w = true) (ha : 0x100 ≤ a)
    (v : Nat) : Inv (s.storeBytes a (bytesOfNat w.bytes v)) :=
  { h with
    memWf := Memory.store_wf _ _ _ h.memWf
    memMapped := fun c hc => by
      obtain ⟨r, first, hr, last, -⟩ := accessOk_mem hok ha
      obtain hc | ⟨lo, hi⟩ := Memory.mem_store _ _ _ c hc
      · exact h.memMapped c hc
      · rw [bytesOfNat_length] at hi
        exact memoryAddr_between h.legal first last hr lo (by omega) }

/-- What an allowed write stores keeps the invariant. -/
theorem Inv.busStore {s : State} (h : Inv s) {a : Nat} {w : Width} (hok : accessOk s.cfg a w = true) (v : Word) :
    Inv (s.busStore a w v) := by
  unfold State.busStore
  split
  · split
    · exact h.writeReg v _
    · exact h
  · exact h.storeBytes hok (by omega) v.toNat

/-- A bus error leaves the block as it is (20_memory.md R63). -/
theorem Inv.withHostFault {s : State} (h : Inv s) (e : BusError) : Inv { s with hostFault := some e, busRead := none } :=
  { h with }

/-- A protocol violation sets BUSYERR and nothing else (20_memory.md R67). -/
theorem Inv.busyViolation {s : State} (h : Inv s) : Inv s.busyViolation :=
  { h with }

/-- Every host access keeps the invariant. -/
theorem Inv.hostAccess {s : State} (h : Inv s) (op : BusOp) : Inv (s.hostAccess op) := by
  cases op with
  | read a w =>
    show Inv (s.hostRead a w)
    unfold State.hostRead
    split
    · exact h.withHostFault _
    · split
      · exact { h.busyViolation with }
      · exact h.withBusRead _
  | write a w v =>
    show Inv (s.hostWrite a w v)
    unfold State.hostWrite
    split
    · exact h.withHostFault _
    · rename_i hok
      split
      · exact h.busyViolation.withBusRead _
      · exact (h.busStore (by simpa using hok) v).withBusRead _

/-! ### The step -/

/-- Settles O8: PERFORM, a host access, a reset and the passing of a turn each keep the invariant. -/
theorem stepKeepsInv : Obligations.StepKeepsInv := by
  intro s t h hstep
  obtain ⟨ts, -, -, hp⟩ | ⟨op, ts, -, rfl, -⟩ | ⟨ts, -, rfl⟩ | ⟨ts, rfl⟩ := step_next hstep
  · exact (h.withTurns ts).perform hp
  · exact (h.withTurns ts).hostAccess op
  · exact h.applyReset.withTurns ts
  · exact h.withTurns ts

end Sys2Proof.Machine

/-! The host's register accesses, said once: what an allowed word access to a register does, the bits of the registers that
hold fields, and what a register write stores and leaves alone (10_state.md R20 to R42, 20_memory.md R67, R72). -/
namespace Sys2Proof.Machine

/-! ### Word accesses in the register space -/

theorem busy_of_idle {s : State} (h : s.phase = .idle) : s.busy = false := by simp [State.busy, h]

/-- A read of a register that the busy rule allows returns the register and changes nothing (20_memory.md R67, R72). -/
theorem hostRead_reg {s : State} {r : Reg} (h : (s.busy && !busyReadable r.offset) = false) :
    s.hostRead r.addr .word = { s with busRead := some (s.readReg r) } := by
  have hv : s.busValue r.addr.toNat .word = s.readReg r := by cases r <;> rfl
  rw [State.hostRead, accessOk_reg, hv, addr_toNat, h]
  rfl

/-- A write to a register that the busy rule allows is the register's own write (20_memory.md R67, R72). -/
theorem hostWrite_reg {s : State} {r : Reg} (v : Word) (h : (s.busy && !busyWritable r.offset) = false) :
    s.hostWrite r.addr .word v = { s.writeReg v r with busRead := none } := by
  have hw : s.busStore r.addr.toNat .word v = s.writeReg v r := by cases r <;> rfl
  rw [State.hostWrite, accessOk_reg, hw, addr_toNat, h]
  rfl

theorem hostRead_reg_idle {s : State} (h : s.phase = .idle) (r : Reg) :
    s.hostRead r.addr .word = { s with busRead := some (s.readReg r) } :=
  hostRead_reg (by rw [busy_of_idle h, Bool.false_and])

theorem hostWrite_reg_idle {s : State} (h : s.phase = .idle) (r : Reg) (v : Word) :
    s.hostWrite r.addr .word v = { s.writeReg v r with busRead := none } :=
  hostWrite_reg v (by rw [busy_of_idle h, Bool.false_and])

/-- An aligned word access to the register space is allowed, at a reserved offset too (20_memory.md R61). -/
theorem accessOk_regSpace (cfg : Config) {a : Nat} (h : a < 0x100) (h4 : a % 4 = 0) : accessOk cfg a .word = true := by
  simp [accessOk, regionOf, h, h4]

/-- A reserved offset reads 0 (10_state.md R42). -/
theorem hostRead_reserved {s : State} {a : BlockAddr} (hi : s.phase = .idle) (hlo : 0x5C ≤ a.toNat) (hhi : a.toNat < 0x100)
    (h4 : a.toNat % 4 = 0) : s.hostRead a .word = { s with busRead := some 0#32 } := by
  rw [State.hostRead, accessOk_regSpace _ hhi h4, busy_of_idle hi, State.busValue, if_pos hhi, ofOffset_reserved hlo]
  rfl

/-- A reserved offset ignores a write (10_state.md R42). -/
theorem hostWrite_reserved {s : State} {a : BlockAddr} (v : Word) (hi : s.phase = .idle) (hlo : 0x5C ≤ a.toNat)
    (hhi : a.toNat < 0x100) (h4 : a.toNat % 4 = 0) : s.hostWrite a .word v = { s with busRead := none } := by
  rw [State.hostWrite, accessOk_regSpace _ hhi h4, busy_of_idle hi, State.busStore, if_pos hhi, ofOffset_reserved hlo]
  rfl

/-! ### The bits of the registers that hold fields -/

/-- The bits of a number whose low `k` bits are one field and whose upper bits are the rest. -/
theorem testBit_lowField {k b : Nat} (a i : Nat) (hb : b < 2 ^ k) :
    (b + a * 2 ^ k).testBit i = if i < k then b.testBit i else a.testBit (i - k) := by
  rw [Nat.add_comm, Nat.mul_comm, Nat.testBit_two_pow_mul_add a hb]

/-- The bits of a number whose bit 0 is a flag. -/
theorem testBit_flag (b : Bool) (a i : Nat) :
    (b.toNat + a * 2).testBit i = if i = 0 then b else a.testBit (i - 1) := by
  have h := testBit_lowField (k := 1) a i (Bool.toNat_lt b)
  rw [pow_one] at h
  rw [h]
  cases i with
  | zero => cases b <;> rfl
  | succ i => rfl

/-- The bits of STATUS (10_state.md R24). -/
theorem statusWord_getLsbD (s : State) (i : Nat) : s.statusWord.getLsbD i =
    if i = 0 then s.busy else if i = 1 then s.status.done else if i = 2 then s.status.err
    else if 4 ≤ i ∧ i ≤ 7 then s.status.errcode.getLsbD (i - 4)
    else if i = 8 then s.status.eof else if i = 9 then s.status.full else if i = 10 then s.status.sync
    else if i = 11 then s.status.trunc else if i = 12 then s.status.idamv else if i = 13 then s.status.busyerr
    else false := by
  have nest : s.statusWord = BitVec.ofNat 32 (s.busy.toNat + (s.status.done.toNat + (s.status.err.toNat + (false.toNat +
      (s.status.errcode.toNat + (s.status.eof.toNat + (s.status.full.toNat + (s.status.sync.toNat + (s.status.trunc.toNat +
      (s.status.idamv.toNat + (s.status.busyerr.toNat + 0 * 2) * 2) * 2) * 2) * 2) * 2) * 2 ^ 4) * 2) * 2) * 2) * 2) :=
    congrArg (BitVec.ofNat 32) (by simp only [Bool.toNat_false]; omega)
  rw [nest, BitVec.getLsbD_ofNat]
  simp only [testBit_flag, testBit_lowField _ _ s.status.errcode.isLt, Nat.zero_testBit, BitVec.testBit_toNat]
  obtain hi | hi := Nat.lt_or_ge i 14
  · interval_cases i <;> rfl
  · simp (disch := omega) only [if_neg, Bool.and_false]

/-- The bits of IRQEN (10_state.md R25). -/
theorem IrqEn.toWord_getLsbD (e : IrqEn) (i : Nat) :
    e.toWord.getLsbD i = if i = 0 then e.doneIe else if i = 1 then e.errIe else false := by
  have nest : e.toWord = BitVec.ofNat 32 (e.doneIe.toNat + (e.errIe.toNat + 0 * 2) * 2) := by
    rw [IrqEn.toWord, zero_mul, add_zero]
  rw [nest, BitVec.getLsbD_ofNat]
  simp only [testBit_flag, Nat.zero_testBit]
  grind

/-- The bits of DSTATE (10_state.md R35). -/
theorem DState.toWord_getLsbD (d : DState) (i : Nat) :
    d.toWord.getLsbD i = if i = 0 then d.parity.bit else if i = 1 then d.encPrev
      else if 8 ≤ i ∧ i ≤ 11 then d.encRun.getLsbD (i - 8) else false := by
  have nest : d.toWord = BitVec.ofNat 32 (d.parity.bit.toNat + (d.encPrev.toNat + (0 + d.encRun.toNat * 2 ^ 6) * 2) * 2) := by
    rw [DState.toWord]
    congr 1
    omega
  rw [nest, BitVec.getLsbD_ofNat]
  simp only [testBit_flag, testBit_lowField _ _ (Nat.two_pow_pos 6), Nat.zero_testBit, BitVec.testBit_toNat]
  grind

/-- The bits of CACHE (10_state.md R41). -/
theorem Cache.toWord_getLsbD (c : Cache) (i : Nat) :
    c.toWord.getLsbD i = if i = 0 then c.dirty else if i = 1 then c.tagv
      else if 16 ≤ i then c.tag.getLsbD (i - 16) else false := by
  have nest : c.toWord = BitVec.ofNat 32 (c.dirty.toNat + (c.tagv.toNat + (0 + c.tag.toNat * 2 ^ 14) * 2) * 2) := by
    rw [Cache.toWord]
    congr 1
    omega
  rw [nest, BitVec.getLsbD_ofNat]
  simp only [testBit_flag, testBit_lowField _ _ (Nat.two_pow_pos 14), Nat.zero_testBit, BitVec.testBit_toNat]
  grind

/-! ### What a register write stores -/

/-- Storing the low `w` bits of a word is storing the bits under the mask of `w` ones. -/
theorem setWidth_eq_masked {w : Nat} (x : BitVec w) (v : Word) :
    (v.setWidth w).setWidth 32 =
      (x.setWidth 32 &&& ~~~(BitVec.allOnes w).setWidth 32) ||| (v &&& (BitVec.allOnes w).setWidth 32) := by
  refine BitVec.eq_of_getLsbD_eq fun i hi => ?_
  by_cases h : i < w
  · simp [h, hi]
  · simp [h, BitVec.getLsbD_of_ge x i (Nat.le_of_not_lt h)]

/-- IRQEN holds the two enable bits of the written word and no others (10_state.md R25). -/
theorem IrqEn.toWord_ofWord (e : IrqEn) (v : Word) :
    (IrqEn.ofWord v).toWord = (e.toWord &&& ~~~0x00000003#32) ||| (v &&& 0x00000003#32) := by
  refine BitVec.eq_of_getLsbD_eq fun i hi => ?_
  simp only [BitVec.getLsbD_or, BitVec.getLsbD_and, BitVec.getLsbD_not, IrqEn.toWord_getLsbD, hi]
  interval_cases i <;> simp [IrqEn.ofWord]

/-- DSTATE holds the three fields of the written word and no other bits (10_state.md R35). -/
theorem DState.toWord_ofWord (d : DState) (v : Word) :
    (DState.ofWord v).toWord = (d.toWord &&& ~~~0x00000F03#32) ||| (v &&& 0x00000F03#32) := by
  have hp : ∀ b, (Parity.ofBit b).bit = b := by decide
  refine BitVec.eq_of_getLsbD_eq fun i hi => ?_
  simp only [BitVec.getLsbD_or, BitVec.getLsbD_and, BitVec.getLsbD_not, DState.toWord_getLsbD, hi]
  interval_cases i <;> simp [DState.ofWord, hp]

/-- CACHE holds DIRTY, TAGV and TAG of the written word and no other bits (10_state.md R41). -/
theorem Cache.toWord_ofWord (c : Cache) (v : Word) :
    (Cache.ofWord v).toWord = (c.toWord &&& ~~~0xFFFF0003#32) ||| (v &&& 0xFFFF0003#32) := by
  refine BitVec.eq_of_getLsbD_eq fun i hi => ?_
  simp only [BitVec.getLsbD_or, BitVec.getLsbD_and, BitVec.getLsbD_not, Cache.toWord_getLsbD, hi]
  interval_cases i <;> simp [Cache.ofWord]

/-- A register keeps what its rule names of a written word and its own value elsewhere (10_state.md R20, R21). -/
theorem readReg_writeReg_same (s : State) (v : Word) {r : Reg} (hc : r ≠ .cmd) (hs : r ≠ .status) :
    (s.writeReg v r).readReg r = (s.readReg r &&& ~~~r.writable) ||| (v &&& r.writable) := by
  have andOnes (x : Word) : x &&& 0xFFFFFFFF#32 = x := BitVec.and_allOnes
  cases r
  case cmd => exact absurd rfl hc
  case status => exact absurd rfl hs
  case irqen => exact IrqEn.toWord_ofWord s.irqen v
  case dstate => exact DState.toWord_ofWord s.dstate v
  case cache => exact Cache.toWord_ofWord s.cache v
  case t1 => exact setWidth_eq_masked s.t1 v
  case nsect => exact setWidth_eq_masked s.nsect v
  case cyl => exact setWidth_eq_masked s.cyl v
  case head => exact setWidth_eq_masked s.head v
  all_goals simp [State.writeReg, State.readReg, Reg.writable, andOnes]

/-- A write to WPOS clears FULL, bit 9 of STATUS, and no other bit of it (10_state.md R33). -/
theorem statusWord_writeReg_wpos (s : State) (v : Word) :
    (s.writeReg v .wpos).statusWord = s.statusWord &&& ~~~0x00000200#32 := by
  have hb : (s.writeReg v .wpos).busy = s.busy := rfl
  have hf : (s.writeReg v .wpos).status = { s.status with full := false } := rfl
  refine BitVec.eq_of_getLsbD_eq fun i hi => ?_
  simp only [BitVec.getLsbD_and, BitVec.getLsbD_not, statusWord_getLsbD, hb, hf, hi]
  interval_cases i <;> simp

/-- The frame of a register write: no other register but VALID behind NSECT and FULL behind WPOS (10_state.md R28, R33). -/
theorem readReg_writeReg_other (s : State) (v : Word) {r r' : Reg} (hc : r ≠ .cmd) (hs : r ≠ .status) (hne : r' ≠ r) :
    (s.writeReg v r).readReg r' =
      if r = .nsect ∧ r' = .valid then 0#32
      else if r = .wpos ∧ r' = .status then s.readReg .status &&& ~~~0x00000200#32
      else s.readReg r' := by
  cases r <;> cases r' <;> try contradiction
  case wpos.status => exact statusWord_writeReg_wpos s v
  all_goals rfl

/-- A register write never changes memory (10_state.md R20). -/
theorem writeReg_mem (s : State) (v : Word) (r : Reg) : (s.writeReg v r).mem = s.mem := by cases r <;> rfl

/-- Only a write to CMD issues a command (20_memory.md R64). -/
theorem writeReg_phase (s : State) (v : Word) {r : Reg} (hc : r ≠ .cmd) : (s.writeReg v r).phase = s.phase := by
  cases r
  case cmd => exact absurd rfl hc
  all_goals rfl

/-- No register shows the value of the host's last access (log 11). -/
theorem readReg_busRead (s : State) (x : Option Word) (r : Reg) : State.readReg { s with busRead := x } r = s.readReg r := by
  cases r <;> rfl

/-! ### The obligations about register accesses -/

/-- Settles O51: the layout of STATUS is `statusWord_getLsbD`, and the busy rule lets the host read and write it in either
phase. -/
theorem statusLayout : Obligations.StatusLayout := by
  intro s v
  have readable : (s.busy && !busyReadable Reg.status.offset) = false := Bool.and_false _
  have writable : (s.busy && !busyWritable Reg.status.offset) = false := Bool.and_false _
  exact ⟨statusWord_getLsbD s, hostRead_reg readable, hostWrite_reg v writable⟩

/-- Settles O52: an idle block lets every register access through, so each clause is a law of `readReg` after `writeReg`, or
one of the reserved offsets. -/
theorem registerWriteThenRead : Obligations.RegisterWriteThenRead := by
  refine ⟨fun s r r' v hi hc hs => ?_, fun s r hi => hostRead_reg_idle hi r, fun s v hi => ?_, fun s a v hi hlo hhi h4 =>
    ⟨hostRead_reserved hi hlo hhi h4, hostWrite_reserved v hi hlo hhi h4⟩⟩
  · have idle : State.phase { s.writeReg v r with busRead := none } = .idle := (writeReg_phase s v hc).trans hi
    rw [hostWrite_reg_idle hi]
    refine ⟨?_, fun hne => ?_, writeReg_mem s v r⟩
    · rw [hostRead_reg_idle idle, readReg_busRead, readReg_writeReg_same s v hc hs]
    · rw [readReg_busRead, readReg_writeReg_other s v hc hs hne]
  · rw [hostWrite_reg_idle hi, readReg_busRead]
    rfl

end Sys2Proof.Machine

/-! The turns of the machine, said once: what a step does on each kind of turn, that a PERFORM completes unless it is a refused
framing command, and where a step can stop (20_memory.md R63, R64; 70_reset_and_hazards.md R370). -/
namespace Sys2Proof.Machine

/-! ### One equation per kind of turn -/

section Turns

variable {s : State} {ts : List Turn} {e : BusError}

/-- With no turn left a pending command is performed (log 4). -/
theorem step_noTurn_pending (ht : s.turns = []) (hp : s.phase = .pending) : step s = perform s := by
  simp only [step, ht, lastTurn, hp]

/-- An idle block with no turn left waits for its host (log 12). -/
theorem step_noTurn_idle (ht : s.turns = []) (hp : s.phase = .idle) (hf : s.hostFault = none) : step s = .next s := by
  simp only [step, ht, lastTurn, hp, hf]

/-- The recorded bus error is the end of a machine with nothing left to do (log 7). -/
theorem step_noTurn_faulted (ht : s.turns = []) (hp : s.phase = .idle) (hf : s.hostFault = some e) :
    step s = .fault (.hostBusError e.addr e.width) := by simp only [step, ht, lastTurn, hp, hf]

/-- PERFORM is not enabled on an idle block (20_memory.md R64). -/
theorem blockTurn_idle (hp : s.phase = .idle) : blockTurn s = .next s := by simp only [blockTurn, hp]

theorem step_block_pending (ht : s.turns = .block :: ts) (hp : s.phase = .pending) :
    step s = perform { s with turns := ts } := by simp only [step, ht, blockTurn, hp]

theorem step_block_idle (ht : s.turns = .block :: ts) (hp : s.phase = .idle) : step s = .next { s with turns := ts } := by
  rw [step, ht]
  exact blockTurn_idle hp

theorem step_host {op : BusOp} (ht : s.turns = .host op :: ts) :
    step s = .next (hostTurn op { s with turns := ts }) := by simp only [step, ht]

/-- A poll of a busy block is the block's move and stays (log 4). -/
theorem step_poll_pending (ht : s.turns = .poll :: ts) (hp : s.phase = .pending) : step s = perform s := by
  simp only [step, ht, pollTurn, hp]

/-- A poll of an idle block is the host's last read of STATUS (30_encoding.md R104). -/
theorem step_poll_idle (ht : s.turns = .poll :: ts) (hp : s.phase = .idle) :
    step s = .next (hostTurn (.read Reg.status.addr .word) { s with turns := ts }) := by simp only [step, ht, pollTurn, hp]

theorem step_reset (ht : s.turns = .reset :: ts) : step s = .next { s.applyReset with turns := ts } := by
  simp only [step, ht]

theorem hostTurn_running (op : BusOp) (hf : s.hostFault = none) : hostTurn op s = s.hostAccess op := by
  simp only [hostTurn, hf]

/-- A host that has faulted makes no access (20_memory.md R63). -/
theorem hostTurn_faulted (op : BusOp) (hf : s.hostFault = some e) : hostTurn op s = s := by
  simp only [hostTurn, hf]

end Turns

/-! ### PERFORM -/

theorem perform_of_decode {s : State} {i : Instr} (h : decodeCommand s.cmd = .ok i) : perform s = exec i s := by
  simp only [perform, h]

theorem perform_of_illegal {s : State} {e : Reject} (h : decodeCommand s.cmd = .error e) :
    perform s = .next (s.cmdError .illegalCmd) := by simp only [perform, h]

/-- What the end of a command leaves: the block idle, DONE set, the command word still there (20_memory.md R64). -/
structure Completed (s t : State) : Prop where
  phase : t.phase = .idle
  done : t.status.done = true
  cmd : t.cmd = s.cmd

theorem Completed.cmdError (s : State) (e : ErrCode) : Completed s (s.cmdError e) := ⟨rfl, rfl, rfl⟩

theorem Completed.effectOf (s : State) (i : Instr) : Completed s (effectOf i s).complete :=
  ⟨rfl, rfl, (effectOf_setup i s).cmd⟩

/-- PERFORM completes, with or without an error, unless its command is a framing command in FM mode
(20_memory.md R64, 30_encoding.md R96). -/
theorem perform_completes_or_refused (s : State) :
    (∃ t, perform s = .next t ∧ Completed s t) ∨
      ∃ i, decodeCommand s.cmd = .ok i ∧ isFmFraming i = true ∧ perform s = .refused .fmFramingNotInSource := by
  cases hd : decodeCommand s.cmd with
  | error e => exact .inl ⟨_, perform_of_illegal hd, .cmdError s _⟩
  | ok i =>
    rw [perform_of_decode hd, exec_eq]
    split
    · exact .inr ⟨i, rfl, ‹_›, rfl⟩
    · refine .inl ?_
      split
      · split
        · exact ⟨_, rfl, .effectOf s i⟩
        · exact ⟨_, rfl, .cmdError s _⟩
      · exact ⟨_, rfl, .cmdError s _⟩

/-! ### The step -/

/-- A pending block performs its command whenever it moves; of the state, only the turn may have passed. -/
theorem step_performs {s : State} (hp : s.phase = .pending) (hm : blockMoves s) :
    ∃ ts, step s = perform { s with turns := ts } := by
  obtain h | ⟨ts, h | h⟩ := hm
  · exact ⟨s.turns, step_noTurn_pending h hp⟩
  · exact ⟨ts, step_block_pending h hp⟩
  · exact ⟨s.turns, step_poll_pending h hp⟩

/-- All a step of a busy block can be: PERFORM, or the turn of the host or the platform, which stops nothing. -/
theorem step_of_pending {s : State} (hp : s.phase = .pending) :
    (blockMoves s ∧ ∃ ts, step s = perform { s with turns := ts }) ∨ ∃ t, step s = .next t := by
  have performs (hm : blockMoves s) := And.intro hm (step_performs hp hm)
  match ht : s.turns with
  | [] => exact .inl (performs (.inl ht))
  | .block :: ts => exact .inl (performs (.inr ⟨ts, .inl ht⟩))
  | .poll :: ts => exact .inl (performs (.inr ⟨ts, .inr ht⟩))
  | .host op :: ts => exact .inr ⟨_, step_host ht⟩
  | .reset :: ts => exact .inr ⟨_, step_reset ht⟩

/-- All a step of an idle block can be: a next state, or the recorded bus error of a host with nothing left to do. -/
theorem step_of_idle {s : State} (hp : s.phase = .idle) :
    (∃ t, step s = .next t) ∨
      (s.turns = [] ∧ ∃ e, s.hostFault = some e ∧ step s = .fault (.hostBusError e.addr e.width)) := by
  match ht : s.turns with
  | [] =>
    cases hf : s.hostFault with
    | none => exact .inl ⟨_, step_noTurn_idle ht hp hf⟩
    | some e => exact .inr ⟨rfl, e, rfl, step_noTurn_faulted ht hp hf⟩
  | .block :: ts => exact .inl ⟨_, step_block_idle ht hp⟩
  | .poll :: ts => exact .inl ⟨_, step_poll_idle ht hp⟩
  | .host op :: ts => exact .inl ⟨_, step_host ht⟩
  | .reset :: ts => exact .inl ⟨_, step_reset ht⟩

theorem Phase.pending_or_idle (p : Phase) : p = .pending ∨ p = .idle := by cases p <;> decide

/-- The load of a command for the host's check is its issue, the block's turn first (log 5). -/
theorem withFetchWord_command (s : State) (w : Word) :
    s.withFetchWord 32 w.toNat = { s.issue w with turns := .block :: s.turns } := by
  show { s.issue (BitVec.ofNat 32 w.toNat) with turns := .block :: s.turns } = _
  rw [BitVec.ofNat_toNat, BitVec.setWidth_eq]

/-! ### The obligations about the turns -/

/-- Settles O5: each of the block's turns is PERFORM of the pending command, and the host's check issues its word with the
block's turn first. -/
theorem stepPerformsTheCommand : Obligations.StepPerformsTheCommand := by
  refine ⟨fun s i hp hd => ⟨fun ht => ?_, fun ts ht => ?_, fun ts ht => ?_⟩, fun s w i hd => ?_⟩
  · exact (step_noTurn_pending ht hp).trans (perform_of_decode hd)
  · exact (step_poll_pending ht hp).trans (perform_of_decode hd)
  · exact (step_block_pending ht hp).trans (perform_of_decode hd)
  · rw [withFetchWord_command]
    exact (step_block_pending rfl rfl).trans (perform_of_decode hd)

/-- Settles O7: one equation per kind of turn, split by the phase and by whether the host has faulted. -/
theorem stepTakesTheTurn : Obligations.StepTakesTheTurn := by
  intro s ts
  refine ⟨fun op ht hf => ?_, fun op e ht hf => ?_, step_reset, step_block_idle, fun ht hp hf => ?_, fun e ht hp hf => ?_,
    step_noTurn_idle, fun e => step_noTurn_faulted⟩
  · exact (step_host ht).trans (congrArg _ (hostTurn_running op hf))
  · exact (step_host ht).trans (congrArg _ (hostTurn_faulted op hf))
  · exact (step_poll_idle ht hp).trans (congrArg _ (hostTurn_running _ hf))
  · exact (step_poll_idle ht hp).trans (congrArg _ (hostTurn_faulted _ hf))

/-- Settles O10: PERFORM never faults and is refused only in FM mode, and a step that is no PERFORM stops only on the recorded
bus error. -/
theorem stepStopsOnlyAsSpecified : Obligations.StepStopsOnlyAsSpecified := by
  intro s
  obtain hp | hp := s.phase.pending_or_idle
  · obtain ⟨hm, ts, hs⟩ | ⟨t, hs⟩ := step_of_pending hp <;> rw [hs]
    · obtain ⟨t, h, -⟩ | ⟨i, hd, hi, h⟩ := perform_completes_or_refused { s with turns := ts } <;> rw [h]
      · exact ⟨nofun, nofun⟩
      · refine ⟨nofun, fun r hr => ?_⟩
        cases hr
        exact ⟨rfl, i, ⟨hp, hm, hd⟩, hi⟩
    · exact ⟨nofun, nofun⟩
  · obtain ⟨t, hs⟩ | ⟨ht, e, hf, hs⟩ := step_of_idle hp <;> rw [hs]
    · exact ⟨nofun, nofun⟩
    · refine ⟨fun r hr => ?_, nofun⟩
      cases hr
      exact ⟨hp, ht, e, hf, rfl⟩

/-- Settles O11: the write of CMD is the issue, an idle block's turn passes, and a pending command that is not refused
completes in the step that performs it. -/
theorem issuedCommandCompletes : Obligations.IssuedCommandCompletes := by
  refine ⟨fun s v hi => hostWrite_reg_idle hi .cmd v, fun s hi => blockTurn_idle hi, fun s hp safe hturn => ?_⟩
  have moves : blockMoves s := hturn.imp_right (·.elim (·.imp fun _ => .inl) (·.imp fun _ => .inr))
  obtain ⟨ts, hs⟩ := step_performs hp moves
  obtain ⟨t, h, idle, done, cmd⟩ | ⟨i, hd, hi, -⟩ := perform_completes_or_refused { s with turns := ts }
  · exact ⟨t, hs.trans h, idle, done, busy_of_idle idle, cmd⟩
  · exact absurd hi (by rw [safe i hd]; decide)

end Sys2Proof.Machine

/-! What a command stores and where (20_memory.md R71): the bytes an instruction changes lie in the range its rule gives. -/
namespace Sys2Proof.Machine

/-- A byte that a single store changes lies in the stored range. -/
theorem changed_in_store {m m' : Memory} {lo : Nat} {bs : List Byte} (h : m' = m.store lo bs) {a : Nat}
    (hne : m'.byte? a ≠ m.byte? a) : lo ≤ a ∧ a < lo + bs.length := by
  by_contra hout
  exact hne (by rw [h, Memory.byte?_store, if_neg hout])

/-- A byte that a command changes is one its effect changed: an error changes none (60_exceptions.md R334). -/
theorem changed_by_effect {i : Instr} {s t : State} {a : Nat} (h : exec i s = .next t)
    (hne : t.readByte a ≠ s.readByte a) :
    configOk i s = true ∧ argOk i s = true ∧ (effectOf i s).mem.byte? a ≠ s.mem.byte? a := by
  obtain ⟨-, ⟨hc, ha, rfl⟩ | ⟨-, -, rfl⟩ | ⟨-, rfl⟩⟩ := exec_next h
  · refine ⟨hc, ha, fun heq => hne ?_⟩
    simp only [State.readByte, State.unlisted, State.complete_mem, State.complete_epoch, heq, (effectOf_setup i s).epoch]
  · exact absurd (State.readByte_congr rfl rfl a) hne
  · exact absurd (State.readByte_congr rfl rfl a) hne

/-- Settles O49: `effectOf_mem` gives the one store of each command, or DECODE's slots, with the bounds its checks establish. -/
theorem commandStoresStayInRange : Obligations.CommandStoresStayInRange := by
  intro i s t a h hne
  obtain ⟨hc, ha, hmem⟩ := changed_by_effect h hne
  obtain hm | ⟨f, bs, rfl, len, cap, hm⟩ | ⟨bs, hi, len, cap, hm⟩ | ⟨f, bs, rfl, len, cap, hm⟩ | ⟨f, rfl, cap, hm⟩ :=
    effectOf_mem i s hc ha
  · exact absurd (congrArg (Memory.byte? · a) hm) hmem
  · obtain ⟨lo, hi⟩ := changed_in_store hm hmem
    exact .inl ⟨⟨f, rfl⟩, lo, len ▸ hi, cap⟩
  · obtain ⟨lo, below⟩ := changed_in_store hm hmem
    exact .inr (.inl ⟨hi, lo, by omega, cap⟩)
  · obtain ⟨lo, hi⟩ := changed_in_store hm hmem
    exact .inr (.inr (.inl ⟨⟨f, rfl⟩, lo, by omega, cap⟩))
  · rw [hm] at hmem
    have inside : ¬ (a < trackBase ∨ trackBase + s.nsect.toNat * s.cfg.sectorBytes ≤ a) := fun hout =>
      hmem ((decodeEnd_keeps f s).outside a hout)
    exact .inr (.inr (.inr ⟨⟨f, rfl⟩, by omega, by omega, cap⟩))

end Sys2Proof.Machine

/-! The host's accesses (20_memory.md R61 to R63, R67, R68): the accesses the map allows, bus errors, the byte order of the
memories, and the busy rule. -/
namespace Sys2Proof.Machine

/-! ### The address map -/

theorem Width.bytes_pos (w : Width) : 1 ≤ w.bytes := by cases w <;> decide

/-- Registers take aligned words (20_memory.md R61). -/
theorem accessOk_regs_iff (cfg : Config) {a : Nat} (w : Width) (h : a < 0x100) :
    accessOk cfg a w = true ↔ w = .word ∧ a % 4 = 0 := by
  simp [accessOk, regionOf, h]

/-- A memory takes naturally aligned accesses whose first and last byte lie in it (20_memory.md R61, R63). -/
theorem accessOk_of_region {cfg : Config} {a : Nat} {w : Width} {r : Region} (first : regionOf cfg a = some r)
    (last : regionOf cfg (a + w.bytes - 1) = some r) (hr : r ≠ .regs) (aligned : a % w.bytes = 0) :
    accessOk cfg a w = true := by
  cases r with
  | regs => exact absurd rfl hr
  | recMem | track | pulse => simp [accessOk, first, last, aligned]

/-- Settles O54: below 0x100 the register rule; above it, an access is allowed exactly where its first and its last byte lie in
one memory. -/
theorem allowedAccesses : Obligations.AllowedAccesses := by
  intro cfg a w hl
  have width := w.bytes_pos
  have bases : recBase = 0x001000 ∧ trackBase = 0x010000 ∧ pulseBase = 0x100000 := ⟨rfl, rfl, rfl⟩
  obtain ha | ha := Nat.lt_or_ge a 0x100
  · rw [accessOk_regs_iff cfg w ha]
    exact ⟨fun h => .inl ⟨ha, h⟩, fun h => h.elim And.right fun h => by omega⟩
  · constructor
    · intro h
      obtain ⟨r, first, hr, last, aligned⟩ := accessOk_mem h ha
      refine .inr ⟨aligned, ?_⟩
      obtain ⟨rfl, -⟩ | ⟨rfl, -, lo, -⟩ | ⟨rfl, -, lo, -⟩ | ⟨rfl, -, lo, -⟩ := regionOf_cases first <;>
        obtain ⟨e, -⟩ | ⟨e, -, -, hi⟩ | ⟨e, -, -, hi⟩ | ⟨e, -, -, hi⟩ := regionOf_cases last <;> cases e
      · exact absurd rfl hr
      · exact .inl ⟨lo, by omega⟩
      · exact .inr (.inl ⟨lo, by omega⟩)
      · exact .inr (.inr ⟨lo, by omega⟩)
    · rintro (⟨hlt, -⟩ | ⟨aligned, ⟨lo, hi⟩ | ⟨lo, hi⟩ | ⟨lo, hi⟩⟩)
      · omega
      · exact accessOk_of_region (regionOf_rec lo (by omega)) (regionOf_rec (by omega) (by omega)) nofun aligned
      · exact accessOk_of_region (regionOf_track hl lo (by omega)) (regionOf_track hl (by omega) (by omega)) nofun aligned
      · exact accessOk_of_region (regionOf_pulse hl lo (by omega)) (regionOf_pulse hl (by omega) (by omega)) nofun aligned

/-! ### Bus errors -/

/-- PERFORM leaves the host's record alone. -/
theorem perform_hostFault {s t : State} (h : perform s = .next t) : t.hostFault = s.hostFault := by
  obtain ⟨_, -, rfl⟩ | ⟨i, -, -, ⟨-, -, rfl⟩ | ⟨-, -, rfl⟩ | ⟨-, rfl⟩⟩ := perform_next h
  · rfl
  · exact (effectOf_setup i s).hostFault
  · rfl
  · rfl

/-- Settles O55: a forbidden access only records its fault, and a faulted host makes no access that could replace the record. -/
theorem busErrorHasNoEffect : Obligations.BusErrorHasNoEffect := by
  refine ⟨fun s a w v hbad => ⟨if_pos hbad, if_pos hbad⟩, fun s t e hf hstep => ?_⟩
  obtain ⟨ts, -, -, hp⟩ | ⟨op, ts, running, -⟩ | ⟨ts, -, rfl⟩ | ⟨ts, rfl⟩ := step_next hstep
  · exact (perform_hostFault hp).trans hf
  · rw [hf] at running
    cases running
  · exact hf
  · exact hf

/-! ### Bytes in little-endian order -/

theorem two_pow_byte_succ (k : Nat) : 2 ^ (8 * (k + 1)) = 256 * 2 ^ (8 * k) := by
  rw [Nat.mul_add, Nat.pow_add, Nat.mul_comm]

/-- Byte `k` of a number. -/
theorem bytesOfNat_getD {n k : Nat} (v : Nat) (h : k < n) :
    (bytesOfNat n v).getD k 0#8 = BitVec.ofNat 8 (v / 2 ^ (8 * k)) := by
  induction n generalizing k v with
  | zero => omega
  | succ n ih =>
    cases k with
    | zero => exact BitVec.eq_of_toNat_eq (by simp [bytesOfNat])
    | succ k =>
      rw [bytesOfNat, List.getD_cons_succ, ih _ (by omega), Nat.div_div_eq_div_mul, two_pow_byte_succ]

/-- The value of the low bytes of a number is the number cut to them (20_memory.md R68). -/
theorem leValue_bytesOfNat (n v : Nat) : leValue (bytesOfNat n v) = v % 2 ^ (8 * n) := by
  induction n generalizing v with
  | zero => rw [Nat.mul_zero, pow_zero, Nat.mod_one]; rfl
  | succ n ih =>
    have low : (BitVec.ofNat 8 (v % 256)).toNat = v % 256 := Nat.mod_mod v 256
    rw [bytesOfNat, leValue, ih, low, two_pow_byte_succ, Nat.mod_mul]

/-- The value of listed bytes, as a sum over their places (20_memory.md R68). -/
theorem leValue_map_range (n : Nat) (f : Nat → Byte) :
    leValue ((List.range n).map f) = ((List.range n).map fun k => (f k).toNat * 2 ^ (8 * k)).sum := by
  induction n generalizing f with
  | zero => rfl
  | succ n ih =>
    have place (k : Nat) : (f (k + 1)).toNat * 2 ^ (8 * (k + 1)) = 256 * ((f (k + 1)).toNat * 2 ^ (8 * k)) := by
      rw [two_pow_byte_succ, Nat.mul_left_comm]
    simp only [List.range_succ_eq_map, List.map_cons, List.map_map, Function.comp_def, Nat.succ_eq_add_one, leValue,
      List.sum_cons, ih, place, List.sum_map_mul_left, Nat.mul_zero, pow_zero, Nat.mul_one]

/-! ### The memories of an idle block -/

/-- A read of a memory gives the little-endian value of its bytes and changes nothing (20_memory.md R68). -/
theorem hostRead_memory {s : State} {a : BlockAddr} {w : Width} (hi : s.phase = .idle)
    (hok : accessOk s.cfg a.toNat w = true) (ha : 0x100 ≤ a.toNat) :
    s.hostRead a w = { s with busRead := some (BitVec.ofNat 32 (leValue (s.readBytes a.toNat w.bytes))) } := by
  rw [State.hostRead, hok, busy_of_idle hi, State.busValue, if_neg (Nat.not_lt.mpr ha)]
  rfl

/-- A write of a memory stores the low bytes of its value (20_memory.md R68). -/
theorem hostWrite_memory {s : State} {a : BlockAddr} {w : Width} (v : Word) (hi : s.phase = .idle)
    (hok : accessOk s.cfg a.toNat w = true) (ha : 0x100 ≤ a.toNat) :
    s.hostWrite a w v = { s.storeBytes a.toNat (bytesOfNat w.bytes v.toNat) with busRead := none } := by
  rw [State.hostWrite, hok, busy_of_idle hi, State.busStore, if_neg (Nat.not_lt.mpr ha)]
  rfl

/-- No register lies in memory. -/
theorem readReg_storeBytes (s : State) (a : Nat) (bs : List Byte) (r : Reg) :
    (s.storeBytes a bs).readReg r = s.readReg r := by cases r <;> rfl

/-- The bytes an access stores read back as a list. -/
theorem readBytes_bytesOfNat (s : State) (a n v : Nat) :
    (s.storeBytes a (bytesOfNat n v)).readBytes a n = bytesOfNat n v := by
  have h := State.readBytes_storeBytes s a (bytesOfNat n v)
  rwa [bytesOfNat_length] at h

/-- The value an access stores reads back, cut to the access (20_memory.md R68). -/
theorem leValue_readBack (s : State) (a n v : Nat) :
    leValue ((s.storeBytes a (bytesOfNat n v)).readBytes a n) = v % 2 ^ (8 * n) := by
  rw [readBytes_bytesOfNat, leValue_bytesOfNat]

/-- Settles O53: a write is one `storeBytes` of the value's bytes, a read the value of the bytes, and the two agree. -/
theorem hostMemoryIsLittleEndian : Obligations.HostMemoryIsLittleEndian := by
  intro s a w v hi hok ha
  have reads (u : State) (hu : u.phase = .idle) (hcfg : u.cfg = s.cfg) := hostRead_memory hu (hcfg ▸ hok) ha
  rw [hostWrite_memory v hi hok ha]
  refine ⟨rfl, fun k hk => ?_, fun b hb => ?_, fun r => ?_, ?_, fun u hu hcfg => ?_⟩
  · show (s.storeBytes _ _).readByte _ = _
    rw [State.readByte_storeBytes_at _ _ _ _ (by rwa [bytesOfNat_length]), bytesOfNat_getD _ hk]
    exact BitVec.eq_of_toNat_eq (by simp [Nat.shiftRight_eq_div_pow])
  · rw [← bytesOfNat_length w.bytes v.toNat] at hb
    exact State.readByte_storeBytes_of_out s _ _ b hb
  · rw [readReg_busRead, readReg_storeBytes]
  · rw [← leValue_readBack s a.toNat w.bytes v.toNat]
    exact reads _ hi rfl
  · rw [reads u hu hcfg, State.readBytes_eq, leValue_map_range]

/-! ### The busy rule -/

theorem busy_of_pending {s : State} (h : s.phase = .pending) : s.busy = true := by simp [State.busy, h]

/-- An address is a register's iff it is the register's offset (20_memory.md R62). -/
theorem toNat_eq_offset_iff (a : BlockAddr) (r : Reg) : a.toNat = r.offset ↔ a = r.addr := by
  rw [← addr_toNat, BitVec.toNat_inj]

/-- The registers a busy block lets the host read, by address (20_memory.md R67). -/
theorem busyReadable_iff (a : BlockAddr) : busyReadable a.toNat = true ↔ a = Reg.id.addr ∨ a = Reg.status.addr := by
  simp only [busyReadable, Bool.or_eq_true, beq_iff_eq, toNat_eq_offset_iff]

/-- The registers a busy block lets the host write, by address (20_memory.md R67). -/
theorem busyWritable_iff (a : BlockAddr) : busyWritable a.toNat = true ↔ a = Reg.status.addr ∨ a = Reg.irqen.addr := by
  simp only [busyWritable, Bool.or_eq_true, beq_iff_eq, toNat_eq_offset_iff]

/-- The value of an access has no more bits than the access. -/
theorem Width.cut_lt (w : Width) (v : Word) : (w.cut v).toNat < 2 ^ (8 * w.bytes) :=
  Nat.lt_of_le_of_lt (Nat.mod_le _ _) (Nat.mod_lt _ (Nat.two_pow_pos _))

/-- An allowed access to a register is a word (20_memory.md R61). -/
theorem word_of_accessOk_reg {cfg : Config} {r : Reg} {w : Width} (h : accessOk cfg r.addr.toNat w = true) : w = .word :=
  ((accessOk_regs_iff cfg w (by cases r <;> decide)).mp h).1

/-- A read against the busy rule returns a draw and sets BUSYERR (20_memory.md R67). -/
theorem hostRead_violation {s : State} {a : BlockAddr} {w : Width} (hp : s.phase = .pending)
    (hok : accessOk s.cfg a.toNat w = true) (h : busyReadable a.toNat = false) :
    s.hostRead a w =
      { s.busyViolation with busRead := some (w.cut (Config.busyDraw s.draws)), draws := s.draws + 1 } := by
  rw [State.hostRead, hok, busy_of_pending hp, h]
  rfl

/-- A write against the busy rule is dropped and sets BUSYERR (20_memory.md R67). -/
theorem hostWrite_violation {s : State} {a : BlockAddr} {w : Width} (v : Word) (hp : s.phase = .pending)
    (hok : accessOk s.cfg a.toNat w = true) (h : busyWritable a.toNat = false) :
    s.hostWrite a w v = { s.busyViolation with busRead := none } := by
  rw [State.hostWrite, hok, busy_of_pending hp, h]
  rfl

/-- Settles O56: while a command is pending an access is that of a register the rule lists, or a violation. -/
theorem busyRule : Obligations.BusyRule := by
  intro s a w v hp hok
  refine ⟨fun ha => ?_, fun hid hst => ?_, ?_, fun hst hirq => ?_⟩
  · obtain ⟨r, hr, rfl⟩ : ∃ r : Reg, (r = .id ∨ r = .status) ∧ r.addr = a :=
      ha.elim (fun h => ⟨Reg.id, .inl rfl, h.symm⟩) fun h => ⟨Reg.status, .inr rfl, h.symm⟩
    obtain rfl := word_of_accessOk_reg hok
    have readable : busyReadable r.offset = true := by obtain rfl | rfl := hr <;> rfl
    exact ⟨r, hr, rfl, hostRead_reg (by rw [readable, Bool.not_true, Bool.and_false])⟩
  · have forbidden : busyReadable a.toNat = false :=
      Bool.eq_false_iff.mpr fun h => ((busyReadable_iff a).mp h).elim hid hst
    exact ⟨_, w.cut_lt _, hostRead_violation hp hok forbidden⟩
  · rintro rfl
    obtain rfl := word_of_accessOk_reg hok
    exact hostWrite_reg (r := .irqen) v (Bool.and_false _)
  · have forbidden : busyWritable a.toNat = false :=
      Bool.eq_false_iff.mpr fun h => ((busyWritable_iff a).mp h).elim hst hirq
    exact hostWrite_violation v hp hok forbidden

end Sys2Proof.Machine

/-! The encoding (30_encoding.md R91, R92, R94, R98): how a command word is taken apart, which words are commands, and that
decoding and encoding are inverse to each other. -/
namespace Sys2Proof.Machine

/-! ### Command words -/

/-- A command word as a number: its opcode below its three flags (30_encoding.md R91). -/
theorem commandWord_toNat {op : Nat} (h : op < 256) (f : Flags) :
    (commandWord op f).toNat = op + f.packed.toNat * 256 + f.clrv.toNat * 512 + f.fm.toNat * 1024 := by
  have hp := f.packed.toNat_lt
  have hc := f.clrv.toNat_lt
  have hm := f.fm.toNat_lt
  rw [commandWord, BitVec.toNat_ofNat, Nat.mod_eq_of_lt (by omega)]

/-- The flags put into a command word are the ones read from it (30_encoding.md R91). -/
theorem flagsOfWord_commandWord {op : Nat} (h : op < 256) (f : Flags) : flagsOfWord (commandWord op f) = f := by
  have nest : commandWord op f =
      BitVec.ofNat 32 (op + (f.packed.toNat + (f.clrv.toNat + (f.fm.toNat + 0 * 2) * 2) * 2) * 2 ^ 8) :=
    congrArg (BitVec.ofNat 32) (by omega)
  simp only [flagsOfWord, nest, BitVec.getLsbD_ofNat, testBit_lowField _ _ (show op < 2 ^ 8 from h), testBit_flag]
  rfl

/-- A word whose upper bits are 0 is made of its opcode and its flags (30_encoding.md R91, R94). -/
theorem commandWord_of_word {w : Word} (h : w.toNat / 2048 = 0) : commandWord (w.toNat % 256) (flagsOfWord w) = w := by
  have hp : (flagsOfWord w).packed.toNat = w.toNat / 256 % 2 := Nat.toNat_testBit w.toNat 8
  have hc : (flagsOfWord w).clrv.toNat = w.toNat / 512 % 2 := Nat.toNat_testBit w.toNat 9
  have hm : (flagsOfWord w).fm.toNat = w.toNat / 1024 % 2 := Nat.toNat_testBit w.toNat 10
  refine BitVec.eq_of_toNat_eq ?_
  rw [commandWord_toNat (by omega), hp, hc, hm]
  omega

/-- A command word is decoded by its opcode and its flags (30_encoding.md R91). -/
theorem decodeCommand_commandWord {op : Nat} (h : op < 256) (f : Flags) :
    decodeCommand (commandWord op f) = decodeOpcode op f := by
  have hn := commandWord_toNat h f
  have hp := f.packed.toNat_lt
  have hc := f.clrv.toNat_lt
  have hm := f.fm.toNat_lt
  rw [decodeCommand, if_pos (by omega), flagsOfWord_commandWord h, show (commandWord op f).toNat % 256 = op by omega]

/-- What decodes is the command word of an opcode of the map (30_encoding.md R91, R94). -/
theorem decodeCommand_ok {w : Word} {i : Instr} (h : decodeCommand w = .ok i) :
    ∃ op f, w = commandWord op f ∧ decodeOpcode op f = .ok i := by
  rw [decodeCommand] at h
  split at h
  · exact ⟨_, _, (commandWord_of_word ‹_›).symm, h⟩
  · cases h

/-! ### The opcode map -/

/-- An opcode of the map has an instruction (30_encoding.md R92). -/
theorem decodeOpcode_of_lt {op : Nat} (h : op < 0x0D) (f : Flags) : ∃ i, decodeOpcode op f = .ok i := by
  interval_cases op <;> exact ⟨_, rfl⟩

/-- A reserved opcode has none (30_encoding.md R94). -/
theorem decodeOpcode_of_ge {op : Nat} (h : 0x0D ≤ op) (f : Flags) : decodeOpcode op f = .error .reservedOpcode := by
  obtain ⟨n, rfl⟩ := Nat.exists_eq_add_of_le' h
  rfl

/-- The map gives an opcode the well-formed instruction that is encoded with it (30_encoding.md R92). -/
theorem encode_of_decodeOpcode {op : Nat} {f : Flags} {i : Instr} (h : decodeOpcode op f = .ok i) :
    WellFormed i = true ∧ encode i = .command (commandWord op f) := by
  obtain hop | hop := Nat.lt_or_ge op 0x0D
  · interval_cases op <;> cases h <;> exact ⟨rfl, rfl⟩
  · rw [decodeOpcode_of_ge hop] at h
    cases h

/-- A command is encoded with the opcode the map gives it (30_encoding.md R92). -/
theorem encode_command {i : Instr} {w : Word} (h : encode i = .command w) :
    ∃ op f, op < 256 ∧ w = commandWord op f ∧ decodeOpcode op f = .ok i := by
  cases i <;> cases h <;> exact ⟨_, _, by decide, rfl, rfl⟩

/-! ### Elements -/

/-- The lead bytes of GW1, by the tests the decoder makes (30_encoding.md R98). -/
theorem isGw1Lead_iff (b0 : Byte) : isGw1Lead b0 = true ↔ b0 ≠ 0#8 ∧ b0.toNat ≤ 0xF9 := by
  rw [isGw1Lead, Bool.and_eq_true, decide_eq_true_eq, decide_eq_true_eq, BitVec.toNat_ne, BitVec.toNat_ofNat]
  omega

/-- The lead bytes of GW2 and GW2-END, by the tests the decoder makes (30_encoding.md R98). -/
theorem isGw2Lead_iff (b0 : Byte) :
    isGw2Lead b0 = true ↔ b0 ≠ 0#8 ∧ ¬ b0.toNat ≤ 0xF9 ∧ b0.toNat ≤ 0xFE := by
  rw [isGw2Lead, Bool.and_eq_true, decide_eq_true_eq, decide_eq_true_eq, BitVec.toNat_ne, BitVec.toNat_ofNat]
  omega

/-- The lead byte of the six-byte forms is the one above all others (30_encoding.md R98). -/
theorem eq_0xFF_of_lead {b0 : Byte} (h : ¬ b0.toNat ≤ 0xFE) : b0 = 0xFF#8 := by
  have := b0.isLt
  exact BitVec.eq_of_toNat_eq (by rw [BitVec.toNat_ofNat]; omega)

/-- An element that decodes is a well-formed one, its encoding in front of the bytes that are left (30_encoding.md R98). -/
theorem decodeElement_ok {bytes rest : List Byte} {i : Instr} (h : decodeElement bytes = .ok (i, rest)) :
    WellFormed i = true ∧ ∃ pre, encode i = .element pre ∧ bytes = pre ++ rest := by
  cases bytes with
  | nil => cases h
  | cons b0 bs =>
    rw [decodeElement_cons] at h
    split at h
    · rename_i zero
      cases h
      exact ⟨rfl, _, rfl, by rw [zero]; rfl⟩
    · rename_i nonzero
      split at h
      · rename_i low
        cases h
        exact ⟨(isGw1Lead_iff b0).mpr ⟨nonzero, low⟩, _, rfl, rfl⟩
      · rename_i high
        split at h
        · rename_i two
          have lead := (isGw2Lead_iff b0).mpr ⟨nonzero, high, two⟩
          split at h
          · split at h <;> rename_i second <;> cases h
            · exact ⟨lead, _, rfl, by rw [second]; rfl⟩
            · exact ⟨(Bool.and_eq_true_iff).mpr ⟨lead, decide_eq_true second⟩, _, rfl, rfl⟩
          · cases h
        · rename_i six
          obtain rfl := eq_0xFF_of_lead six
          split at h
          · split at h <;> rename_i second <;> cases h
            · exact ⟨rfl, _, rfl, by rw [second]; rfl⟩
            · exact ⟨decide_eq_true second, _, rfl, rfl⟩
          · cases h

/-- A well-formed element decodes from its encoding, whatever bytes follow it (30_encoding.md R98). -/
theorem decodeElement_encode {i : Instr} {bytes : List Byte} (hw : WellFormed i = true) (he : encode i = .element bytes)
    (rest : List Byte) : decodeElement (bytes ++ rest) = .ok (i, rest) := by
  cases i <;> cases he
  case endMark => rfl
  case gw1 b0 =>
    obtain ⟨nonzero, low⟩ := (isGw1Lead_iff b0).mp hw
    exact (if_neg nonzero).trans (if_pos low)
  case gw2 b0 b1 =>
    obtain ⟨lead, second⟩ := Bool.and_eq_true_iff.mp hw
    obtain ⟨nonzero, high, two⟩ := (isGw2Lead_iff b0).mp lead
    exact (if_neg nonzero).trans ((if_neg high).trans ((if_pos two).trans (if_neg (of_decide_eq_true second))))
  case gw2End b0 =>
    obtain ⟨nonzero, high, two⟩ := (isGw2Lead_iff b0).mp hw
    exact (if_neg nonzero).trans ((if_neg high).trans ((if_pos two).trans (if_pos rfl)))
  case gw6 => rfl
  case gw6Skip b1 p0 p1 p2 p3 => exact if_neg (of_decide_eq_true hw)

/-! ### The obligations about the encoding -/

/-- Settles O2: a command is encoded with the opcode and the flags that the decoder reads back, an element with the bytes that
name its form. -/
theorem decodeOfEncode : Obligations.DecodeOfEncode := by
  refine fun i hw => ⟨fun w he => ?_, fun bytes rest he => decodeElement_encode hw he rest⟩
  obtain ⟨op, f, hop, rfl, hd⟩ := encode_command he
  exact (decodeCommand_commandWord hop f).trans hd

/-- Settles O3: a command word is made of the opcode and the flags it decodes by, and an element of the bytes of its form. -/
theorem encodeOfDecode : Obligations.EncodeOfDecode := by
  refine ⟨fun w i h => ?_, fun bytes i rest h => decodeElement_ok h⟩
  obtain ⟨op, f, rfl, hd⟩ := decodeCommand_ok h
  exact encode_of_decodeOpcode hd

/-- Settles O1: the decoder is run on each word and on each list of bytes. -/
theorem specWordsDecode : Obligations.SpecWordsDecode := by
  unfold Obligations.SpecWordsDecode
  decide

/-- A word with a reserved opcode or with a nonzero bit above the flags is no command (30_encoding.md R94, R97). -/
theorem decodeCommand_of_illegal {w : Word} (h : 0x0D ≤ w.toNat % 256 ∨ w.toNat / 2048 ≠ 0) :
    ∃ e, decodeCommand w = .error e := by
  rw [decodeCommand]
  split
  · rename_i upper
    exact ⟨_, decodeOpcode_of_ge (h.resolve_right (not_not_intro upper)) _⟩
  · exact ⟨_, rfl⟩

/-- PERFORM of an illegal command word is the command error with code 1 (30_encoding.md R94). -/
theorem perform_illegalWord {s : State} (h : 0x0D ≤ s.cmd.toNat % 256 ∨ s.cmd.toNat / 2048 ≠ 0) :
    perform s = .next (afterError 1#4 s) := by
  obtain ⟨e, he⟩ := decodeCommand_of_illegal h
  exact perform_of_illegal he

/-- Settles O4: each turn of the block is PERFORM, which ends an illegal word in its error; the opcodes below 0x0D are those of
the map. -/
theorem illegalCommandWords : Obligations.IllegalCommandWords := by
  refine fun s => ⟨fun hp illegal => ⟨fun ht => ?_, fun ts ht => ?_, fun ts ht => ?_⟩, fun hop upper => ?_⟩
  · exact (step_noTurn_pending ht hp).trans (perform_illegalWord illegal)
  · exact (step_poll_pending ht hp).trans (perform_illegalWord illegal)
  · exact (step_block_pending ht hp).trans (perform_illegalWord illegal)
  · rw [decodeCommand, if_pos upper]
    exact decodeOpcode_of_lt hop _

end Sys2Proof.Machine

/-! The operand bits of a command (30_encoding.md R92, R95, R96): the framing commands refuse MODE = 1, and a command reads only
the flags its row names. -/
namespace Sys2Proof.Machine

/-- Settles O12: the refusal is the first thing a framing command does; the meanings of the other commands take no MODE. -/
theorem fmFramingIsRefused : Obligations.FmFramingIsRefused :=
  ⟨fun _ _ _ => ⟨rfl, rfl, rfl, rfl, rfl⟩, fun _ _ _ _ => ⟨rfl, rfl, rfl, rfl, rfl, rfl, rfl, rfl⟩⟩

/-- Settles O13: a word of an opcode of the map decodes whatever its flags, and the meanings take the flags of the map's column
alone. -/
theorem unusedFlagsAreIgnored : Obligations.UnusedFlagsAreIgnored := by
  refine ⟨fun op p c m hop => ?_, fun f g s => ⟨rfl, rfl, rfl, rfl, rfl, rfl, rfl, fun hp => ?_, fun hp hm => ?_⟩⟩
  · obtain ⟨i, hi⟩ := decodeOpcode_of_lt hop ⟨p, c, m⟩
    exact ⟨i, (decodeCommand_commandWord (by omega) ⟨p, c, m⟩).trans hi⟩
  · simp only [exec, execReadsym, hp]
  · simp only [exec, execSync, execDemod, execMod, execEncode, unlessFm, hp, hm, and_self]

end Sys2Proof.Machine

/-! The element forms (30_encoding.md R98): each acts as UNPACK with one outcome of `parse(CURSOR)` (log 6), so that UNPACK
does what the element at CURSOR stands for. -/
namespace Sys2Proof.Machine

/-- UNPACK with a given outcome of `parse(CURSOR)` (43_pulse_codec.md R178). -/
def unpackWith (r : Option StreamElem) (s : State) : Host.Outcome State Fault Refusal :=
  orError s.streamOk .badConfig s (.next (unpackResult r s).complete)

theorem exec_unpack (f : Flags) (s : State) : exec (.unpack f) s = unpackWith s.parseAtCursor s := rfl

theorem exec_endMark (s : State) : exec .endMark s = unpackWith none s := rfl

theorem exec_gw1 (b0 : Byte) (s : State) : exec (.gw1 b0) s = unpackWith (s.elementAtCursor 1 b0.toNat) s := rfl

theorem exec_gw2 (b0 b1 : Byte) (s : State) :
    exec (.gw2 b0 b1) s = unpackWith (s.elementAtCursor 2 (gw2Value b0 b1)) s := rfl

theorem exec_gw2End (b0 : Byte) (s : State) : exec (.gw2End b0) s = unpackWith none s := rfl

theorem exec_gw6 (p0 p1 p2 p3 : Byte) (s : State) :
    exec (.gw6 p0 p1 p2 p3) s = unpackWith (s.elementAtCursor 6 (gw6Value p0 p1 p2 p3)) s := rfl

theorem exec_gw6Skip (b1 p0 p1 p2 p3 : Byte) (s : State) :
    exec (.gw6Skip b1 p0 p1 p2 p3) s = unpackWith s.parsePastSkip s := rfl

/-! ### The stream at CURSOR -/

/-- An element of which the stream holds all bytes is the one at CURSOR. -/
theorem elementAtCursor_of_pulseFrom {s : State} {bs r : List Byte} (h : s.pulseFrom s.cursor.toNat = bs ++ r)
    (hpos : 0 < bs.length) (v : Nat) :
    s.elementAtCursor bs.length v = some ⟨v, s.cursor.toNat + bs.length⟩ := by
  have len := congrArg List.length h
  rw [State.pulseFrom_length, List.length_append] at len
  exact if_pos (by omega)

/-- Behind a six-byte element, the parser goes on with the stream from there (43_pulse_codec.md R175). -/
theorem parsePastSkip_of_pulseFrom {s : State} {b0 b1 p0 p1 p2 p3 : Byte} {r : List Byte}
    (h : s.pulseFrom s.cursor.toNat = b0 :: b1 :: p0 :: p1 :: p2 :: p3 :: r) :
    s.parsePastSkip = (parse r (s.cursor.toNat + 6)).map Prod.fst := by
  have len := congrArg List.length h
  have rest := congrArg (List.drop 6) h
  rw [State.pulseFrom_length] at len
  rw [State.pulseFrom_drop] at rest
  simp only [List.length_cons] at len
  rw [State.parsePastSkip, if_pos (by omega), rest]
  rfl

/-- UNPACK does what the element at CURSOR stands for (30_encoding.md R98, 43_pulse_codec.md R173). -/
theorem exec_unpack_of_fetch {s : State} {i : Instr} {rest : List Byte} (f : Flags)
    (h : fetchElement s = .ok (i, rest)) : exec (.unpack f) s = exec i s := by
  rw [exec_unpack, State.parseAtCursor]
  obtain ⟨rfl, hp⟩ | ⟨b0, rfl, hb, hp⟩ | ⟨b0, b1, rfl, hb, hp⟩ | ⟨b0, rfl, hp⟩ | ⟨p0, p1, p2, p3, rfl, hb, hp⟩ |
    ⟨b1, p0, p1, p2, p3, rfl, hb, -, hp⟩ := parse_of_decode _ s.cursor.toNat i rest h <;> rw [hp]
  · rfl
  · rw [exec_gw1]
    exact congrArg (unpackWith · s) (elementAtCursor_of_pulseFrom (bs := [b0]) hb (Nat.succ_pos _) _).symm
  · rw [exec_gw2]
    exact congrArg (unpackWith · s) (elementAtCursor_of_pulseFrom (bs := [b0, b1]) hb (Nat.succ_pos _) _).symm
  · rfl
  · rw [exec_gw6]
    exact congrArg (unpackWith · s)
      (elementAtCursor_of_pulseFrom (bs := [0xFF#8, 2#8, p0, p1, p2, p3]) hb (Nat.succ_pos _) _).symm
  · rw [exec_gw6Skip, parsePastSkip_of_pulseFrom hb]

/-- UNPACK is at END where no whole element stands at CURSOR (30_encoding.md R98). -/
theorem exec_unpack_of_no_fetch {s : State} {e : Reject} (f : Flags) (h : fetchElement s = .error e) :
    exec (.unpack f) s = exec .endMark s := by
  rw [exec_unpack, State.parseAtCursor, parse_of_decode_error _ _ e h]
  rfl

/-! ### The element placed for the host's check -/

/-- Only the rows of 32 bits are commands. -/
theorem not_isCommandWidth {nbits : Nat} (h : nbits ≠ 32) : ¬ isCommandWidth nbits = true := fun hw => h (eq_of_beq hw)

/-- The bits of an element row decode as the element of their bytes (30_encoding.md R98). -/
theorem decodeElement_of_tableWord {nbits w : Nat} {i : Instr} (hn : nbits ≠ 32) (h : decodeTableWord nbits w = some i) :
    ∃ rest, decodeElement (bytesOfNat longestElement (w % 2 ^ nbits)) = .ok (i, rest) := by
  rw [decodeTableWord, codeOfTable, if_neg (not_isCommandWidth hn), decode] at h
  generalize decodeElement (bytesOfNat longestElement (w % 2 ^ nbits)) = read at h ⊢
  match read with
  | .error _ => cases h
  | .ok (_, rest) =>
    cases h
    exact ⟨rest, rfl⟩

/-- Bytes that fill PULSE from CURSOR to PLEN are the stream at CURSOR. -/
theorem pulseFrom_of_placed {s t : State} {c : Nat} {bs : List Byte} (small : c + bs.length < 2 ^ 32)
    (mem : t.mem = (s.storeBytes (pulseBase + c) bs).mem) (epoch : t.epoch = s.epoch) (cursor : t.cursor = BitVec.ofNat 32 c)
    (plen : t.plen = BitVec.ofNat 32 (c + bs.length)) : t.pulseFrom t.cursor.toNat = bs := by
  rw [State.pulseFrom, cursor, plen, BitVec.toNat_ofNat, BitVec.toNat_ofNat, Nat.mod_eq_of_lt small,
    Nat.mod_eq_of_lt (by omega), Nat.add_sub_cancel_left, State.readBytes_congr mem epoch, State.readBytes_storeBytes]

/-- The element placed for the host's check is the one UNPACK fetches: with room for six bytes it is put in whole (log 5). -/
theorem fetchElement_withFetchWord {s : State} (hl : s.cfg.legal) (room : 6 ≤ s.cfg.pulseCap) {nbits : Nat}
    (hn : nbits ≠ 32) (w : Nat) (ts : List Turn) :
    fetchElement { s.withFetchWord nbits w with turns := ts } =
      decodeElement (bytesOfNat longestElement (w % 2 ^ nbits)) := by
  obtain ⟨-, -, -, -, cap, -⟩ := hl
  have whole : min longestElement s.cfg.pulseCap = longestElement := Nat.min_eq_left room
  have place : (if s.cursor.toNat + longestElement ≤ s.cfg.pulseCap then s.cursor.toNat else 0) + longestElement ≤
      s.cfg.pulseCap := by
    split
    · assumption
    · rwa [Nat.zero_add]
  rw [fetchElement, State.withFetchWord, if_neg (not_isCommandWidth hn), whole]
  refine congrArg decodeElement (pulseFrom_of_placed (s := s) ?_ rfl rfl rfl ?_) <;> rw [bytesOfNat_length]
  omega

/-- The step of the host's check is UNPACK on the placed element (log 5). -/
theorem step_withFetchWord_element (s : State) {nbits : Nat} (hn : nbits ≠ 32) (w : Nat) :
    step (s.withFetchWord nbits w) =
      exec (.unpack ⟨false, false, false⟩) { s.withFetchWord nbits w with turns := s.turns } := by
  have issued : (s.withFetchWord nbits w).turns = .block :: s.turns ∧ (s.withFetchWord nbits w).phase = .pending ∧
      (s.withFetchWord nbits w).cmd = unpackWord := by
    rw [State.withFetchWord, if_neg (not_isCommandWidth hn)]
    exact ⟨rfl, rfl, rfl⟩
  obtain ⟨turns, phase, cmd⟩ := issued
  exact (step_block_pending turns phase).trans (perform_of_decode (congrArg decodeCommand cmd))

/-- Settles O6: UNPACK and the element form at CURSOR are UNPACK with the same outcome of `parse`; the host's check places the
element there and issues UNPACK. -/
theorem unpackRunsTheElementAtCursor : Obligations.UnpackRunsTheElementAtCursor := by
  refine fun f s => ⟨fun i rest => exec_unpack_of_fetch f, fun e => exec_unpack_of_no_fetch f, ?_⟩
  intro nbits w i hl room hn hd
  obtain ⟨rest, placed⟩ := decodeElement_of_tableWord hn hd
  have fetched := (fetchElement_withFetchWord hl room hn w s.turns).trans placed
  exact (step_withFetchWord_element s hn w).trans (exec_unpack_of_fetch _ fetched)

/-! ### Values and ends -/

/-- The state a value of the stream leaves: RESULT, CURSOR behind the element, EOF there (43_pulse_codec.md R178). -/
def valueTaken (v c' : Nat) (s : State) : State :=
  { s with
    phase := .idle
    status := { s.status with done := true, eof := (nextAt true s c').isNone }
    result := BitVec.ofNat 32 v
    cursor := BitVec.ofNat 32 c' }

/-- The state END leaves: CURSOR where it was, EOF there (43_pulse_codec.md R178). -/
def endReached (s : State) : State :=
  { s with
    phase := .idle
    status := { s.status with done := true, eof := (nextAt true s s.cursor.toNat).isNone }
    result := 0x80000000#32 }

section Checked

variable {s : State} (hs : s.streamOk = true)
include hs

theorem unpackWith_value (v c' : Nat) : unpackWith (some ⟨v, c'⟩) s = .next (valueTaken v c' s) := by
  rw [unpackWith, orError_of_true _ _ _ hs, valueTaken, nextAt_isNone]
  rfl

theorem unpackWith_end : unpackWith none s = .next (endReached s) := by
  rw [unpackWith, orError_of_true _ _ _ hs, endReached, nextAt_isNone]
  rfl

/-- An element whose bytes would extend past PLEN reads as END (30_encoding.md R98). -/
theorem unpackWith_elementAtCursor (len v : Nat) :
    unpackWith (s.elementAtCursor len v) s =
      .next (if s.cursor.toNat + len ≤ s.plen.toNat then valueTaken v (s.cursor.toNat + len) s else endReached s) := by
  rw [State.elementAtCursor]
  split
  · exact unpackWith_value hs _ _
  · exact unpackWith_end hs

end Checked

/-- Settles O33: each form is UNPACK with its value and next position, or with END. -/
theorem elementForms : Obligations.ElementForms := by
  intro s cap inStream
  have hs : s.streamOk = true := by
    rw [State.streamOk, decide_eq_true cap, decide_eq_true inStream]
    rfl
  refine ⟨unpackWith_end hs, fun b0 => unpackWith_elementAtCursor hs 1 _, fun b0 b1 => unpackWith_elementAtCursor hs 2 _,
    fun b0 => unpackWith_end hs, fun p0 p1 p2 p3 => unpackWith_elementAtCursor hs 6 _, fun b1 p0 p1 p2 p3 => ?_⟩
  rw [exec_gw6Skip, State.parsePastSkip, nextAt, nextElem, if_pos rfl]
  split
  · cases parse (s.pulseFrom (s.cursor.toNat + 6)) (s.cursor.toNat + 6) with
    | none => exact unpackWith_end hs
    | some p => exact unpackWith_value hs _ _
  · exact unpackWith_end hs

end Sys2Proof.Machine

/-! The cells of data bytes and of the sync words, and the magic value they make (30_encoding.md R101, R102). -/
namespace Sys2Proof.Machine

/-- The clock cell and the data cell of bit `j`, the bit before it given by `prev` for the first (30_encoding.md R101). -/
theorem mfmCells_getD (prev : Bool) (ds : List Bool) {j : Nat} (h : j < ds.length) :
    (mfmCells prev ds).getD (2 * j + 1) false = ds.getD j false ∧
      (mfmCells prev ds).getD (2 * j) false =
        !((if j = 0 then prev else ds.getD (j - 1) false) || ds.getD j false) := by
  induction ds generalizing prev j with
  | nil => cases h
  | cons d ds ih =>
    cases j with
    | zero => exact ⟨rfl, rfl⟩
    | succ j =>
      obtain ⟨data, clock⟩ := ih d (Nat.lt_of_succ_lt_succ h)
      refine ⟨data, clock.trans ?_⟩
      cases j <;> rfl

/-- Settles O37: the cells of any data bits by induction on them; the sync words and the magic value by evaluation. -/
theorem cellWordsAndMagic : Obligations.CellWordsAndMagic :=
  ⟨fun prev ds _ h => mfmCells_getD prev ds h, by decide, by decide, by decide, by decide, rfl, rfl, rfl⟩

end Sys2Proof.Machine

/-! The "writes" column of the opcode map (30_encoding.md R92): each command leaves alone every resource its row does not
name. -/
namespace Sys2Proof.Machine

namespace Resource

/-- The completion of a command changes no resource. -/
theorem same_complete {s t : State} {r : Resource} (h : r.same s t) : r.same s t.complete := by cases r <;> exact h

/-- A command error changes no resource (60_exceptions.md R334). -/
theorem same_cmdError (s : State) (e : ErrCode) (r : Resource) : r.same s (s.cmdError e) := by
  cases r
  case encoder => exact ⟨rfl, rfl⟩
  case recMem | track => exact fun _ _ _ => rfl
  case pulse => exact fun _ _ => rfl
  all_goals rfl

/-! ### Registers and flags -/

/-- The resources that are bytes of a memory; the others are registers and flags. -/
def isMemory : Resource → Bool
  | .recMem | .track | .pulse => true
  | _ => false

/-- What UNPACK does with any outcome of `parse` (43_pulse_codec.md R178). -/
theorem same_unpackResult {r : Resource} (h : (r.isMemory || [result, cursor, eof].contains r) = false)
    (e : Option StreamElem) (s : State) : r.same s (unpackResult e s) := by
  cases e <;> cases r <;> cases h
  all_goals constructor <;> rfl

/-- Each effect is an update of the registers and flags of its row: the others are the same fields as before. -/
theorem same_effectOf_register {i : Instr} {r : Resource} (h : (r.isMemory || (writtenBy i).contains r) = false)
    (s : State) : r.same s (effectOf i s) := by
  cases i
  case unpack | endMark | gw1 | gw2 | gw2End | gw6 | gw6Skip => exact same_unpackResult h _ s
  all_goals
    simp only [effectOf, packEffect_eq, modEffect_eq, encodeEffect_eq]
    cases r <;> cases h
    all_goals constructor <;> rfl

/-! ### Memories -/

/-- REC ends before TRACK begins, and TRACK before PULSE (20_memory.md R62). -/
theorem memories_apart {cfg : Config} (hl : cfg.legal) :
    recBase + cfg.recCap ≤ trackBase ∧ trackBase + cfg.trackBytes ≤ pulseBase := by
  have bases : recBase = 0x001000 ∧ trackBase = 0x010000 ∧ pulseBase = 0x100000 := ⟨rfl, rfl, rfl⟩
  have sector := sectorBytes_le hl
  have track := trackBytes_le hl
  have cap : cfg.recCap = cfg.sectorBytes + 3 := rfl
  omega

/-- A byte that a command changes lies in a memory its row names (20_memory.md R62, R71). -/
theorem changed_byte_written {i : Instr} {s t : State} {a : Nat} (hl : s.cfg.legal) (h : exec i s = .next t)
    (hne : t.readByte a ≠ s.readByte a) :
    (.recMem ∈ writtenBy i ∧ a < trackBase) ∨ (.track ∈ writtenBy i ∧ trackBase ≤ a ∧ a < pulseBase) ∨
      (.pulse ∈ writtenBy i ∧ pulseBase ≤ a) := by
  obtain ⟨recEnd, trackEnd⟩ := memories_apart hl
  obtain ⟨⟨f, rfl⟩, lo, hi, cap⟩ | ⟨⟨f, rfl⟩ | ⟨f, rfl⟩, lo, hi, cap⟩ | ⟨⟨f, rfl⟩, lo, hi, cap⟩ | ⟨⟨f, rfl⟩, lo, hi, cap⟩ :=
    commandStoresStayInRange i s t a h hne
  · exact .inl ⟨.head _, by omega⟩
  · exact .inr (.inr ⟨.head _, by omega⟩)
  · exact .inr (.inr ⟨.head _, by omega⟩)
  · exact .inr (.inr ⟨.head _, lo⟩)
  · have slots : s.nsect.toNat * s.cfg.sectorBytes ≤ s.cfg.trackBytes := Nat.mul_le_mul_right _ cap
    exact .inr (.inl ⟨.tail _ (.head _), lo, by omega⟩)

/-- A memory that a command's row does not name reads as before. -/
theorem same_memory {i : Instr} {s t : State} {r : Resource} (hl : s.cfg.legal) (h : exec i s = .next t)
    (hm : r.isMemory = true) (hr : r ∉ writtenBy i) : r.same s t := by
  obtain ⟨recEnd, trackEnd⟩ := memories_apart hl
  have apart : trackBase ≤ pulseBase := by omega
  cases r <;> cases hm
  case recMem =>
    refine fun a lo hi => by_contra fun hne => ?_
    obtain ⟨hw, -⟩ | ⟨-, out, -⟩ | ⟨-, out⟩ := changed_byte_written hl h hne
    · exact hr hw
    · omega
    · omega
  case track =>
    refine fun a lo hi => by_contra fun hne => ?_
    obtain ⟨-, out⟩ | ⟨hw, -, -⟩ | ⟨-, out⟩ := changed_byte_written hl h hne
    · omega
    · exact hr hw
    · omega
  case pulse =>
    refine fun a lo => by_contra fun hne => ?_
    obtain ⟨-, out⟩ | ⟨-, -, out⟩ | ⟨hw, -⟩ := changed_byte_written hl h hne
    · omega
    · omega
    · exact hr hw

/-- A resource that a command's row does not name holds the same as before (30_encoding.md R92). -/
theorem same_of_not_written {i : Instr} {s t : State} {r : Resource} (hl : s.cfg.legal) (h : exec i s = .next t)
    (hr : r ∉ writtenBy i) : r.same s t := by
  cases hm : r.isMemory with
  | true => exact same_memory hl h hm hr
  | false =>
    obtain ⟨-, ⟨-, -, rfl⟩ | ⟨-, -, rfl⟩ | ⟨-, rfl⟩⟩ := exec_next h
    · refine same_complete (same_effectOf_register ?_ s)
      rw [hm, Bool.false_or, List.contains_eq_mem, decide_eq_false hr]
    · exact same_cmdError s _ r
    · exact same_cmdError s _ r

end Resource

/-- What no command writes is what an effect and its completion leave alone (30_encoding.md R92). -/
theorem SameSetup.complete {s t : State} (h : SameSetup s t) : SameSetup s t.complete := { h with }

/-- A command error writes STATUS and PHASE alone (60_exceptions.md R334). -/
theorem SameSetup.cmdError (s : State) (e : ErrCode) : SameSetup s (s.cmdError e) := by constructor <;> rfl

/-- Settles O48: an effect writes the resources of its row and nothing of the rest, and neither its completion nor an error
changes a resource. -/
theorem commandsWriteOnlyWhatTheMapLists : Obligations.CommandsWriteOnlyWhatTheMapLists := by
  intro i s t hl h
  have resources : ∀ r, r ∉ Resource.writtenBy i → r.same s t := fun r hr => Resource.same_of_not_written hl h hr
  obtain ⟨-, ⟨-, -, rfl⟩ | ⟨-, -, rfl⟩ | ⟨-, rfl⟩⟩ := exec_next h
  · obtain ⟨-, -, busyerr⟩ := effectOf_status i s
    obtain ⟨tagv, tag⟩ := effectOf_cache i s
    exact ⟨(effectOf_setup i s).complete, tagv, tag, busyerr, resources⟩
  · exact ⟨.cmdError s _, rfl, rfl, rfl, resources⟩
  · exact ⟨.cmdError s _, rfl, rfl, rfl, resources⟩

end Sys2Proof.Machine

/-! The classifier as a function of the duration (41_classifier_sync.md R120, R121, R130): the ordinals and the intervals that T2
and T3 bound. -/
namespace Sys2Proof.Machine

/-! ### Ordinals and boundaries -/

theorem symbolCode_eq_zero_iff {t2 t3 d : Nat} : symbolCode t2 t3 d = 0 ↔ d ≤ t2 := by
  grind [symbolCode]

theorem symbolCode_eq_one_iff {t2 t3 d : Nat} : symbolCode t2 t3 d = 1 ↔ t2 < d ∧ d ≤ t3 := by
  grind [symbolCode]

theorem symbolCode_eq_two_iff {t2 t3 d : Nat} : symbolCode t2 t3 d = 2 ↔ t2 < d ∧ t3 < d := by
  grind [symbolCode]

/-- A longer duration never has a lower ordinal, for any thresholds. -/
theorem symbolCode_monotone (t2 t3 : Nat) : Monotone (symbolCode t2 t3) := by
  intro d d' longer
  unfold symbolCode
  split_ifs <;> omega

/-- Thresholds in the wrong order leave no duration to Medium (41_classifier_sync.md R121). -/
theorem classifyDur_of_ge {t2 t3 : Nat} (h : t3 ≤ t2) (d : Nat) :
    classifyDur d t2 t3 = if d ≤ t2 then .short else .long := by
  unfold classifyDur
  split
  · rfl
  · exact if_neg (by omega)

/-- Settles O21: the intervals of the three ordinals, where T2 < T3 makes the bound T2 of Long idle. -/
theorem classifierIsMonotone : Obligations.ClassifierIsMonotone := by
  refine ⟨fun t2 t3 ordered => ?_, fun t2 t3 h d => classifyDur_of_ge h d⟩
  simp only [classifyDur_ordinal]
  exact ⟨fun d d' longer => symbolCode_monotone t2 t3 longer, fun d => symbolCode_eq_zero_iff,
    fun d => symbolCode_eq_one_iff,
    fun d => symbolCode_eq_two_iff.trans (and_iff_right_of_imp fun long => ordered.trans long)⟩

/-- Settles O20: RESULT is the word of the ordinal, the rest is the completion. -/
theorem classifyResult : Obligations.ClassifyResult := by
  intro f s
  have word : toWord (classifyDur s.arg0.toNat s.t2.toNat s.t3.toNat).ordinal =
      if s.arg0.toNat ≤ s.t2.toNat then 0#32 else if s.arg0.toNat ≤ s.t3.toNat then 1#32 else 2#32 := by
    rw [classifyDur_ordinal, symbolCode, apply_ite toWord, apply_ite toWord]
    rfl
  rw [← word]
  rfl

end Sys2Proof.Machine

/-! `next(c)` byte by byte (41_classifier_sync.md R122, 43_pulse_codec.md R173 to R175). -/
namespace Sys2Proof.Machine

/-! ### The bytes from a position on -/

theorem State.pulseFrom_cons {s : State} {c : Nat} (h : c < s.plen.toNat) :
    s.pulseFrom c = pulseByte s c :: s.pulseFrom (c + 1) := by
  rw [State.pulseFrom, show s.plen.toNat - c = s.plen.toNat - (c + 1) + 1 by omega, State.readBytes_succ]
  rfl

theorem State.pulseFrom_eq_nil {s : State} {c : Nat} (h : s.plen.toNat ≤ c) : s.pulseFrom c = [] :=
  List.eq_nil_of_length_eq_zero (by rw [State.pulseFrom_length]; omega)

/-- Past PLEN there is no element, in either form. -/
theorem nextAt_of_ge {s : State} {c : Nat} (h : s.plen.toNat ≤ c) (packed : Bool) : nextAt packed s c = none := by
  rw [nextAt, State.pulseFrom_eq_nil h]
  cases packed <;> rfl

/-- The raw form: one byte per duration, ended by 0 (41_classifier_sync.md R122). -/
theorem nextAt_raw (s : State) (c : Nat) :
    nextAt false s c =
      if c < s.plen.toNat ∧ pulseByte s c ≠ 0#8 then some ((pulseByte s c).toNat, c + 1) else none := by
  by_cases inStream : c < s.plen.toNat
  · rw [nextAt, State.pulseFrom_cons inStream]
    by_cases zero : pulseByte s c = 0#8 <;> simp [nextElem, rawNext, inStream, zero]
  · rw [nextAt_of_ge (by omega), if_neg fun h => inStream h.1]

/-! ### The packed form, by the first byte -/

section FirstByte

variable {s : State} {c : Nat} (inStream : c < s.plen.toNat)
include inStream

theorem nextAt_packed_eq_parse :
    nextAt true s c =
      (parse (pulseByte s c :: s.pulseFrom (c + 1)) c).map (fun p => (p.1.dur, p.1.after)) := by
  rw [nextAt, State.pulseFrom_cons inStream]
  rfl

theorem nextAt_zero (h : pulseByte s c = 0#8) : nextAt true s c = none := by
  rw [nextAt_packed_eq_parse inStream, parse_cons, if_pos h]
  rfl

/-- A one-byte element (43_pulse_codec.md R173). -/
theorem nextAt_gw1 (h0 : pulseByte s c ≠ 0#8) (h1 : (pulseByte s c).toNat ≤ 0xF9) :
    nextAt true s c = some ((pulseByte s c).toNat, c + 1) := by
  rw [nextAt_packed_eq_parse inStream, parse_cons, if_neg h0, if_pos h1]
  rfl

/-- A two-byte element, which a missing or zero second byte turns into END (43_pulse_codec.md R174). -/
theorem nextAt_gw2 (h0 : pulseByte s c ≠ 0#8) (h1 : ¬ (pulseByte s c).toNat ≤ 0xF9) (h2 : (pulseByte s c).toNat ≤ 0xFE) :
    nextAt true s c =
      if s.plen.toNat ≤ c + 1 ∨ pulseByte s (c + 1) = 0#8 then none
      else some (gw2Value (pulseByte s c) (pulseByte s (c + 1)), c + 2) := by
  rw [nextAt_packed_eq_parse inStream, parse_cons, if_neg h0, if_neg h1, if_pos h2]
  by_cases short : s.plen.toNat ≤ c + 1
  · rw [State.pulseFrom_eq_nil short, if_pos (.inl short)]
    rfl
  · rw [State.pulseFrom_cons (Nat.lt_of_not_le short)]
    by_cases zero : pulseByte s (c + 1) = 0#8 <;> simp [short, zero]

/-- A six-byte element: END where its bytes pass PLEN, a value behind 0x02, and skipped otherwise (43_pulse_codec.md R175). -/
theorem nextAt_escape (h0 : pulseByte s c ≠ 0#8) (h1 : ¬ (pulseByte s c).toNat ≤ 0xF9)
    (h2 : ¬ (pulseByte s c).toNat ≤ 0xFE) :
    nextAt true s c =
      if s.plen.toNat < c + 6 then none
      else if pulseByte s (c + 1) = 0x02#8 then
        some (gw6Value (pulseByte s (c + 2)) (pulseByte s (c + 3)) (pulseByte s (c + 4)) (pulseByte s (c + 5)), c + 6)
      else nextAt true s (c + 6) := by
  rw [nextAt_packed_eq_parse inStream, parse_cons, if_neg h0, if_neg h1, if_neg h2]
  by_cases short : s.plen.toNat < c + 6
  · have few : (s.pulseFrom (c + 1)).length < 5 := by
      rw [State.pulseFrom_length]
      omega
    rw [if_pos short]
    split
    · rename_i bytes
      rw [bytes] at few
      simp only [List.length_cons] at few
      omega
    · rfl
  · have whole : s.pulseFrom (c + 1) = pulseByte s (c + 1) :: pulseByte s (c + 2) :: pulseByte s (c + 3) ::
        pulseByte s (c + 4) :: pulseByte s (c + 5) :: s.pulseFrom (c + 6) := by
      iterate 5 rw [State.pulseFrom_cons (by omega)]
    rw [whole, if_neg short]
    by_cases value : pulseByte s (c + 1) = 0x02#8
    · simp only [value, if_true]
      rfl
    · simp only [value, if_false]
      rfl

end FirstByte

/-- Settles O22: the raw form, and the packed form by the class of the first byte. -/
theorem nextReadsTheStream : Obligations.NextReadsTheStream := by
  refine fun s c => ⟨nextAt_raw s c, ?_⟩
  split
  · next past => exact nextAt_of_ge past true
  next past =>
  have inStream : c < s.plen.toNat := Nat.lt_of_not_le past
  split
  · next zero => exact nextAt_zero inStream zero
  next nonzero =>
  split
  · next one => exact nextAt_gw1 inStream nonzero one
  next large =>
  split
  · next two => exact nextAt_gw2 inStream nonzero large two
  next escape => exact nextAt_escape inStream nonzero large escape

end Sys2Proof.Machine

/-! READSYM and SYNC over the stream at CURSOR (41_classifier_sync.md R124, R126, R127, R129). -/
namespace Sys2Proof.Machine

/-! ### The reader at a position -/

theorem nextElem_of_nextAt {packed : Bool} {s : State} {c d c' : Nat} (h : nextAt packed s c = some (d, c')) :
    ∃ rest, nextElem packed (s.pulseFrom c) c = some (⟨d, c'⟩, rest) := by
  obtain ⟨⟨e, rest⟩, read, pair⟩ := Option.map_eq_some_iff.1 h
  cases pair
  exact ⟨rest, read⟩

/-- An element ends behind its position and at or before PLEN (41_classifier_sync.md R131). -/
theorem nextAt_reach {packed : Bool} {s : State} {c d c' : Nat} (h : nextAt packed s c = some (d, c')) :
    c < c' ∧ c' ≤ s.plen.toNat := by
  obtain ⟨rest, read⟩ := nextElem_of_nextAt h
  obtain ⟨forward, within, -⟩ : c < c' ∧ c' ≤ c + (s.pulseFrom c).length ∧ _ := nextElem_reach _ _ _ _ _ read
  rw [State.pulseFrom_length] at within
  exact ⟨forward, by omega⟩

theorem readerAt_of_nextAt_none {packed : Bool} {s : State} {c : Nat} (h : nextAt packed s c = none) :
    s.readerAt packed c = ⟨[], c⟩ := by
  rw [State.readerAt_eq, Option.map_eq_none_iff.1 h]

theorem readerAt_of_nextAt_some {packed : Bool} {s : State} {c d c' : Nat} (h : nextAt packed s c = some (d, c')) :
    s.readerAt packed c = ⟨⟨d, c'⟩ :: (s.readerAt packed c').elems, c⟩ := by
  obtain ⟨rest, read⟩ := nextElem_of_nextAt h
  rw [State.readerAt_eq, read]

/-- The check of the reading commands (60_exceptions.md R335). -/
theorem streamOk_of_le {s : State} (cap : s.plen.toNat ≤ s.cfg.pulseCap) (inStream : s.cursor.toNat ≤ s.plen.toNat) :
    s.streamOk = true := by
  rw [State.streamOk, decide_eq_true cap, decide_eq_true inStream]
  rfl

@[simp] theorem Reader.pairs_length (r : Reader) : r.pairs.length = r.elems.length := List.length_map _

/-! ### READSYM -/

/-- READSYM at END: the sentinel, and EOF at the unmoved CURSOR. -/
theorem readSymbolEffect_of_none {packed : Bool} {s : State} (h : nextAt packed s s.cursor.toNat = none) :
    readSymbolEffect packed s = { s with result := 0x00000100#32 }.setEof true := by
  rw [readSymbolEffect, readerAt_of_nextAt_none h]
  simp only [Reader.readSymbol, ← nextAt_isNone, h]
  rw [toWord, BitVec.ofNat_toNat, BitVec.setWidth_eq]
  rfl

/-- READSYM at an element: the ordinal of its duration, CURSOR behind it and EOF there. -/
theorem readSymbolEffect_of_some {packed : Bool} {s : State} {d c' : Nat}
    (h : nextAt packed s s.cursor.toNat = some (d, c')) :
    readSymbolEffect packed s =
      { s with
        result := BitVec.ofNat 32 (symbolCode s.t2.toNat s.t3.toNat d)
        cursor := BitVec.ofNat 32 c' }.setEof (nextAt packed s c').isNone := by
  rw [readSymbolEffect, readerAt_of_nextAt_some h, nextAt_isNone, ← classifyDur_ordinal]
  rfl

/-- Settles O23: an element ends within the stream, and each outcome of `next` at CURSOR has its effect. -/
theorem readsymResult : Obligations.ReadsymResult := by
  intro f s cap inStream
  have run : exec (.readsym f) s = .next (readSymbolEffect f.packed s).complete :=
    exec_of_ok rfl (streamOk_of_le cap inStream) rfl
  refine ⟨fun atEnd => ?_, fun d c' element => ⟨(nextAt_reach element).2, ?_⟩⟩
  · rw [run, readSymbolEffect_of_none atEnd]
    rfl
  · rw [run, readSymbolEffect_of_some element]
    rfl

/-! ### SYNC -/

/-- The state after a sync search that ended with `reg` at position `pos` (41_classifier_sync.md R129). -/
def syncEnded (packed : Bool) (pos : Nat) (reg : BitVec 28) (s : State) : State :=
  { s with
    phase := .idle
    status := { s.status with
      done := true
      sync := decide (reg = 0x9926499#28)
      eof := (nextAt packed s pos).isNone }
    result := if reg = 0x9926499#28 then 1#32 else 0#32
    cursor := BitVec.ofNat 32 pos
    syncreg := reg
    dstate := { s.dstate with parity := if reg = 0x9926499#28 then .clock else s.dstate.parity } }

theorem syncEffect_complete {packed : Bool} {s : State} {r : Reader} {reg : BitVec 28}
    (h : (s.readerAt packed s.cursor.toNat).syncSearch s.t2.toNat s.t3.toNat = (r, reg)) :
    (syncEffect packed s).complete = syncEnded packed r.cursor reg s := by
  rw [syncEffect, h, syncEnded, nextAt_isNone]
  by_cases found : reg = 0x9926499#28
  · subst found
    rfl
  · simp only [magicMfm, found, decide_false, if_false]
    rfl

/-- Settles O24: the search runs over the stream at CURSOR, whose reader stays within PLEN. -/
theorem syncFindsTheMark : Obligations.SyncFindsTheMark := by
  intro f s mfm cap inStream
  have run : exec (.sync f) s = .next (syncEffect f.packed s).complete :=
    exec_of_ok (i := .sync f) mfm (streamOk_of_le cap inStream) rfl
  have stream := isStream_readerAt f.packed s s.cursor.toNat
  have start := s.readerAt_at f.packed s.cursor.toNat inStream
  obtain ⟨m, enough, noEarlier, outcome, search⟩ :=
    (s.readerAt f.packed s.cursor.toNat).syncSearch_spec s.t2.toNat s.t3.toNat
  rw [← Reader.pairs_length] at enough outcome
  refine ⟨_, stream, m, enough, noEarlier, outcome, (start.skip m).1.bound, ?_⟩
  rw [run, syncEffect_complete search]
  rfl

end Sys2Proof.Machine

/-! The CRC engine (42_crc.md R150 to R158): the table form of a step, the zero residue, one flipped bit, and the command. -/
namespace Sys2Proof.Machine

/-! ### The step -/

/-- A CRC is its high byte, shifted up, and its low byte. -/
theorem high_xor_low (crc : BitVec 16) :
    (crc.extractLsb' 8 8).setWidth 16 <<< 8 ^^^ (crc.extractLsb' 0 8).setWidth 16 = crc := by
  apply BitVec.eq_of_getLsbD_eq
  intro i hi
  by_cases low : i < 8
  · simp [low, hi]
  · simp [low, hi, show i - 8 < 8 by omega, show 8 + (i - 8) = i by omega]

theorem low_shiftLeft (crc : BitVec 16) : (crc.extractLsb' 0 8).setWidth 16 <<< 8 = crc <<< 8 := by
  apply BitVec.eq_of_getLsbD_eq
  intro i hi
  simp [show i - 8 < 8 by omega, show i - 8 < 16 by omega]

/-- The high byte of a CRC takes part in a step as the data byte does. -/
theorem crcStep_high (h b : Byte) : crcStep (h.setWidth 16 <<< 8) b = crcStep 0#16 (h ^^^ b) := by
  rw [crcStep_eq, crcStep_eq, BitVec.setWidth_xor, BitVec.shiftLeft_xor_distrib, BitVec.zero_xor]

/-- The low byte of a CRC is only shifted up. -/
theorem crcStep_low (crc : BitVec 16) : crcStep ((crc.extractLsb' 0 8).setWidth 16) 0#8 = crc <<< 8 := by
  rw [← low_shiftLeft, ← crcShift8_low, crcStep_eq]
  simp

/-- The table form of a step (42_crc.md R152): the high byte and the data byte select the entry. -/
theorem crcStep_table (crc : BitVec 16) (b : Byte) :
    crcStep crc b = (crc <<< 8) ^^^ crcStep 0#16 (crc.extractLsb' 8 8 ^^^ b) := by
  calc crcStep crc b
    _ = crcStep ((crc.extractLsb' 0 8).setWidth 16 ^^^ (crc.extractLsb' 8 8).setWidth 16 <<< 8) (0#8 ^^^ b) := by
      rw [BitVec.xor_comm, high_xor_low, BitVec.zero_xor]
    _ = (crc <<< 8) ^^^ crcStep 0#16 (crc.extractLsb' 8 8 ^^^ b) := by
      rw [← crcStep_xor, crcStep_low, crcStep_high]

/-- A step by the CRC's own high byte cancels it: the entry is T[0] = 0. -/
theorem crcStep_high_byte (crc : BitVec 16) : crcStep crc (crc.extractLsb' 8 8) = crc <<< 8 := by
  rw [crcStep_table, BitVec.xor_self, show crcStep 0#16 0#8 = 0#16 by decide, BitVec.xor_zero]

theorem setWidth_shiftLeft_inj {a b : Byte} (h : a.setWidth 16 <<< 8 = b.setWidth 16 <<< 8) : a = b := by
  apply BitVec.eq_of_getLsbD_eq
  intro i hi
  simpa [hi, show i + 8 < 16 by omega, show i < 16 by omega] using congrArg (fun x => x.getLsbD (i + 8)) h

/-- A data byte enters a step in the high byte of the CRC. -/
theorem crcStep_eq_step_zero (crc : BitVec 16) (b : Byte) :
    crcStep crc b = crcStep (crc ^^^ b.setWidth 16 <<< 8) 0#8 := by
  simp [crcStep_eq]

/-- A step is one-to-one in the data byte. -/
theorem crcStep_byte_inj {crc : BitVec 16} {a b : Byte} (h : crcStep crc a = crcStep crc b) : a = b := by
  rw [crcStep_eq_step_zero crc a, crcStep_eq_step_zero crc b] at h
  exact setWidth_shiftLeft_inj ((BitVec.xor_right_inj crc).1 (crcStep_inj _ _ _ h))

/-- Settles O25: the step is its loop by evaluation, the sequence is a fold, and the table form splits the CRC into its bytes. -/
theorem crcEngine : Obligations.CrcEngine :=
  ⟨fun _ _ => rfl, fun _ => rfl, fun bytes b init => crc16_append bytes [b] init, crcStep_table, by decide⟩

/-! ### The residue -/

/-- Each of the two CRC bytes cancels the high byte of the CRC it meets (42_crc.md R154). -/
theorem crc16_crcBytes (crc : BitVec 16) : crc16 (crcBytes crc) crc = 0#16 := by
  have low : crc.extractLsb' 0 8 = (crc <<< 8).extractLsb' 8 8 := by
    apply BitVec.eq_of_getLsbD_eq
    intro i hi
    simp [hi, show 8 + i < 16 by omega, BitVec.getLsbD_eq_getElem (show i < 16 by omega)]
  calc crc16 (crcBytes crc) crc
    _ = crcStep (crcStep crc (crc.extractLsb' 8 8)) (crc.extractLsb' 0 8) := rfl
    _ = crc <<< 8 <<< 8 := by rw [crcStep_high_byte, low, crcStep_high_byte]
    _ = 0#16 := by rw [← BitVec.shiftLeft_add, BitVec.shiftLeft_eq_zero (by decide)]

/-- Settles O26: the CRC bytes continue the fold at the record's CRC; the check of DECODE is the residue by its definition. -/
theorem crcResidueIsZero : Obligations.CrcResidueIsZero := by
  refine ⟨fun rec init => ?_, fun cfg rec mark => ?_⟩
  · exact (crc16_append rec _ init).trans (crc16_crcBytes (crc16 rec init))
  · rw [recordOk, Bool.and_eq_true, decide_eq_true_eq, decide_eq_true_eq, preloadMfm]

/-! ### One flipped bit -/

/-- The CRC of a sequence is one-to-one in the initial value. -/
theorem crc16_init_inj {bytes : List Byte} {a b : BitVec 16} (h : crc16 bytes a = crc16 bytes b) : a = b := by
  induction bytes generalizing a b with
  | nil => exact h
  | cons x xs ih => exact crcStep_inj a b x (ih h)

theorem crc16_set {rec : List Byte} {i : Nat} (inRec : i < rec.length) (b : Byte) (init : BitVec 16) :
    crc16 (rec.set i b) init = crc16 (rec.drop (i + 1)) (crcStep (crc16 (rec.take i) init) b) := by
  rw [List.set_eq_take_append_cons_drop, if_pos inRec, crc16_append]
  rfl

/-- The CRC of a sequence is one-to-one in each of its bytes. -/
theorem crc16_set_inj {rec : List Byte} {i : Nat} (inRec : i < rec.length) {a b : Byte} {init : BitVec 16}
    (h : crc16 (rec.set i a) init = crc16 (rec.set i b) init) : a = b := by
  rw [crc16_set inRec, crc16_set inRec] at h
  exact crcStep_byte_inj (crc16_init_inj h)

/-- Settles O27: with residue 0 again, the flipped byte would be the byte itself, and the flipped bit 0. -/
theorem crcDetectsOneFlippedBit : Obligations.CrcDetectsOneFlippedBit := by
  intro rec init i k inRec bit good flipped
  have same : rec.set i (rec.getD i 0#8) = rec := by
    rw [← List.getElem_eq_getD (h := inRec), List.set_getElem_self]
  have unchanged : rec.getD i 0#8 ^^^ 1#8 <<< k = rec.getD i 0#8 :=
    crc16_set_inj inRec (by rw [flipped, same, good])
  have noBit : 1#8 <<< k = 0#8 := by simpa using congrArg (rec.getD i 0#8 ^^^ ·) unchanged
  simpa [bit] using congrArg (fun x => x.getLsbD k) noBit

/-! ### The command -/

/-- Settles O28: the one check passes, and ARG1[15:0] is the value of ARG1 cut to 16 bits. -/
theorem crcResult : Obligations.CrcResult := by
  intro f s fits
  have run : exec (.crc f) s = .next (crcEffect s).complete :=
    exec_of_ok (i := .crc f) rfl rfl (decide_eq_true fits)
  rw [run, crcEffect, State.readBytes_eq]
  rfl

end Sys2Proof.Machine

/-! The element bytes of a value (43_pulse_codec.md R170, R171, R179): the three forms, and the parser that inverts them. -/
namespace Sys2Proof.Machine

/-! ### Packing one value -/

/-- A payload byte carries seven bits of the value above its low bit (43_pulse_codec.md R170). -/
theorem gw6Payload_toNat (v i : Nat) : (gw6Payload v i).toNat = 1 + 2 * (v / 2 ^ (7 * i) % 128) := by
  rw [gw6Payload, BitVec.toNat_ofNat]
  omega

theorem packBytes_gw1 {v : Nat} (h : v ≤ 249) : ∃ b : Byte, packBytes v = [b] ∧ b.toNat = v :=
  ⟨_, if_pos h, by rw [BitVec.toNat_ofNat]; omega⟩

theorem packBytes_gw2 {v : Nat} (lo : 250 ≤ v) (hi : v ≤ 1524) :
    ∃ b0 b1 : Byte, packBytes v = [b0, b1] ∧
      b0.toNat = 250 + (v - 250) / 255 ∧ b1.toNat = 1 + (v - 250) % 255 ∧ b0.toNat ≤ 0xFE := by
  refine ⟨_, _, (if_neg (by omega)).trans (if_pos hi), ?_⟩
  rw [BitVec.toNat_ofNat, BitVec.toNat_ofNat]
  omega

theorem packBytes_gw6 {v : Nat} (lo : 1525 ≤ v) :
    packBytes v = [0xFF#8, 0x02#8, gw6Payload v 0, gw6Payload v 1, gw6Payload v 2, gw6Payload v 3] :=
  (if_neg (by omega)).trans (if_neg (by omega))

/-- Settles O29: one lemma per form. -/
theorem packBytesOfValue : Obligations.PackBytesOfValue := by
  refine fun v _ _ => ⟨packBytes_gw1, packBytes_gw2, fun lo => ⟨_, _, _, _, packBytes_gw6 lo, ?_, ?_, ?_, ?_⟩⟩
  · simpa using gw6Payload_toNat v 0
  · exact gw6Payload_toNat v 1
  · exact gw6Payload_toNat v 2
  · exact gw6Payload_toNat v 3

/-! ### Parsing it again -/

section Parsed

variable {b0 : Byte} (r : List Byte) (c : Nat)

theorem parse_gw1 (pos : 1 ≤ b0.toNat) (le : b0.toNat ≤ 0xF9) : parse (b0 :: r) c = some (⟨b0.toNat, c + 1⟩, r) := by
  rw [parse_cons, if_neg (by bv_omega), if_pos le]

theorem parse_gw2 {b1 : Byte} (lo : 0xFA ≤ b0.toNat) (hi : b0.toNat ≤ 0xFE) (pos : 1 ≤ b1.toNat) :
    parse (b0 :: b1 :: r) c = some (⟨gw2Value b0 b1, c + 2⟩, r) := by
  rw [parse_cons, if_neg (by bv_omega), if_neg (by omega), if_pos hi]
  exact if_neg (by bv_omega)

theorem parse_gw6 (p0 p1 p2 p3 : Byte) :
    parse (0xFF#8 :: 0x02#8 :: p0 :: p1 :: p2 :: p3 :: r) c = some (⟨gw6Value p0 p1 p2 p3, c + 6⟩, r) :=
  parse_cons _ _ _

/-- The four payload bytes of a 28-bit value give it back. -/
theorem gw6Value_gw6Payload {v : Nat} (h : v < 2 ^ 28) :
    gw6Value (gw6Payload v 0) (gw6Payload v 1) (gw6Payload v 2) (gw6Payload v 3) = v := by
  simp only [gw6Value, gw6Payload_toNat]
  omega

/-- The bytes of a value parse to it, whatever follows (43_pulse_codec.md R179). -/
theorem parse_packBytes {v : Nat} (pos : 1 ≤ v) (le : v ≤ packMax) :
    parse (packBytes v ++ r) c = some (⟨v, c + (packBytes v).length⟩, r) := by
  rcases Nat.lt_or_ge 249 v with large | one
  · rcases Nat.lt_or_ge 1524 v with escape | two
    · rw [packBytes_gw6 escape]
      refine (parse_gw6 r c _ _ _ _).trans ?_
      rw [gw6Value_gw6Payload (Nat.lt_of_le_of_lt le (by decide))]
      rfl
    · obtain ⟨b0, b1, bytes, high, low, hi⟩ := packBytes_gw2 large two
      have value : gw2Value b0 b1 = v := by
        rw [gw2Value, high, low]
        omega
      rw [bytes]
      refine (parse_gw2 r c (by omega) hi (by omega)).trans ?_
      rw [value]
      rfl
  · obtain ⟨b, bytes, value⟩ := packBytes_gw1 one
    rw [bytes]
    refine (parse_gw1 r c (by omega) (by omega)).trans ?_
    rw [value]
    rfl

end Parsed

/-- Settles O30: the clamped value is one that `pack_bytes` carries. -/
theorem parseOfPack : Obligations.ParseOfPack :=
  fun _ c rest pos => parse_packBytes rest c (Nat.le_min.2 ⟨pos, by decide⟩) (Nat.min_le_right _ _)

end Sys2Proof.Machine

/-! PACK (43_pulse_codec.md R176, R177): the bytes `pack_into` writes, and the state behind them. -/
namespace Sys2Proof.Machine

/-- The check of PACK passes and ARG0 is a value (60_exceptions.md R335). -/
theorem exec_pack (f : Flags) {s : State} (inOut : s.wpos.toNat ≤ s.outcap.toNat) (cap : s.outcap.toNat ≤ s.cfg.pulseCap)
    (value : s.arg0 ≠ 0#32) : exec (.pack f) s = .next (packEffect s).complete := by
  have hc : s.outputOk = true := by
    rw [State.outputOk, decide_eq_true inOut, decide_eq_true cap]
    rfl
  exact exec_of_ok (i := .pack f) rfl hc (decide_eq_true value)

/-- The effect of PACK on memory is one store at WPOS. -/
theorem readByte_packEffect (s : State) (a : Nat) :
    (packEffect s).complete.readByte a =
      (s.storeBytes (pulseBase + s.wpos.toNat)
        (packInto s.status.full (s.outcap.toNat - s.wpos.toNat) s.arg0.toNat).1).readByte a := by
  rw [packEffect_eq]
  exact State.readByte_congr rfl rfl a

/-- `pack_into` as its four outcomes (43_pulse_codec.md R176). -/
theorem packInto_eq (full : Bool) (room v : Nat) :
    packInto full room v =
      (if full then [] else if decide ((packElement v).length ≤ room) then packElement v
        else if 0 < room then [0x00#8] else [],
      full || !decide ((packElement v).length ≤ room)) := by
  cases full with
  | true => rfl
  | false =>
    by_cases fits : (packElement v).length ≤ room
    · simp [packInto, fits]
    · by_cases space : 0 < room <;> simp [packInto, fits, space, Nat.succ_le_iff]

/-- Settles O31: the store is the bytes of `pack_into`, which stay within OUTCAP. -/
theorem packResult : Obligations.PackResult := by
  intro f s inOut cap value elem fits bytes
  let room := s.outcap.toNat - s.wpos.toNat
  have written : packInto s.status.full room s.arg0.toNat = (bytes, s.status.full || !fits) := by
    rw [packInto_eq]
    simp only [room, Nat.sub_pos_iff_lt]
    rfl
  refine ⟨_, exec_pack f inOut cap value, ?_, ?_, fun k inside => ?_, fun a outside => ?_⟩
  · rw [packEffect_eq, written]
    rfl
  · have short : bytes.length ≤ room := by simpa only [written] using packInto_length s.status.full room s.arg0.toNat
    omega
  · rw [readByte_packEffect, written]
    exact State.readByte_storeBytes_at _ _ _ _ inside
  · rw [readByte_packEffect, written]
    exact State.readByte_storeBytes_of_out _ _ _ _ outside

end Sys2Proof.Machine

/-! UNPACK (43_pulse_codec.md R173, R178): the value at CURSOR, which an element's form bounds, or END. -/
namespace Sys2Proof.Machine

theorem gw2Value_lt (b0 b1 : Byte) : gw2Value b0 b1 < 2 ^ 28 := by
  rw [gw2Value]
  omega

theorem gw6Value_lt (p0 p1 p2 p3 : Byte) : gw6Value p0 p1 p2 p3 < 2 ^ 28 := by
  rw [gw6Value]
  omega

/-- A parsed value fits in 28 bits, by the form it is read from (43_pulse_codec.md R178). -/
theorem parse_dur_lt {bs r : List Byte} {c : Nat} {e : StreamElem} (h : parse bs c = some (e, r)) : e.dur < 2 ^ 28 := by
  fun_induction parse bs c with
  | case1 | case2 | case4 | case6 | case9 => cases h
  | case3 b0 =>
    cases h
    exact b0.isLt.trans (by decide)
  | case5 =>
    cases h
    exact gw2Value_lt _ _
  | case7 =>
    cases h
    exact gw6Value_lt _ _ _ _
  | case8 =>
    rename_i behind
    exact behind h

section AtCursor

variable {s : State}

theorem parseAtCursor_of_nextAt_none (h : nextAt true s s.cursor.toNat = none) : s.parseAtCursor = none :=
  Option.map_eq_none_iff.2 (Option.map_eq_none_iff.1 h)

theorem parseAtCursor_of_nextAt_some {v c' : Nat} (h : nextAt true s s.cursor.toNat = some (v, c')) :
    s.parseAtCursor = some ⟨v, c'⟩ := by
  obtain ⟨rest, read⟩ := nextElem_of_nextAt h
  exact congrArg (Option.map Prod.fst) read

variable (f : Flags) (hs : s.streamOk = true)
include hs

theorem exec_unpack_of_end (h : nextAt true s s.cursor.toNat = none) : exec (.unpack f) s = .next (endReached s) := by
  rw [exec_unpack, parseAtCursor_of_nextAt_none h, unpackWith_end hs]

theorem exec_unpack_of_value {v c' : Nat} (h : nextAt true s s.cursor.toNat = some (v, c')) :
    exec (.unpack f) s = .next (valueTaken v c' s) := by
  rw [exec_unpack, parseAtCursor_of_nextAt_some h, unpackWith_value hs]

end AtCursor

/-- Settles O32 (qualified, because the model's `unpackResult` has the plain name): END and a value, each with its state. -/
theorem PulseCodec.unpackResult : Obligations.UnpackResult := by
  intro f s cap inStream
  have hs := streamOk_of_le cap inStream
  refine ⟨fun atEnd => ?_, fun v c' element => ⟨?_, (nextAt_reach element).2, exec_unpack_of_value f hs element⟩⟩
  · rw [exec_unpack_of_end f hs atEnd, endReached, atEnd]
    rfl
  · obtain ⟨rest, read⟩ := nextElem_of_nextAt element
    exact parse_dur_lt read

end Sys2Proof.Machine

/-! The stream identity (43_pulse_codec.md R180): what a run of PACKs leaves in PULSE below WPOS, and what a run of UNPACKs reads
from it. -/
namespace Sys2Proof.Machine

/-! ### The bytes of a run of PACKs -/

/-- P[0 .. WPOS−1], what has been packed (43_pulse_codec.md R176). -/
def State.packedStream (s : State) : List Byte := s.readBytes pulseBase s.wpos.toNat

/-- `pack_into` of values one after the other: all bytes it writes, and FULL after it. -/
def packAll : Bool → Nat → List Nat → List Byte × Bool
  | full, _, [] => ([], full)
  | full, room, v :: vs =>
    let first := packInto full room v
    let rest := packAll first.2 (room - first.1.length) vs
    (first.1 ++ rest.1, rest.2)

/-- With FULL set every later value is dropped (43_pulse_codec.md R176). -/
theorem packAll_full (room : Nat) (vs : List Nat) : packAll true room vs = ([], true) := by
  induction vs generalizing room with
  | nil => rfl
  | cons v vs ih => simp [packAll, packInto, ih]

/-- The values that fit, then nothing or the terminating 0; FULL exactly where a value did not fit (43_pulse_codec.md R176). -/
theorem packAll_eq (room : Nat) (vs : List Nat) :
    ∃ tail, (tail = [] ∨ tail = [0x00#8]) ∧
      packAll false room vs =
        (((vs.take (fitCount room (vs.map packElement))).map packElement).flatten ++ tail,
          decide (fitCount room (vs.map packElement) < vs.length)) := by
  induction vs generalizing room with
  | nil => exact ⟨[], .inl rfl, rfl⟩
  | cons v vs ih =>
    by_cases fits : (packElement v).length ≤ room
    · obtain ⟨tail, ends, rest⟩ := ih (room - (packElement v).length)
      refine ⟨tail, ends, ?_⟩
      simp [packAll, packInto, fitCount, fits, rest]
    · refine ⟨if 0 < room then [0x00#8] else [], by split <;> simp, ?_⟩
      by_cases space : 0 < room <;>
        simp [packAll, packInto, fitCount, fits, space, Nat.succ_le_iff, packAll_full]

/-! ### The states of a run of PACKs -/

/-- From `s` to `t` the packed stream grows by `bytes`, within the same bounds. -/
structure Appended (s t : State) (bytes : List Byte) : Prop where
  cfg : t.cfg = s.cfg
  outcap : t.outcap = s.outcap
  wpos : t.wpos.toNat = s.wpos.toNat + bytes.length
  inOut : t.wpos.toNat ≤ t.outcap.toNat
  stream : t.packedStream = s.packedStream ++ bytes

theorem Appended.refl {s : State} (inOut : s.wpos.toNat ≤ s.outcap.toNat) : Appended s s [] :=
  ⟨rfl, rfl, rfl, inOut, (List.append_nil _).symm⟩

theorem Appended.trans {s t u : State} {a b : List Byte} (h : Appended s t a) (k : Appended t u b) :
    Appended s u (a ++ b) where
  cfg := k.cfg.trans h.cfg
  outcap := k.outcap.trans h.outcap
  wpos := by rw [k.wpos, h.wpos, List.length_append, Nat.add_assoc]
  inOut := k.inOut
  stream := by rw [k.stream, h.stream, List.append_assoc]

/-- Bytes are read in two parts. -/
theorem State.readBytes_add (s : State) (a m n : Nat) :
    s.readBytes a (m + n) = s.readBytes a m ++ s.readBytes (a + m) n := by
  simp only [State.readBytes_eq, List.range_add, List.map_append, List.map_map, Function.comp_def, Nat.add_assoc]

/-- One PACK: the bytes of `pack_into` go behind the stream (43_pulse_codec.md R176, R177). -/
theorem packEffect_appended {s : State} (inOut : s.wpos.toNat ≤ s.outcap.toNat) :
    Appended s (packEffect s).complete (packInto s.status.full (s.outcap.toNat - s.wpos.toNat) s.arg0.toNat).1 := by
  have short := packInto_length s.status.full (s.outcap.toNat - s.wpos.toNat) s.arg0.toNat
  rw [packEffect_eq]
  generalize (packInto s.status.full (s.outcap.toNat - s.wpos.toNat) s.arg0.toNat).1 = bytes at short ⊢
  have wpos : (toWord (s.wpos.toNat + bytes.length)).toNat = s.wpos.toNat + bytes.length := toWord_toNat _ (by omega)
  have inside : s.wpos.toNat + bytes.length ≤ s.outcap.toNat := by omega
  refine ⟨rfl, rfl, wpos, wpos.trans_le inside, ?_⟩
  let stored := s.storeBytes (pulseBase + s.wpos.toNat) bytes
  calc
    _ = stored.readBytes pulseBase (s.wpos.toNat + bytes.length) :=
      (State.readBytes_congr rfl rfl _ _).trans (congrArg (stored.readBytes pulseBase) wpos)
    _ = stored.readBytes pulseBase s.wpos.toNat ++ stored.readBytes (pulseBase + s.wpos.toNat) bytes.length :=
      State.readBytes_add _ _ _ _
    _ = s.packedStream ++ bytes := by
      rw [State.readBytes_storeBytes, State.readBytes_storeBytes_of_out _ _ _ _ _ (.inl (Nat.le_refl _))]
      rfl

/-- A run of PACKs appends what `pack_into` writes of each value, and PLEN follows WPOS from the first PACK on. -/
theorem packRun_appended (f : Flags) (vs : List Word) (s : State) (inOut : s.wpos.toNat ≤ s.outcap.toNat)
    (cap : s.outcap.toNat ≤ s.cfg.pulseCap) (values : ∀ v ∈ vs, v ≠ 0#32) (plen : vs = [] → s.plen = s.wpos) :
    ∃ t, packRun f vs s = some t ∧ t.plen = t.wpos ∧
      t.status.full = (packAll s.status.full (s.outcap.toNat - s.wpos.toNat) (vs.map BitVec.toNat)).2 ∧
      Appended s t (packAll s.status.full (s.outcap.toNat - s.wpos.toNat) (vs.map BitVec.toNat)).1 := by
  induction vs generalizing s with
  | nil => exact ⟨s, rfl, plen rfl, rfl, Appended.refl inOut⟩
  | cons v vs ih =>
    let loaded : State := { s with arg0 := v }
    let after := (packEffect loaded).complete
    let first := packInto s.status.full (s.outcap.toNat - s.wpos.toNat) v.toNat
    have ran : exec (.pack f) loaded = .next after := exec_pack f inOut cap (values v List.mem_cons_self)
    have one : Appended s after first.1 := { packEffect_appended (s := loaded) inOut with }
    have room : after.outcap.toNat - after.wpos.toNat = s.outcap.toNat - s.wpos.toNat - first.1.length := by
      rw [one.outcap, one.wpos, Nat.sub_add_eq]
    obtain ⟨t, run, behind, full, more⟩ :=
      ih after one.inOut cap (fun w hw => values w (List.mem_cons_of_mem v hw)) (fun _ => rfl)
    rw [room] at full more
    refine ⟨t, ?_, behind, full, one.trans more⟩
    rw [packRun, ran]
    exact run

/-- From WPOS = 0, a run of PACKs leaves a legal stream: the elements of the values that fit, then nothing or a 0. -/
theorem packRun_stream (f : Flags) {vs : List Word} {s : State} (start : s.wpos = 0#32) (notFull : s.status.full = false)
    (cap : s.outcap.toNat ≤ s.cfg.pulseCap) (nonempty : vs ≠ []) (values : ∀ v ∈ vs, v ≠ 0#32) {k : Nat}
    (count : fitCount s.outcap.toNat ((vs.map BitVec.toNat).map packElement) = k) :
    ∃ t tail, packRun f vs s = some t ∧ (t.status.full = true ↔ k < vs.length) ∧ t.plen.toNat ≤ t.cfg.pulseCap ∧
      t.pulseFrom 0 = (((vs.map BitVec.toNat).take k).map packElement).flatten ++ tail ∧
      (tail = [] ∨ tail = [0x00#8]) := by
  have zero : s.wpos.toNat = 0 := by rw [start]; rfl
  obtain ⟨t, run, plen, full, appended⟩ :=
    packRun_appended f vs s (by omega) cap values (fun empty => absurd empty nonempty)
  obtain ⟨tail, ends, bytes⟩ := packAll_eq s.outcap.toNat (vs.map BitVec.toNat)
  rw [count, List.length_map] at bytes
  rw [notFull, zero, Nat.sub_zero, bytes] at full appended
  refine ⟨t, tail, run, by rw [full, decide_eq_true_iff], ?_, ?_, ends⟩
  · rw [plen, appended.cfg]
    exact appended.inOut.trans (appended.outcap ▸ cap)
  · have whole : t.pulseFrom 0 = t.packedStream := by rw [State.packedStream, ← plen]; rfl
    rw [whole, appended.stream, State.packedStream, zero]
    rfl

/-! ### The results of a run of UNPACKs -/

/-- The packed values in order, and then END (43_pulse_codec.md R180). -/
theorem unpackRun_packed (g : Flags) {tail : List Byte} (ends : ∀ c, parse tail c = none) (ds : List Nat) (s : State)
    (cap : s.plen.toNat ≤ s.cfg.pulseCap) (inStream : s.cursor.toNat ≤ s.plen.toNat) (values : ∀ d ∈ ds, 1 ≤ d)
    (stream : s.pulseFrom s.cursor.toNat = (ds.map packElement).flatten ++ tail) :
    unpackRun g (ds.length + 1) s = ds.map (fun d => BitVec.ofNat 32 (min d (2 ^ 28 - 1))) ++ [0x80000000#32] := by
  induction ds generalizing s with
  | nil =>
    have atEnd : nextAt true s s.cursor.toNat = none := by
      rw [nextAt, stream]
      exact congrArg (Option.map _) (ends _)
    rw [List.length_nil, unpackRun, exec_unpack_of_end g (streamOk_of_le cap inStream) atEnd]
    rfl
  | cons d ds ih =>
    have whole : s.pulseFrom s.cursor.toNat = packElement d ++ ((ds.map packElement).flatten ++ tail) := by
      rw [stream, List.map_cons, List.flatten_cons, List.append_assoc]
    let c' := s.cursor.toNat + (packElement d).length
    have element : nextAt true s s.cursor.toNat = some (min d (2 ^ 28 - 1), c') := by
      rw [nextAt, whole]
      exact congrArg (Option.map _) (parseOfPack d _ _ (values d List.mem_cons_self))
    have reach : c' ≤ s.plen.toNat := (nextAt_reach element).2
    let after := valueTaken (min d (2 ^ 28 - 1)) c' s
    have cursor : after.cursor.toNat = c' := toWord_toNat c' (by omega)
    have rest : after.pulseFrom after.cursor.toNat = (ds.map packElement).flatten ++ tail := by
      rw [cursor, ← State.pulseFrom_drop]
      exact (congrArg (List.drop _) whole).trans (List.drop_left ..)
    have others := ih after cap (cursor ▸ reach) (fun e he => values e (List.mem_cons_of_mem d he)) rest
    rw [List.length_cons, unpackRun, exec_unpack_of_value g (streamOk_of_le cap inStream) element]
    exact congrArg (_ :: ·) others

theorem parse_terminator {tail : List Byte} (h : tail = [] ∨ tail = [0x00#8]) (c : Nat) : parse tail c = none := by
  obtain rfl | rfl := h <;> rfl

/-- Settles O34: the UNPACKs read from position 0 the elements that the PACKs left there. -/
theorem unpackOfPack : Obligations.UnpackOfPack := by
  intro f g s vs start notFull cap nonempty values k
  have count : fitCount s.outcap.toNat ((vs.map BitVec.toNat).map packElement) = k := by rw [List.map_map]; rfl
  obtain ⟨t, tail, run, full, within, stream, ends⟩ := packRun_stream f start notFull cap nonempty values count
  let ds := (vs.map BitVec.toNat).take k
  have pos : ∀ d ∈ ds, 1 ≤ d := fun d hd => by
    obtain ⟨v, mem, rfl⟩ := List.mem_map.1 (List.mem_of_mem_take hd)
    have nonzero := values v mem
    bv_omega
  have few : k ≤ (vs.map BitVec.toNat).length := count ▸ (fitCount_le _ _).trans_eq (List.length_map _)
  have read := unpackRun_packed g (parse_terminator ends) ds { t with cursor := 0#32 } within (Nat.zero_le _) pos stream
  rw [List.length_take_of_le few] at read
  refine ⟨t, run, full, ?_⟩
  rw [read, List.map_take, List.map_map, List.map_take]
  rfl

end Sys2Proof.Machine

/-! A symbol's cells and PARITY (44_line_code.md R200, R210), and DEMOD over the stream at CURSOR (R202, R203). -/
namespace Sys2Proof.Machine

/-- Settles O35: the cells alternate in type, so PARITY flips where their number is odd. -/
theorem parityFlipsOnMedium : Obligations.ParityFlipsOnMedium := by
  refine ⟨Symbol.cells_eq, fun p sym => ?_⟩
  rw [dataBits_eq, Symbol.cells_eq]
  refine ⟨rfl, ?_⟩
  cases sym <;> rfl

/-! ### DEMOD -/

/-- The checks of DEMOD pass (60_exceptions.md R335). -/
theorem exec_demod {f : Flags} {s : State} (mfm : f.fm = false) (cap : s.plen.toNat ≤ s.cfg.pulseCap)
    (inStream : s.cursor.toNat ≤ s.plen.toNat) (pos : 1 ≤ s.arg0.toNat) (fits : s.arg0.toNat ≤ s.cfg.recCap) :
    exec (.demod f) s = .next (demodEffect f.packed s).complete := by
  have ha : s.recordCountOk = true := by rw [State.recordCountOk, decide_eq_true pos, decide_eq_true fits]; rfl
  exact exec_of_ok (i := .demod f) mfm (streamOk_of_le cap inStream) ha

/-- The state after a demodulation that gave `bytes` and left the reader at `pos` with PARITY `p` (44_line_code.md R203). -/
def demodulated (packed : Bool) (bytes : List Byte) (pos : Nat) (p : Parity) (s : State) : State :=
  { s with
    mem := s.mem.store recBase bytes
    phase := .idle
    status := { s.status with done := true, eof := (nextAt packed s pos).isNone }
    result := s.arg0
    cursor := toWord pos
    dstate := { s.dstate with parity := p } }

theorem demodEffect_complete {packed : Bool} {s : State} {bytes : List Byte} {r : Reader} {p : Parity}
    (h : (s.readerAt packed s.cursor.toNat).demod s.t2.toNat s.t3.toNat s.arg0.toNat s.dstate.parity = (bytes, r, p)) :
    (demodEffect packed s).complete = demodulated packed bytes r.cursor p s := by
  rw [demodEffect, h, demodulated, nextAt_isNone]
  rfl

/-- DEMOD stores its bytes in REC. -/
theorem readByte_demodulated (packed : Bool) (bytes : List Byte) (pos : Nat) (p : Parity) (s : State) (a : Nat) :
    (demodulated packed bytes pos p s).readByte a = (s.storeBytes recBase bytes).readByte a :=
  State.readByte_congr rfl rfl a

/-- Settles O36: the demodulation runs over the stream at CURSOR, whose reader stays within PLEN. -/
theorem demodResult : Obligations.DemodResult := by
  intro f s mfm cap inStream pos fits
  have start := s.readerAt_at f.packed s.cursor.toNat inStream
  obtain ⟨m, enough, fewest, count, bits, rest⟩ :=
    (s.readerAt f.packed s.cursor.toNat).demod_spec s.t2.toNat s.t3.toNat s.arg0.toNat s.dstate.parity
  have run := exec_demod mfm cap inStream pos fits
  rw [demodEffect_complete (congrArg (Prod.mk _) rest)] at run
  refine ⟨_, isStream_readerAt f.packed s s.cursor.toNat, m, enough, fewest, (start.skip m).1.bound, _, count, bits, _, run,
    rfl, fun i inside => ?_, fun a outside => ?_⟩
  · rw [readByte_demodulated]
    exact State.readByte_storeBytes_at _ _ _ _ inside
  · rw [readByte_demodulated]
    exact State.readByte_storeBytes_of_out _ _ _ _ outside

end Sys2Proof.Machine

/-! MOD (44_line_code.md R204 to R209): the emission of its items' cells, stored at WPOS. -/
namespace Sys2Proof.Machine

/-- The checks of MOD pass (60_exceptions.md R335). -/
theorem exec_mod {f : Flags} {s : State} (mfm : f.fm = false) (inOut : s.wpos.toNat ≤ s.outcap.toNat)
    (cap : s.outcap.toNat ≤ s.cfg.pulseCap) (cell : 1 ≤ s.t1.toNat) (raw : f.packed = true ∨ 4 * s.t1.toNat ≤ 255)
    (kind : s.modKind ≠ 3) (pos : 1 ≤ s.arg0.toNat) (fits : s.arg0.toNat ≤ s.cfg.recCap) :
    exec (.mod f) s = .next (modEffect f.packed s).complete := by
  refine exec_of_ok (i := .mod f) mfm ?_ ?_
  · simp [configOk, State.outputOk, State.cellLengthOk, inOut, cap, cell, raw]
  · simp [argOk, State.recordCountOk, kind, pos, fits]

/-- The items of MOD, its bytes read one by one. -/
theorem modItems_eq (s : State) :
    modItems s.modKind s =
      if s.arg1.toNat % 4 = 0 then (List.range s.arg0.toNat).map (fun i => .byte (s.readByte (recBase + i)))
      else if s.arg1.toNat % 4 = 1 then List.replicate s.arg0.toNat (.word 0x4489#16)
      else List.replicate s.arg0.toNat (.word 0x5224#16) := by
  rw [State.modKind]
  split_ifs with bytes a1
  · rw [bytes, modItems, State.readBytes_eq, List.map_map]
    rfl
  · rw [a1]
    rfl
  · unfold modItems
    split
    · contradiction
    · contradiction
    · rfl

/-- The effect of MOD on memory is one store at WPOS. -/
theorem readByte_modEffect (packed : Bool) (s : State) (a : Nat) :
    (modEffect packed s).complete.readByte a =
      (s.storeBytes (pulseBase + s.wpos.toNat) (modEmission packed s).bytes).readByte a := by
  rw [modEffect_eq]
  exact State.readByte_congr rfl rfl a

/-- Settles O38: MOD in one form is the emission of the cells of its items. -/
theorem modResult : Obligations.ModResult := by
  intro f s mfm inOut cap cell raw kind pos fits items out
  have emitted : modEmission f.packed s = out := by rw [modEmission, modItems_eq]
  have room := modEmission_bytes_le f.packed s
  refine ⟨_, exec_mod mfm inOut cap cell raw kind pos fits, ?_, ?_, fun k inside => ?_, fun a outside => ?_⟩
  · rw [modEffect_eq, emitted]
    rfl
  · rw [emitted] at room
    omega
  · rw [readByte_modEffect, emitted]
    exact State.readByte_storeBytes_at _ _ _ _ inside
  · rw [readByte_modEffect, emitted]
    exact State.readByte_storeBytes_of_out _ _ _ _ outside

end Sys2Proof.Machine

/-! Demodulation inverts modulation (44_line_code.md R211): the stream a MOD of bytes leaves, the intervals a DEMOD reads from
it, and the data bits among their cells. -/
namespace Sys2Proof.Machine

/-! ### Durations and their elements -/

/-- The largest duration an element carries as it is (44_line_code.md R205, 43_pulse_codec.md R171). -/
def durationMax (packed : Bool) : Nat := if packed then packMax else 255

/-- The bytes of a duration give it back, whatever follows. -/
theorem nextElem_durationBytes {packed : Bool} {d : Nat} (pos : 1 ≤ d) (le : d ≤ durationMax packed) (r : List Byte)
    (c : Nat) :
    nextElem packed (durationBytes packed d ++ r) c = some (⟨d, c + (durationBytes packed d).length⟩, r) := by
  cases packed with
  | true =>
    have bytes : durationBytes true d = packBytes d := congrArg packBytes (Nat.min_eq_left le)
    rw [bytes]
    exact parse_packBytes r c pos le
  | false =>
    have le : d ≤ 255 := le
    have value : (BitVec.ofNat 8 (min d 255)).toNat = d := by
      rw [BitVec.toNat_ofNat]
      omega
    have nonzero : BitVec.ofNat 8 (min d 255) ≠ 0#8 := by bv_omega
    refine (if_neg nonzero).trans ?_
    rw [value]
    rfl

/-- An interval of a few cells is such a duration (60_exceptions.md R335). -/
theorem interval_le_durationMax {packed : Bool} {t1 : BitVec 16} (raw : packed = true ∨ 4 * t1.toNat ≤ 255) {k : Nat}
    (few : k ≤ 4) : k * t1.toNat ≤ durationMax packed := by
  have cells : k * t1.toNat ≤ 4 * t1.toNat := Nat.mul_le_mul_right _ few
  have width : 4 * t1.toNat ≤ packMax := by
    rw [packMax]
    omega
  cases packed with
  | true => exact cells.trans width
  | false => exact cells.trans (raw.resolve_left Bool.false_ne_true)

/-- A stream of such elements reads as their durations. -/
theorem isStream_durations {packed : Bool} {s : State} {tail : List Byte} (ends : ∀ c, nextElem packed tail c = none)
    {ds : List Nat} (legal : ∀ d ∈ ds, 1 ≤ d ∧ d ≤ durationMax packed) {c : Nat} {es : List (Nat × Nat)}
    (stream : s.pulseFrom c = (ds.map (durationBytes packed)).flatten ++ tail) (reads : isStream packed s c es) :
    es.map Prod.fst = ds := by
  induction ds generalizing c es with
  | nil =>
    have atEnd : nextAt packed s c = none := by
      rw [nextAt, stream]
      exact congrArg (Option.map _) (ends c)
    cases es with
    | nil => rfl
    | cons e es => cases atEnd.symm.trans reads.1
  | cons d ds ih =>
    obtain ⟨⟨pos, le⟩, others⟩ := List.forall_mem_cons.1 legal
    have whole : s.pulseFrom c = durationBytes packed d ++ ((ds.map (durationBytes packed)).flatten ++ tail) := by
      rw [stream, List.map_cons, List.flatten_cons, List.append_assoc]
    have element : nextAt packed s c = some (d, c + (durationBytes packed d).length) := by
      rw [nextAt, whole, nextElem_durationBytes pos le]
      rfl
    cases es with
    | nil => cases element.symm.trans reads
    | cons e es =>
      obtain ⟨d', c'⟩ := e
      cases element.symm.trans reads.1
      have rest : s.pulseFrom (c + (durationBytes packed d).length) = (ds.map (durationBytes packed)).flatten ++ tail := by
        rw [← State.pulseFrom_drop, whole, List.drop_left]
      exact congrArg (d :: ·) (ih others rest reads.2)

/-! ### The cells of data bytes behind a mark -/

theorem itemsCells_bytes_only (p : Bool) (bs : List Byte) : itemsCells p (bs.map .byte) = mfmCells p (bitsOf bs) := by
  simpa [itemsCells] using itemsCells_bytes p bs []

/-- The cells of data bytes that follow a transition in a data cell. -/
def markedCells (bs : List Byte) : List Bool := mfmCells true (bitsOf bs)

theorem markedCells_length (bs : List Byte) : (markedCells bs).length = 16 * bs.length := by
  rw [markedCells, mfmCells_length, bitsOf_length]
  omega

/-- Their data cells are the data bits. -/
theorem dataCells_markedCells (bs : List Byte) : dataCells .clock (markedCells bs) = bitsOf bs := by
  simpa [markedCells, dataCells] using dataCells_mfm true (bitsOf bs) []

theorem markedCells_intervals (bs : List Byte) : ∀ k ∈ intervals 0 (markedCells bs), 2 ≤ k ∧ k ≤ 4 := by
  refine fun k hk => ⟨intervals_two true 0 _ (fun h => nomatch h) k hk, ?_⟩
  rw [markedCells, ← itemsCells_bytes_only] at hk
  exact items_le4 true 0 (bs.map .byte) (by simp) (by decide) (fun _ => rfl) k hk

/-- Few cells stay pending (44_line_code.md R206). -/
theorem markedCells_openRun (bs : List Byte) : openRun 0 (markedCells bs) ≤ 2 := by
  have states : MfmAt _ (openRun 0 (markedCells bs)) _ := MfmAt.bits (.inl ⟨rfl, rfl, Nat.zero_le 1⟩) (bitsOf bs)
  omega

/-- The closed intervals are all cells but the pending ones. -/
theorem cellsOf_markedCells (bs : List Byte) :
    cellsOf (intervals 0 (markedCells bs)) ++ List.replicate (openRun 0 (markedCells bs)) false = markedCells bs :=
  cellsOf_intervals 0 (markedCells bs)

/-! ### MOD of bytes behind a mark -/

/-- With nothing cut off, the bytes are those of all intervals. -/
theorem emission_bytes_of_not_stopped {packed full : Bool} {t1 room run : Nat} {cs : List Bool}
    (h : (emission packed full t1 room run cs).stopped = false) :
    (emission packed full t1 room run cs).bytes =
      (((intervals run cs).map (· * t1)).map (durationBytes packed)).flatten := by
  simp only [emission, decide_eq_false_iff_not, not_lt] at h
  simp only [emission, List.take_of_length_le h, Nat.not_lt.2 h, decide_false, Bool.and_false, Bool.false_and,
    Bool.false_eq_true, if_false, List.map_map]
  rfl

/-- What a MOD of bytes behind a mark leaves when nothing is cut off. -/
structure ModulatedBehindMark (packed : Bool) (s t : State) (bs : List Byte) : Prop where
  setup : SameSetup s t
  behind : s.wpos.toNat ≤ t.plen.toNat
  within : t.plen.toNat ≤ s.outcap.toNat
  stream : t.pulseFrom s.wpos.toNat =
    (((intervals 0 (markedCells bs)).map (· * s.t1.toNat)).map (durationBytes packed)).flatten
  pending : t.dstate.encRun.toNat = openRun 0 (markedCells bs)

theorem modEffect_behindMark {packed : Bool} {s : State} (inOut : s.wpos.toNat ≤ s.outcap.toNat)
    (prev : s.dstate.encPrev = true) (run : s.dstate.encRun = 0#4) (kind : s.modKind = 0)
    (whole : (modEffect packed s).status.trunc = false) :
    ModulatedBehindMark packed s (modEffect packed s).complete (s.readBytes recBase s.arg0.toNat) := by
  generalize bytes : s.readBytes recBase s.arg0.toNat = bs
  generalize stored : (((intervals 0 (markedCells bs)).map (· * s.t1.toNat)).map (durationBytes packed)).flatten = out
  have emitted : modEmission packed s =
      emission packed s.status.full s.t1.toNat (s.outcap.toNat - s.wpos.toNat) 0 (markedCells bs) := by
    rw [modEmission, kind, modItems, bytes, itemsCells_bytes_only, prev, run]
    rfl
  have notStopped : (modEmission packed s).stopped = false := by rwa [modEffect_eq] at whole
  have out_eq : (modEmission packed s).bytes = out := by
    rw [emitted] at notStopped ⊢
    exact (emission_bytes_of_not_stopped notStopped).trans stored
  have cells_eq : (modEmission packed s).cells = markedCells bs := by
    rw [emitted] at notStopped ⊢
    exact emission_cells_of_not_stopped _ _ _ _ _ _ notStopped
  have room : out.length ≤ s.outcap.toNat - s.wpos.toNat := out_eq ▸ modEmission_bytes_le packed s
  have plen : (modEffect packed s).complete.plen.toNat = s.wpos.toNat + out.length := by
    rw [modEffect_eq, out_eq]
    exact toWord_toNat _ (by omega)
  refine ⟨(effectOf_setup (.mod ⟨packed, false, false⟩) s).complete, by omega, by omega, ?_, ?_⟩
  · rw [State.pulseFrom, plen, Nat.add_sub_cancel_left, State.readBytes_eq]
    simp only [readByte_modEffect, ← State.readBytes_eq, out_eq, stored]
    exact State.readBytes_storeBytes _ _ _
  · have few := markedCells_openRun bs
    rw [modEffect_eq, cells_eq, run]
    exact (Nat.mod_eq_of_lt (show min (openRun 0 (markedCells bs)) 15 < 16 by omega)).trans (Nat.min_eq_left (by omega))

/-! ### The data bits of a DEMOD -/

/-- The data bits of the first `k` symbols of a stream, the first cell a clock cell (44_line_code.md R202). -/
def bitsRead (t2 t3 : Nat) (es : List (Nat × Nat)) (k : Nat) : List Bool :=
  dataCells .clock ((symbolCodes t2 t3 es k).flatMap codeCells)

theorem symbolCodes_prefix (t2 t3 : Nat) (es : List (Nat × Nat)) {k m : Nat} (h : k ≤ m) :
    symbolCodes t2 t3 es k <+: symbolCodes t2 t3 es m := by
  induction k generalizing es m with
  | zero => exact symbolCodes_zero t2 t3 es ▸ List.nil_prefix
  | succ k ih =>
    obtain ⟨m, rfl⟩ : ∃ n, m = n + 1 := ⟨m - 1, by omega⟩
    have le : k ≤ m := by omega
    cases es with
    | nil => exact (List.prefix_cons_inj 0).2 (ih [] le)
    | cons e es => exact (List.prefix_cons_inj _).2 (ih es le)

theorem dataCells_prefix (p : Parity) {xs ys : List Bool} (h : xs <+: ys) : dataCells p xs <+: dataCells p ys := by
  obtain ⟨zs, rfl⟩ := h
  rw [dataCells_append]
  exact List.prefix_append _ _

/-- More reads only add bits. -/
theorem bitsRead_prefix (t2 t3 : Nat) (es : List (Nat × Nat)) {k m : Nat} (h : k ≤ m) :
    bitsRead t2 t3 es k <+: bitsRead t2 t3 es m :=
  dataCells_prefix .clock ((symbolCodes_prefix t2 t3 es h).flatMap codeCells)

/-- Every second cell is a data cell. -/
theorem dataCells_clock_length : ∀ xs : List Bool, (dataCells .clock xs).length = xs.length / 2
  | [] => rfl
  | [_] => by simp [dataCells]
  | _ :: _ :: xs => by
    simp only [dataCells, List.length_cons, dataCells_clock_length xs]
    omega

theorem getD_of_prefix {xs ys : List Bool} (h : xs <+: ys) {q : Nat} (inside : q < xs.length) :
    ys.getD q false = xs.getD q false := by
  obtain ⟨zs, rfl⟩ := h
  exact List.getD_append _ _ _ _ inside

/-- The bits whose cells lie in the closed intervals are the data bits, however many symbols are read. -/
theorem bitsRead_behindMark {t1 t2 t3 : Nat} (hT : Thr t1 t2 t3) {es : List (Nat × Nat)} {bs : List Byte}
    (durations : es.map Prod.fst = (intervals 0 (markedCells bs)).map (· * t1)) {m q : Nat}
    (read : q < (bitsRead t2 t3 es m).length)
    (closed : 2 * q + 1 + openRun 0 (markedCells bs) < 16 * bs.length) :
    (bitsRead t2 t3 es m).getD q false = (bitsOf bs).getD q false := by
  have legal := markedCells_intervals bs
  have split := cellsOf_markedCells bs
  generalize intervals 0 (markedCells bs) = ks at durations legal split
  have all : bitsRead t2 t3 es ks.length = dataCells .clock (cellsOf ks) := by
    rw [bitsRead, symbolCodes_map t1 t2 t3 hT es ks durations ks.length le_rfl, List.take_length]
    · exact congrArg _ (flatMap_codes ks fun k hk => (legal k hk).1)
    · intro k hk
      have := legal k (List.mem_of_mem_take hk)
      omega
  have inside : q < (dataCells .clock (cellsOf ks)).length := by
    have length := congrArg List.length split
    rw [List.length_append, List.length_replicate, markedCells_length] at length
    rw [dataCells_clock_length]
    omega
  calc
    _ = (bitsRead t2 t3 es (max m ks.length)).getD q false :=
      (getD_of_prefix (bitsRead_prefix t2 t3 es (le_max_left _ _)) read).symm
    _ = (dataCells .clock (cellsOf ks)).getD q false :=
      getD_of_prefix (all ▸ bitsRead_prefix t2 t3 es (le_max_right _ _)) inside
    _ = (dataCells .clock (markedCells bs)).getD q false :=
      (getD_of_prefix (dataCells_prefix .clock ⟨_, split⟩) inside).symm
    _ = (bitsOf bs).getD q false := by rw [dataCells_markedCells]

section Demod

variable {packed : Bool} {s t : State} {bs : List Byte} (left : ModulatedBehindMark packed s t bs)
  (hT : Thr s.t1.toNat s.t2.toNat s.t3.toNat) (raw : packed = true ∨ 4 * s.t1.toNat ≤ 255)
include left

/-- The host's writes to CURSOR and PARITY do not touch the stream. -/
theorem ModulatedBehindMark.atStart (cursor : Word) (p : Parity) :
    ModulatedBehindMark packed s { t with cursor := cursor, dstate := { t.dstate with parity := p } } bs :=
  ⟨{ left.setup with }, left.behind, left.within, (State.pulseFrom_congr rfl rfl rfl _).trans left.stream, left.pending⟩

include hT raw

/-- The stream read back gives the intervals of the cells. -/
theorem ModulatedBehindMark.durations {es : List (Nat × Nat)} (reads : isStream packed t s.wpos.toNat es) :
    es.map Prod.fst = (intervals 0 (markedCells bs)).map (· * s.t1.toNat) := by
  have ends : ∀ c, nextElem packed [] c = none := fun c => by cases packed <;> rfl
  refine isStream_durations ends (fun d hd => ?_) (left.stream.trans (List.append_nil _).symm) reads
  obtain ⟨k, hk, rfl⟩ := List.mem_map.1 hd
  obtain ⟨two, four⟩ := markedCells_intervals bs k hk
  obtain ⟨below, above, -, -⟩ := hT
  exact ⟨Nat.mul_pos (by omega) (by omega), interval_le_durationMax raw four⟩

/-- A DEMOD at that stream gives the bytes, but for the pending cells. -/
theorem ModulatedBehindMark.demod (c : Bool) (cap : s.outcap.toNat ≤ s.cfg.pulseCap) (count : bs.length = s.arg0.toNat)
    (pos : 1 ≤ s.arg0.toNat) (fits : s.arg0.toNat ≤ s.cfg.recCap) (cursor : t.cursor = s.wpos)
    (parity : t.dstate.parity = .clock) :
    ∃ u, exec (.demod ⟨packed, c, false⟩) t = .next u ∧
      ∀ i j, i < bs.length → j < 8 → 2 * (8 * i + j) + 1 + t.dstate.encRun.toNat < 16 * bs.length →
        (u.readByte (recBase + i)).getLsbD (7 - j) = (bs.getD i 0#8).getLsbD (7 - j) := by
  have setup := left.setup
  rw [← setup.arg0] at count pos fits
  rw [← setup.cfg] at cap fits
  obtain ⟨es, reads, m, enough, -, -, bytes, length, agree, u, run, -, stored, -⟩ :=
    demodResult ⟨packed, c, false⟩ t rfl (left.within.trans cap) (cursor ▸ left.behind) pos fits
  rw [cursor] at reads
  simp only [parity, setup.t2, setup.t3] at enough agree
  have durations := left.durations hT raw reads
  refine ⟨u, run, fun i j hi hj closed => ?_⟩
  have inside : i < bytes.length := by omega
  calc
    _ = (bytes.getD i 0#8).getLsbD (7 - j) := by rw [stored i inside]
    _ = (bitsRead s.t2.toNat s.t3.toNat es m).getD (8 * i + j) false := agree i j inside hj
    _ = (bitsOf bs).getD (8 * i + j) false :=
      bitsRead_behindMark hT durations (Nat.lt_of_lt_of_le (by omega) enough) (left.pending ▸ closed)
    _ = (bs.getD i 0#8).getLsbD (7 - j) := by simpa using bitsOf_getD bs [] i j hi hj

end Demod

/-- Settles O39: the classifier separates the intervals, and the DEMOD reads the stream the MOD left. -/
theorem demodOfMod : Obligations.DemodOfMod := by
  refine ⟨fun t1 t2 t3 k a b c d two four => ?_, fun t1 pos => by omega, ?_⟩
  · rw [classifyDur_ordinal]
    exact symbolCode_mul ⟨a, b, c, d⟩ k (by omega) four
  intro p c s t inOut cap raw pos fits prev run kind a b c' d ran whole
  have modRan := exec_mod (f := ⟨p, c, false⟩) rfl inOut cap (by omega) raw (by rw [State.modKind]; omega) pos fits
  cases modRan.symm.trans ran
  have left := (modEffect_behindMark (packed := p) inOut prev run kind whole).atStart s.wpos .clock
  obtain ⟨u, demodRan, bits⟩ := left.demod ⟨a, b, c', d⟩ raw c cap (State.readBytes_length ..) pos fits rfl rfl
  refine ⟨u, demodRan, fun i j hi hj closed => ?_⟩
  rw [State.readBytes_length] at bits
  rw [bits i j hi hj closed, List.getD_eq_getElem?_getD, State.readBytes_getElem? _ _ _ _ hi]
  rfl

end Sys2Proof.Machine

/-! DECODE as the chain of reads its loop makes (45_track_decode_encode.md R230 to R240): its results, the IDAMs it captures, and
the slots it writes. -/
namespace Sys2Proof.Machine

/-! ### The command -/

/-- The checks of DECODE pass (60_exceptions.md R335). -/
theorem exec_decode {f : Flags} {s : State} (mfm : f.fm = false) (pos : 1 ≤ s.nsect.toNat)
    (sectors : s.nsect.toNat ≤ s.cfg.maxSectors) (cap : s.plen.toNat ≤ s.cfg.pulseCap) :
    exec (.decode f) s = .next (decodeEffect f s).complete := by
  refine exec_of_ok (i := .decode f) mfm ?_ rfl
  simp [configOk, State.sectorsOk, pos, sectors, cap]

/-- DECODE's loop from its start as reads of the track from position 0. -/
theorem decodeEnd_reads (f : Flags) (s : State) :
    ∃ rs, Decoder.Read s.cfg (decodeStart f s) rs (decodeEnd f s) ∧
      readsTrack f.packed s s.nsect.toNat none (decodeStart f s).valid 0 rs ∧
      if validCount (decodeEnd f s).valid s.nsect.toNat = s.nsect.toNat then
        (decodeEnd f s).reader.cursor = readEnd 0 rs ∧ (decodeEnd f s).syncreg = if rs = [] then s.syncreg else magicMfm
      else Decoder.RanOut s f.packed (readEnd 0 rs) (decodeEnd f s) :=
  decodeLoop_reads s.nsect.toNat _ _ (decodeStart_at f s) (Nat.lt_succ_self _)

/-- A byte that DECODE's loop leaves alone reads as before. -/
theorem readByte_decodeEffect {f : Flags} {s : State} {a : Nat} (h : (decodeEnd f s).mem.byte? a = s.mem.byte? a) :
    (decodeEffect f s).complete.readByte a = s.readByte a :=
  congrArg (Option.getD · (s.unlisted a)) h

/-- Settles O40: the loop's chain of reads gives every register, and with a sector missing the stream is read to its end. -/
theorem decodeResult : Obligations.DecodeResult := by
  intro f s mfm pos sectors cap n before
  obtain ⟨rs, read, chain, ended⟩ := decodeEnd_reads f s
  obtain ⟨inStream, stops⟩ := decodeEnd_end f s
  have valid : (decodeEnd f s).valid = validAtEnd s.cfg before rs := read.valid
  rw [countValid_eq, valid] at stops
  rw [valid] at ended
  refine ⟨rs, chain, (decodeEnd f s).reader.cursor, (decodeEnd f s).syncreg, ?_, inStream.bound, _,
    exec_decode mfm pos sectors cap, ?_, fun a outside => readByte_decodeEffect ((decodeEnd_keeps f s).outside a outside)⟩
  · split <;> rename_i all
    · rwa [if_pos all] at ended
    · rw [if_neg all] at ended
      obtain ⟨es, stream, cursor, reg⟩ := ended
      exact ⟨es, stream, cursor, reg,
        (nextAt_eq_none ..).2 (inStream.elems ▸ stops.resolve_left all)⟩
  · have synccnt : (decodeEnd f s).synccnt = BitVec.ofNat 32 rs.length := read.synccnt.trans (BitVec.zero_add _)
    have parity : (decodeEnd f s).parity = parityAtEnd s.dstate.parity rs := read.parity
    rw [← valid, ← synccnt, ← parity, nextAt_isNone, ← countValid_eq]
    rfl

/-- A byte register as a word. -/
theorem toWord_byte (b : Byte) : toWord b.toNat = b.setWidth 32 :=
  BitVec.eq_of_toNat_eq (by simp [toWord])

/-- With every sector valid at the start the loop ends at once (45_track_decode_encode.md R238). -/
theorem decodeEnd_of_all_valid {f : Flags} {s : State}
    (h : validCount (decodeStart f s).valid s.nsect.toNat = s.nsect.toNat) : decodeEnd f s = decodeStart f s :=
  if_pos ((countValid_eq ..).trans h)

/-- Settles O41: with C = 0 the loop starts with VALID as it is, and ends at once. -/
theorem decodeOfAValidTrack : Obligations.DecodeOfAValidTrack := by
  intro f s mfm keep pos sectors cap all
  have valid : (decodeStart f s).valid = s.valid := if_neg (ne_true_of_eq_false keep)
  have count : validCount s.valid s.nsect.toNat = s.nsect.toNat := (validCount_eq_iff ..).2 all
  rw [exec_decode mfm pos sectors cap, decodeEffect, decodeEnd_of_all_valid (by rw [valid, count]), valid, countValid_eq, count,
    toWord_byte, nextAt_isNone]
  rfl

/-! ### The IDAMs -/

/-- A value that each IDAM replaces is that of the last one. -/
theorem foldl_lastIdam {cfg : Config} (w : Word) (xs : List TrackRecord) {r : TrackRecord} {ys : List TrackRecord}
    (idam : isIdam cfg r) (last : ∀ y ∈ ys, ¬ isIdam cfg y) :
    (xs ++ r :: ys).foldl (fun w r => if isIdam cfg r then headerWord r.bytes else w) w = headerWord r.bytes := by
  rw [List.foldl_append, List.foldl_cons, if_pos idam]
  generalize headerWord r.bytes = w
  induction ys with
  | nil => rfl
  | cons y ys ih =>
    obtain ⟨first, rest⟩ := List.forall_mem_cons.1 last
    rw [List.foldl_cons, if_neg first]
    exact ih rest

/-- Without an IDAM the value stays. -/
theorem foldl_noIdam {cfg : Config} (w : Word) {rs : List TrackRecord} (no : ∀ r ∈ rs, ¬ isIdam cfg r) :
    rs.foldl (fun w r => if isIdam cfg r then headerWord r.bytes else w) w = w := by
  induction rs with
  | nil => rfl
  | cons r rs ih =>
    obtain ⟨first, rest⟩ := List.forall_mem_cons.1 no
    rw [List.foldl_cons, if_neg first]
    exact ih rest

/-- Settles O42: IDAMV and LASTIDAM are folds over the reads, which start with IDAMV = 0 and the old LASTIDAM. -/
theorem decodeCapturesTheIdam : Obligations.DecodeCapturesTheIdam := by
  intro f s mfm pos sectors cap
  obtain ⟨rs, read, chain, -⟩ := decodeEnd_reads f s
  refine ⟨rs, chain, _, exec_decode mfm pos sectors cap, ?_, fun xs r ys split idam last => ?_, fun no => ?_⟩
  · show (decodeEnd f s).idamv = true ↔ _
    rw [read.idamv, show (decodeStart f s).idamv = false from rfl, Bool.false_or, List.any_eq_true]
    simp only [decide_eq_true_eq]
  · exact read.lastidam.trans (split ▸ foldl_lastIdam _ xs idam last)
  · exact read.lastidam.trans (foldl_noIdam _ no)

/-! ### The slots -/

/-- Settles O44: DECODE keeps the bits and the slots of the sectors that were valid when its loop began, and an error changes
neither. -/
theorem decodeNeverRegresses : Obligations.DecodeNeverRegresses := by
  intro f s t keep run i bit
  obtain ⟨-, ⟨-, -, rfl⟩ | ⟨-, -, rfl⟩ | ⟨-, rfl⟩⟩ := exec_next run
  · have start : (decodeStart f s).valid = s.valid := if_neg (ne_true_of_eq_false keep)
    have kept := decodeEnd_keeps f s
    rw [start] at kept
    have still : (decodeEnd f s).valid.getLsbD i = true := kept.mono i bit
    have inWord : i < 32 := by
      by_contra out
      rw [BitVec.getLsbD_of_ge _ _ (not_lt.1 out)] at bit
      cases bit
    exact ⟨still, fun k inside => readByte_decodeEffect (kept.slots i inWord (still.trans bit.symm) k inside)⟩
  · exact ⟨bit, fun _ _ => rfl⟩
  · exact ⟨bit, fun _ _ => rfl⟩

/-- A record holds the bytes its read asked for. -/
theorem recordBehind_length {packed : Bool} {s : State} {n c : Nat} {bytes : List Byte} {rest : Nat × Parity}
    (h : recordBehind packed s n c = some (bytes, rest)) : bytes.length = n := by
  unfold recordBehind at h
  simp only at h
  split at h
  · cases h
    exact Reader.demod_length ..
  · cases h

/-- A newly set bit comes from a checked DAM (45_track_decode_encode.md R236, R237). -/
theorem exists_dam_of_validAtEnd {cfg : Config} {v : Word} {rs : List TrackRecord} {i : Nat}
    (set : (validAtEnd cfg v rs).getLsbD i = true) (clear : v.getLsbD i = false) :
    ∃ r ∈ rs, ∃ k, r.wanted = some k ∧ k - 1 = i ∧ validRecord cfg 0xFB#8 r.bytes := by
  induction rs generalizing v with
  | nil => cases set.symm.trans clear
  | cons r rs ih =>
    cases after : (validAfter cfg v r).getLsbD i with
    | false =>
      obtain ⟨r', mem, dam⟩ := ih set after
      exact ⟨r', .tail _ mem, dam⟩
    | true =>
      obtain ⟨wanted, bytes, c, p⟩ := r
      cases wanted with
      | none => cases after.symm.trans clear
      | some k =>
        by_cases ok : validRecord cfg 0xFB#8 bytes
        · rw [validAfter_accepted v ok] at after
          exact ⟨_, .head _, k, rfl, (eq_of_validBit_setValid v (k - 1) i after clear).symm, ok⟩
        · rw [validAfter_rejected v ok] at after
          cases after.symm.trans clear

/-- A checked DAM sets the bit of its sector (45_track_decode_encode.md R237). -/
theorem validAfter_dam {cfg : Config} (v : Word) {r : TrackRecord} {i : Nat} (inWord : i < 32)
    (wanted : r.wanted = some (i + 1)) (ok : validRecord cfg 0xFB#8 r.bytes) : (validAfter cfg v r).getLsbD i = true := by
  obtain ⟨_, bytes, c, p⟩ := r
  cases wanted
  rw [validAfter_accepted v ok]
  exact (validBit_setValid v i i inWord).trans (by simp)

/-- Reads for other sectors leave a slot alone (45_track_decode_encode.md R237). -/
theorem foldl_memAfter_other {cfg : Config} {mem : Memory} {rs : List TrackRecord} {i k : Nat} (inside : k < cfg.sectorBytes)
    (others : ∀ r ∈ rs, r.wanted ≠ some (i + 1)) (numbered : ∀ r ∈ rs, r.wanted ≠ some 0) :
    (rs.foldl (memAfter cfg) mem).byte? (slotAddr cfg i + k) = mem.byte? (slotAddr cfg i + k) := by
  induction rs generalizing mem with
  | nil => rfl
  | cons r rs ih =>
    obtain ⟨other, others⟩ := List.forall_mem_cons.1 others
    obtain ⟨number, numbered⟩ := List.forall_mem_cons.1 numbered
    exact (ih others numbered).trans (memAfter_other mem r inside other number)

/-- A checked DAM puts its payload into the slot of its sector (45_track_decode_encode.md R237). -/
theorem memAfter_dam {cfg : Config} (mem : Memory) {r : TrackRecord} {i k : Nat} (inside : k < cfg.sectorBytes)
    (wanted : r.wanted = some (i + 1)) (ok : validRecord cfg 0xFB#8 r.bytes) (length : r.bytes.length = cfg.sectorBytes + 3) :
    (memAfter cfg mem r).byte? (slotAddr cfg i + k) = some (r.bytes.getD (k + 1) 0#8) := by
  obtain ⟨_, bytes, c, p⟩ := r
  cases wanted
  have length : bytes.length = cfg.sectorBytes + 3 := length
  have payload : ((bytes.drop 1).take cfg.sectorBytes).length = cfg.sectorBytes := by
    rw [List.length_take, List.length_drop]
    omega
  have inBytes : k + 1 < bytes.length := by omega
  rw [memAfter_accepted mem ok, Nat.add_sub_cancel, Memory.byte?_store, payload, if_pos (by omega), Nat.add_sub_cancel_left,
    List.getElem?_take_of_lt inside, List.getElem?_drop, Nat.add_comm 1 k, List.getD_eq_getElem?_getD,
    List.getElem?_eq_getElem inBytes]
  rfl

section Chain

variable {packed : Bool} {s : State} {n c : Nat} {v : Word} {rs : List TrackRecord} (chain : readsTrack packed s n none v c rs)
include chain

/-- A read looks for a sector by its number, which is at least 1 (45_track_decode_encode.md R234). -/
theorem readsTrack_numbered : ∀ r ∈ rs, r.wanted ≠ some 0 := by
  intro r mem wanted
  obtain ⟨xs, ys, rfl⟩ := List.append_of_mem mem
  obtain ⟨-, -, -, -, -, pos, -⟩ := readsTrack_dam chain wanted
  omega

/-- Behind a checked DAM no read looks for its sector (45_track_decode_encode.md R234, R249). -/
theorem readsTrack_damOnce {xs ys : List TrackRecord} {r : TrackRecord} {i : Nat} (split : rs = xs ++ r :: ys) (inWord : i < 32)
    (wanted : r.wanted = some (i + 1)) (ok : validRecord s.cfg 0xFB#8 r.bytes) : ∀ y ∈ ys, y.wanted ≠ some (i + 1) := by
  obtain ⟨-, -, -, rest⟩ := (readsTrack_split (split ▸ chain)).1
  refine readsTrack_skips rest (fun again => ?_) (validAfter_dam _ inWord wanted ok)
  obtain ⟨⟨header, -⟩, -⟩ := wantedAfter_some again
  cases wanted.symm.trans header

/-- The slot of a checked DAM ends up with its payload (45_track_decode_encode.md R237, R249). -/
theorem readsTrack_payload (mem : Memory) {xs ys : List TrackRecord} {r : TrackRecord} {i k : Nat} (split : rs = xs ++ r :: ys)
    (inWord : i < 32) (wanted : r.wanted = some (i + 1)) (ok : validRecord s.cfg 0xFB#8 r.bytes)
    (inside : k < s.cfg.sectorBytes) :
    (rs.foldl (memAfter s.cfg) mem).byte? (slotAddr s.cfg i + k) = some (r.bytes.getD (k + 1) 0#8) := by
  have once := readsTrack_damOnce chain split inWord wanted ok
  have numbered := readsTrack_numbered chain
  subst split
  obtain ⟨-, -, record, -⟩ := (readsTrack_split chain).1
  have length : r.bytes.length = readLength s.cfg r.wanted := recordBehind_length record
  rw [wanted] at length
  rw [List.foldl_append, List.foldl_cons,
    foldl_memAfter_other inside once fun y hy => numbered y (List.mem_append_right _ (.tail _ hy))]
  exact memAfter_dam _ inside wanted ok length

end Chain

/-- Settles O43: `readsTrack_dam` gives what stands before a checked DAM, the chain behind it never looks for its sector again,
and a bit is newly set by nothing else. -/
theorem decodeWritesOnlyCheckedRecords : Obligations.DecodeWritesOnlyCheckedRecords := by
  intro f s legal mfm pos sectors cap before slot dam
  obtain ⟨-, -, most, -⟩ := legal
  obtain ⟨rs, read, chain, -⟩ := decodeEnd_reads f s
  have valid : (decodeEnd f s).valid = validAtEnd s.cfg before rs := read.valid
  refine ⟨rs, chain, _, exec_decode mfm pos sectors cap, fun i inTrack => ?_⟩
  have inWord : i < 32 := by omega
  refine ⟨fun xs r ys split isDam => ?_, fun set clear => ?_, fun same k inside => ?_⟩
  · obtain ⟨wanted, ok⟩ := isDam
    obtain ⟨xs', hdr, last, idam, number, -, -, size, clear⟩ := readsTrack_dam (split ▸ chain) wanted
    have set : (decodeEnd f s).valid.getLsbD i = true := by
      rw [valid, split, validAtEnd, List.foldl_append]
      exact validAtEnd_mono _ _ ys i (validAfter_dam _ inWord wanted ok)
    refine ⟨⟨xs', hdr, last, idam, number, size⟩, clear, set, fun k inside => ?_,
      readsTrack_damOnce chain split inWord wanted ok⟩
    have stored := readsTrack_payload chain s.mem split inWord wanted ok inside
    rw [← show (decodeEnd f s).mem = rs.foldl (memAfter s.cfg) s.mem from read.mem] at stored
    exact congrArg (Option.getD · (s.unlisted (slotAddr s.cfg i + k))) stored
  · obtain ⟨r, mem, k, wanted, rfl, ok⟩ := exists_dam_of_validAtEnd (i := i) (by rw [← valid]; exact set) clear
    have number : k ≠ 0 := fun zero => readsTrack_numbered chain r mem (zero ▸ wanted)
    exact ⟨r, mem, wanted.trans (congrArg some (by omega)), ok⟩
  · exact readByte_decodeEffect ((decodeEnd_keeps f s).slots i inWord same k inside)

end Sys2Proof.Machine

/-! ENCODE (45_track_decode_encode.md R242 to R247): the layout as the rule lists it, and its emission stored from position 0. -/
namespace Sys2Proof.Machine

/-! ### The layout -/

/-- The sectors of a layout, one for each number (45_track_decode_encode.md R243). -/
theorem sectorsFrom_eq (s : State) (k r : Nat) :
    sectorsFrom s k (r + 1) = (List.range k).flatMap (fun j =>
      sectorItems s.cfg s.cyl s.head (r + j + 1) (s.readBytes (slotAddr s.cfg (r + j)) s.cfg.sectorBytes)) := by
  induction k generalizing r with
  | zero => rfl
  | succ k ih =>
    rw [sectorsFrom, ih, List.range_succ_eq_map, List.flatMap_cons, List.flatMap_map]
    simp only [Nat.succ_eq_add_one, Nat.add_right_comm r 1, ← Nat.add_assoc]
    rfl

theorem layout_eq (s : State) (n : Nat) :
    layout s n = indexItems s.cfg ++ (List.range n).flatMap (fun j =>
      sectorItems s.cfg s.cyl s.head (j + 1) (s.readBytes (slotAddr s.cfg j) s.cfg.sectorBytes)) := by
  rw [layout, sectorsFrom_eq]
  simp only [Nat.zero_add]

/-- Settles O45: the layout is the index field and the sectors by number, each payload read byte by byte. -/
theorem trackLayout : Obligations.TrackLayout := by
  refine ⟨by decide, fun s n => ?_⟩
  simp only [layout_eq, State.readBytes_eq]
  rfl

/-! ### The command -/

/-- The checks of ENCODE pass (60_exceptions.md R335). -/
theorem exec_encode {f : Flags} {s : State} (mfm : f.fm = false) (pos : 1 ≤ s.nsect.toNat)
    (sectors : s.nsect.toNat ≤ s.cfg.maxSectors) (cap : s.outcap.toNat ≤ s.cfg.pulseCap) (cell : 1 ≤ s.t1.toNat)
    (raw : f.packed = true ∨ 4 * s.t1.toNat ≤ 255) : exec (.encode f) s = .next (encodeEffect f.packed s).complete := by
  refine exec_of_ok (i := .encode f) mfm ?_ rfl
  simp [configOk, State.sectorsOk, State.cellLengthOk, pos, sectors, cap, cell, raw]

/-- The effect of ENCODE on memory is one store from position 0. -/
theorem readByte_encodeEffect (packed : Bool) (s : State) (a : Nat) :
    (encodeEffect packed s).complete.readByte a = (s.storeBytes pulseBase (encodeEmission packed s).bytes).readByte a := by
  rw [encodeEffect_eq]
  exact State.readByte_congr rfl rfl a

/-- Settles O46: ENCODE in one form is the emission of its layout and more gap bytes than fit. -/
theorem encodeResult : Obligations.EncodeResult := by
  intro f s mfm pos sectors cap cell raw track alone out
  refine ⟨_, exec_encode mfm pos sectors cap cell raw, ?_, encodeEmission_stopped f.packed s,
    encodeEmission_bytes_le f.packed s, fun k inside => ?_, fun a outside => ?_⟩
  · rw [encodeEffect_eq, encodeEmission_stopped]
    rfl
  · rw [readByte_encodeEffect]
    exact State.readByte_storeBytes_at _ _ _ _ inside
  · rw [readByte_encodeEffect]
    exact State.readByte_storeBytes_of_out _ _ _ _ outside

end Sys2Proof.Machine

/-! The track round trip (45_track_decode_encode.md R248): the stream an ENCODE with TRUNC = 0 leaves is that of the track's
layout, and a DECODE over the layout of the track it stands in reads one sector per pass. -/
namespace Sys2Proof.Machine

/-! ### The stream of an ENCODE -/

/-- Intervals written one after the other. -/
def streamBytes (packed : Bool) (t1 : Nat) (ks : List Nat) : List Byte :=
  ((ks.map (· * t1)).map (durationBytes packed)).flatten

/-- What ends a written stream: nothing, or the terminating byte (43_pulse_codec.md R176). -/
def Terminator (tail : List Byte) : Prop := tail = [] ∨ tail = [0x00#8]

/-- A terminator ends the stream in either form (41_classifier_sync.md R122, 43_pulse_codec.md R173). -/
theorem Terminator.nextElem {tail : List Byte} (h : Terminator tail) (packed : Bool) (c : Nat) :
    nextElem packed tail c = none := by
  cases packed with
  | true => exact parse_terminator h c
  | false => obtain rfl | rfl := h <;> rfl

/-- Cells are written as the intervals that fit and a terminator (44_line_code.md R208). -/
theorem emission_bytes_eq (packed : Bool) (t1 room run : Nat) (cs : List Bool) :
    ∃ tail, Terminator tail ∧ (emission packed false t1 room run cs).bytes =
      streamBytes packed t1 ((intervals run cs).take (emission packed false t1 room run cs).count) ++ tail := by
  have written (n : Nat) : (((intervals run cs).map (fun k => durationBytes packed (k * t1))).take n).flatten =
      streamBytes packed t1 ((intervals run cs).take n) := by
    rw [streamBytes, ← List.map_take, List.map_map]
    rfl
  simp only [emission, Bool.false_eq_true, if_false, written]
  split
  · exact ⟨[0x00#8], .inr rfl, rfl⟩
  · exact ⟨[], .inl rfl, (List.append_nil _).symm⟩

/-- Cells that are not cut off alone are not cut off with more behind them. -/
theorem emission_count_append {packed : Bool} {t1 room run : Nat} {xs : List Bool}
    (whole : (emission packed false t1 room run xs).stopped = false) (ys : List Bool) :
    (intervals run xs).length ≤ (emission packed false t1 room run (xs ++ ys)).count := by
  simp only [emission, Bool.false_eq_true, if_false, decide_eq_false_iff_not, not_lt] at whole ⊢
  have all := fitCount_append room _ ((intervals (openRun run xs) ys).map (fun k => durationBytes packed (k * t1))) whole
  rwa [← List.map_append, ← intervals_append, List.length_map] at all

/-- A byte, or one of the two sync words (45_track_decode_encode.md R243). -/
def LayoutItem : Item → Prop
  | .byte _ => True
  | .word w => w = syncA1 ∨ w = syncC2

theorem fill_layoutItem (k : Nat) (b : Byte) : ∀ i ∈ fill k b, LayoutItem i := by
  intro i hi
  cases List.eq_of_mem_replicate hi
  trivial

theorem replicate_layoutItem {w : BitVec 16} (h : w = syncA1 ∨ w = syncC2) (k : Nat) :
    ∀ i ∈ List.replicate k (Item.word w), LayoutItem i := by
  intro i hi
  cases List.eq_of_mem_replicate hi
  exact h

theorem recordItems_layoutItem (cfg : Config) (rec : List Byte) : ∀ i ∈ recordItems cfg rec, LayoutItem i := by
  simp only [recordItems, List.forall_mem_append, List.forall_mem_map]
  exact ⟨⟨fill_layoutItem _ _, replicate_layoutItem (.inl rfl) 3⟩, fun _ _ => trivial⟩

/-- The sync words of a layout are SYNC_A1 and SYNC_C2 (45_track_decode_encode.md R243). -/
theorem layout_layoutItem (s : State) (n : Nat) : ∀ i ∈ layout s n, LayoutItem i := by
  simp only [layout_eq, indexItems, sectorItems, List.forall_mem_append, List.forall_mem_flatMap, List.forall_mem_singleton]
  have gaps := fill_layoutItem
  have record := recordItems_layoutItem s.cfg
  exact ⟨⟨⟨⟨gaps _ _, gaps _ _⟩, replicate_layoutItem (.inr rfl) 3⟩, trivial⟩,
    fun j _ => ⟨⟨⟨⟨gaps _ _, record _⟩, gaps _ _⟩, record _⟩, gaps _ _⟩⟩

/-- The intervals of a layout and the gap bytes behind it are 1 to 4 cells. -/
theorem layout_intervals (s : State) (n m : Nat) :
    ∀ k ∈ intervals 0 (itemsCells false (layout s n ++ List.replicate m (.byte gapByte))), 1 ≤ k ∧ k ≤ 4 := by
  have words : ∀ i ∈ layout s n ++ fill m gapByte, ∀ w, i = .word w → w = syncA1 ∨ w = syncC2 := by
    rintro _ hi w rfl
    exact List.forall_mem_append.2 ⟨layout_layoutItem s n, fill_layoutItem m gapByte⟩ _ hi
  exact fun k hk => ⟨intervals_pos _ _ k hk, items_le4 false 0 _ words (by decide) (fun h => nomatch h) k hk⟩

/-- The intervals of the layout of a state's track. -/
def layoutIntervals (t : State) : List Nat := intervals 0 (itemsCells false (layout t t.nsect.toNat))

/-- A state whose stream is the layout of its own track, with more behind it. -/
def HoldsTrack (packed : Bool) (t : State) : Prop :=
  ∃ ks, Reads (t.readerAt packed 0) t.t1.toNat (layoutIntervals t ++ ks)

/-- With nothing of the layout cut off, ENCODE writes its intervals, some of the padding's and a terminator
(45_track_decode_encode.md R245). -/
theorem encodeEmission_bytes {packed : Bool} {s : State} (whole : (layoutEmission packed s).stopped = false) :
    ∃ ks tail, (∀ k ∈ layoutIntervals s ++ ks, 1 ≤ k ∧ k ≤ 4) ∧ Terminator tail ∧
      (encodeEmission packed s).bytes = streamBytes packed s.t1.toNat (layoutIntervals s ++ ks) ++ tail := by
  have few := layout_intervals s s.nsect.toNat (s.outcap.toNat + 1)
  obtain ⟨tail, ends, written⟩ := emission_bytes_eq packed s.t1.toNat s.outcap.toNat 0
    (itemsCells false (layout s s.nsect.toNat ++ List.replicate (s.outcap.toNat + 1) (.byte gapByte)))
  have split : ∃ ks, (intervals 0 (itemsCells false (layout s s.nsect.toNat ++
      List.replicate (s.outcap.toNat + 1) (.byte gapByte)))).take (encodeEmission packed s).count = layoutIntervals s ++ ks := by
    rw [encodeEmission, itemsCells_append, intervals_append, List.take_append,
      List.take_of_length_le (emission_count_append whole _)]
    exact ⟨_, rfl⟩
  obtain ⟨ks, split⟩ := split
  exact ⟨ks, tail, fun k hk => few k (List.mem_of_mem_take (split ▸ hk)), ends, split ▸ written⟩

/-- What a stream of intervals reads as. -/
theorem reads_of_streamBytes {packed : Bool} {t : State} (raw : packed = true ∨ 4 * t.t1.toNat ≤ 255)
    (cell : 1 ≤ t.t1.toNat) {ks : List Nat} (few : ∀ k ∈ ks, 1 ≤ k ∧ k ≤ 4) {tail : List Byte} (ends : Terminator tail)
    (stream : t.pulseFrom 0 = streamBytes packed t.t1.toNat ks ++ tail) : Reads (t.readerAt packed 0) t.t1.toNat ks := by
  refine isStream_durations (ends.nextElem packed) (fun d hd => ?_) stream (isStream_readerAt packed t 0)
  obtain ⟨k, hk, rfl⟩ := List.mem_map.1 hd
  obtain ⟨one, four⟩ := few k hk
  exact ⟨Nat.mul_pos one cell, interval_le_durationMax raw four⟩

/-- Every slot of the track lies below PULSE (20_memory.md R62). -/
theorem slot_lt_pulseBase {cfg : Config} (legal : cfg.legal) {i k : Nat} (inTrack : i < cfg.maxSectors)
    (inside : k < cfg.sectorBytes) : slotAddr cfg i + k < pulseBase := by
  have slot := slot_within (cfg := cfg) inTrack (Nat.le_refl _)
  have apart := (Resource.memories_apart legal).2
  have track : cfg.trackBytes = cfg.maxSectors * cfg.sectorBytes := rfl
  omega

/-- The layout is that of the parameters, CYL, HEAD and the slots alone. -/
theorem layout_congr {s t : State} (setup : SameSetup s t) {n : Nat}
    (slots : ∀ i k, i < n → k < s.cfg.sectorBytes → t.readByte (slotAddr s.cfg i + k) = s.readByte (slotAddr s.cfg i + k)) :
    layout t n = layout s n := by
  rw [layout_eq, layout_eq, setup.cfg, setup.cyl, setup.head]
  refine congrArg (indexItems s.cfg ++ ·) (List.flatMap_congr fun i hi => ?_)
  rw [State.readBytes_eq, State.readBytes_eq]
  exact congrArg _ (List.map_congr_left fun k hk => slots i k (List.mem_range.1 hi) (List.mem_range.1 hk))

section Encoded

variable {packed : Bool} {s : State}

/-- ENCODE writes nothing below PULSE (45_track_decode_encode.md R247). -/
theorem readByte_encodeEffect_below {a : Nat} (below : a < pulseBase) :
    (encodeEffect packed s).complete.readByte a = s.readByte a := by
  rw [readByte_encodeEffect]
  exact State.readByte_storeBytes_of_out _ _ _ _ (.inl below)

/-- ENCODE leaves alone what no command writes (30_encoding.md R92). -/
theorem encodeEffect_setup : SameSetup s (encodeEffect packed s).complete :=
  (effectOf_setup (.encode ⟨packed, false, false⟩) s).complete

/-- PLEN stands behind the bytes of ENCODE (45_track_decode_encode.md R247). -/
theorem encodeEffect_plen : (encodeEffect packed s).complete.plen.toNat = (encodeEmission packed s).bytes.length := by
  have room := encodeEmission_bytes_le packed s
  rw [encodeEffect_eq]
  exact toWord_toNat _ (by omega)

/-- An ENCODE that cut nothing off leaves the stream of its track. -/
theorem holdsTrack_encodeEffect (legal : s.cfg.legal) (sectors : s.nsect.toNat ≤ s.cfg.maxSectors) (cell : 1 ≤ s.t1.toNat)
    (raw : packed = true ∨ 4 * s.t1.toNat ≤ 255) (whole : (encodeEffect packed s).status.trunc = false) :
    HoldsTrack packed (encodeEffect packed s).complete := by
  have setup := encodeEffect_setup (packed := packed) (s := s)
  have same : layout (encodeEffect packed s).complete (encodeEffect packed s).complete.nsect.toNat =
      layout s s.nsect.toNat := by
    rw [setup.nsect]
    exact layout_congr setup fun i k hi hk => readByte_encodeEffect_below (slot_lt_pulseBase legal (by omega) hk)
  have alone : (layoutEmission packed s).stopped = false := by rwa [encodeEffect_eq] at whole
  have stream : (encodeEffect packed s).complete.pulseFrom 0 = (encodeEmission packed s).bytes := by
    rw [State.pulseFrom, encodeEffect_plen, State.readBytes_eq]
    simp only [readByte_encodeEffect, ← State.readBytes_eq]
    exact State.readBytes_storeBytes _ _ _
  obtain ⟨ks, tail, few, ends, written⟩ := encodeEmission_bytes alone
  have reads := reads_of_streamBytes (setup.t1.symm ▸ raw) (setup.t1.symm ▸ cell) few ends
    (stream.trans (setup.t1.symm ▸ written))
  rw [layoutIntervals, ← same] at reads
  exact ⟨ks, reads⟩

end Encoded

/-! ### The records of a sector -/

/-- The IDAM record of a sector number, with its CRC (45_track_decode_encode.md R243, R244). -/
def idamRecord (t : State) (r : Nat) : List Byte := withCrc t.cfg (idamBody t.cfg t.cyl t.head r)

/-- The DAM record of a sector number, with its CRC (45_track_decode_encode.md R243, R244). -/
def damRecord (t : State) (r : Nat) : List Byte :=
  withCrc t.cfg (markDam :: t.readBytes (slotAddr t.cfg (r - 1)) t.cfg.sectorBytes)

/-- A record with its CRC passes the check of its mark (42_crc.md R154, 45_track_decode_encode.md R244). -/
theorem recordOk_withCrc (cfg : Config) (mark : Byte) (body : List Byte) :
    recordOk cfg (withCrc cfg (mark :: body)) mark = true := by
  have residue : crc16 (withCrc cfg (mark :: body)) (preloadMfm cfg) = 0#16 := by
    rw [withCrc, crc16_append, crc16_crcBytes]
  rw [recordOk, residue]
  simp [withCrc]

theorem damRecord_length (t : State) (r : Nat) : (damRecord t r).length = 1 + t.cfg.sectorBytes + 2 := by
  simp only [damRecord, withCrc, crcBytes, List.length_append, List.length_cons, List.length_nil, State.readBytes_length]
  omega

/-- The payload of a DAM record is what its slot holds. -/
theorem damRecord_payload (t : State) (r : Nat) :
    ((damRecord t r).drop 1).take t.cfg.sectorBytes = t.readBytes (slotAddr t.cfg (r - 1)) t.cfg.sectorBytes :=
  List.take_left' (State.readBytes_length ..)

theorem idamRecord_sector (t : State) {r : Nat} (few : r ≤ 32) : (recByte (idamRecord t r) 3).toNat = r :=
  Nat.mod_eq_of_lt (show r < 256 by omega)

/-- An IDAM record is followed up while its sector is not valid (45_track_decode_encode.md R234). -/
theorem followUp_idamRecord {t : State} (legal : t.cfg.legal) {n r : Nat} {valid : Word} (pos : 1 ≤ r) (le : r ≤ n)
    (few : n ≤ 32) (clear : validBit valid (r - 1) = false) : followUp t.cfg n valid (idamRecord t r) = true := by
  obtain ⟨size, -⟩ := legal
  have sector := idamRecord_sector t (le.trans few)
  have code : (recByte (idamRecord t r) 4).toNat = t.cfg.sizeCode := Nat.mod_eq_of_lt (show t.cfg.sizeCode < 256 by omega)
  simp only [followUp, sector, code, clear, pos, le, decide_true, Bool.not_false, Bool.and_self]

/-! ### The cells of the sectors -/

/-- The cells behind the sync mark of a sector's DAM, with `k` sectors behind that one (45_track_decode_encode.md R243). -/
def behindDamMark (t : State) (k r : Nat) : List Bool :=
  mfmCells true (bitsOf (damRecord t r) ++ bitsOf (postBytes t.cfg)) ++
    itemsCells ((bitsOf (damRecord t r) ++ bitsOf (postBytes t.cfg)).getLast?.getD true) (sectorsFrom t k (r + 1))

/-- The cells behind the sync mark of a sector's IDAM, with `k` sectors behind that one (45_track_decode_encode.md R243). -/
def behindIdamMark (t : State) (k r : Nat) : List Bool :=
  mfmCells true (bitsOf (idamRecord t r) ++ bitsOf (midBytes t.cfg)) ++ a1Cells ++ behindDamMark t k r

theorem itemsCells_sectorsFrom_succ (t : State) (p : Bool) (k r : Nat) :
    itemsCells p (sectorsFrom t (k + 1) r) = mfmCells p (bitsOf (preBytes t.cfg)) ++ a1Cells ++ behindIdamMark t k r :=
  itemsCells_sector ..

/-- Behind the last DAM come its gap bytes alone. -/
theorem behindDamMark_zero (t : State) (r : Nat) :
    behindDamMark t 0 r = mfmCells true (bitsOf (damRecord t r) ++ bitsOf (postBytes t.cfg)) := List.append_nil _

/-- Behind any other DAM come gap bytes and the next sector's IDAM. -/
theorem behindDamMark_succ (t : State) (k r : Nat) :
    behindDamMark t (k + 1) r =
      mfmCells true (bitsOf (damRecord t r) ++ (bitsOf (postBytes t.cfg) ++ bitsOf (preBytes t.cfg))) ++ a1Cells ++
        behindIdamMark t k (r + 1) := by
  rw [behindDamMark, itemsCells_sectorsFrom_succ, ← List.append_assoc (bitsOf (damRecord t r)),
    mfmCells_append true (bitsOf (damRecord t r) ++ bitsOf (postBytes t.cfg))]
  simp only [List.append_assoc]

/-- The cells before the first sector's IDAM mark: the index field and a gap (45_track_decode_encode.md R243). -/
def beforeFirstMark (cfg : Config) : List Bool :=
  mfmCells false (bitsOf (List.replicate cfg.gap4a gapByte ++ List.replicate cfg.gapPresync 0x00#8)) ++ (c2Cells ++ fcCells) ++
    mfmCells false (bitsOf (preBytes cfg))

theorem itemsCells_layout_succ (t : State) (k : Nat) :
    itemsCells false (layout t (k + 1)) = beforeFirstMark t.cfg ++ a1Cells ++ behindIdamMark t k 1 := by
  rw [layout, itemsCells_index, itemsCells_sectorsFrom_succ, beforeFirstMark]
  simp only [List.append_assoc]

/-- Neither the index field, its C2 words included, nor the gap behind it begins a mark (45_track_decode_encode.md R248). -/
theorem beforeFirstMark_clean (cfg : Config) : Clean (intervals 0 (beforeFirstMark cfg ++ [false, true])) := by
  have start : MfmAt false 0 0 := .inr (.inl ⟨rfl, rfl, rfl⟩)
  have index := (start.bits (bitsOf (List.replicate cfg.gap4a gapByte ++ List.replicate cfg.gapPresync 0x00#8))).index
  have gaps := index.bits (bitsOf (preBytes cfg))
  rw [← openRun_append, ← hOf_append, ← openRun_append, ← hOf_append, ← List.append_assoc] at gaps
  exact clean_of_mfmAt gaps

/-! ### One sector per pass -/

/-- Before the IDAM mark of sector `r`, with that and `k` more sectors to come; with none to come, anywhere. -/
def SectorsAhead (t : State) (reader : Reader) : Nat → Nat → Prop
  | 0, _ => True
  | k + 1, r => ∃ a ext, Clean a ∧ (∀ x ∈ a, 1 ≤ x) ∧
      Reads reader t.t1.toNat (a ++ magicIntervals ++ (intervals 0 (behindIdamMark t k r) ++ ext))

/-- What DECODE.C carries after the first `j` sectors of a track whose slots it reads back (45_track_decode_encode.md R248). -/
structure SectorsRead (t : State) (d : Decoder) (j : Nat) : Prop where
  valid : ∀ i, i < 32 → validBit d.valid i = decide (i < j)
  mem : ∀ a, (d.mem.byte? a).getD (t.unlisted a) = t.readByte a
  synccnt : d.synccnt = BitVec.ofNat 32 (2 * j)
  lastidam : j ≠ 0 → d.lastidam = idamWord (idamRecord t j)

/-- A slot that is stored as it is reads as before. -/
theorem byte?_store_slot {t : State} {mem : Memory} (same : ∀ a, (mem.byte? a).getD (t.unlisted a) = t.readByte a)
    (lo n a : Nat) : ((mem.store lo (t.readBytes lo n)).byte? a).getD (t.unlisted a) = t.readByte a := by
  rw [Memory.byte?_store, State.readBytes_length]
  split
  · rw [State.readBytes_getElem? _ _ _ _ (by omega), show lo + (a - lo) = a by omega]
    rfl
  · exact same a

section Sectors

variable {t : State} (hT : Thr t.t1.toNat t.t2.toNat t.t3.toNat) (gap : 1 ≤ t.cfg.gap3)
include hT gap

/-- A demodulation of a DAM leaves the reader before the next sector. -/
theorem demod_damRecord {k r : Nat} {reader : Reader} {ext : List Nat}
    (reads : Reads reader t.t1.toNat (intervals 0 (behindDamMark t k r) ++ ext)) :
    ∃ reader' p, reader.demod t.t2.toNat t.t3.toNat (damRecord t r).length .clock = (damRecord t r, reader', p) ∧
      SectorsAhead t reader' k (r + 1) := by
  cases k with
  | zero =>
    have more : 1 ≤ (bitsOf (postBytes t.cfg)).length := by
      rw [bitsOf_length, postBytes, List.length_replicate]
      omega
    rw [behindDamMark_zero] at reads
    obtain ⟨reader', p, demod⟩ := demod_last hT more reads
    exact ⟨reader', p, demod, trivial⟩
  | succ k =>
    rw [behindDamMark_succ, intervals_mark, List.append_assoc, List.append_assoc] at reads
    obtain ⟨reader', p, demod, a, clean, pos, reads⟩ := demod_after_mark hT reads
    exact ⟨reader', p, demod, a, ext, clean, pos, by rwa [List.append_assoc]⟩

/-- A pass reads the next sector. -/
theorem pass_sector (legal : t.cfg.legal) {n j k : Nat} {d : Decoder} (more : j < n) (few : n ≤ 32)
    (ahead : SectorsAhead t d.reader (k + 1) (j + 1)) (read : SectorsRead t d j) :
    ∃ d', d.pass t.cfg t.t2.toNat t.t3.toNat n = (true, d') ∧ SectorsAhead t d'.reader k (j + 2) ∧
      SectorsRead t d' (j + 1) := by
  obtain ⟨a, ext, clean, pos, reads⟩ := ahead
  have clear : validBit d.valid j = false := (read.valid j (by omega)).trans (by simp)
  rw [behindIdamMark, intervals_mark, List.append_assoc _ _ ext] at reads
  obtain ⟨d', pass, ahead, synccnt, lastidam, valid, mem⟩ :=
    pass_reads (n := n) hT reads clean pos rfl (recordOk_withCrc ..)
      (followUp_idamRecord legal (by omega) (by omega) few clear) (damRecord_length t (j + 1)) (recordOk_withCrc ..)
      fun reader' reads' => demod_damRecord hT gap reads'
  have sector := idamRecord_sector t (r := j + 1) (by omega)
  refine ⟨d', pass, ahead, fun i inWord => ?_, ?_, ?_, fun _ => lastidam⟩
  · rw [valid, sector, Nat.add_sub_cancel, validBit_setValid _ _ _ inWord, read.valid i inWord, ← Bool.decide_or]
    exact decide_eq_decide.2 (by omega)
  · rw [mem, sector, damRecord_payload]
    exact byte?_store_slot read.mem _ _
  · rw [synccnt, read.synccnt, BitVec.add_assoc]
    exact (BitVec.ofNat_add ..).symm

/-- The loop reads all sectors (45_track_decode_encode.md R238). -/
theorem decodeLoop_sectors (legal : t.cfg.legal) {packed : Bool} {n : Nat} (few : n ≤ 32) (k : Nat) :
    ∀ {fuel j : Nat} {d : Decoder}, d.reader.At t packed → d.reader.elems.length < fuel → j + k = n →
      SectorsAhead t d.reader k (j + 1) → SectorsRead t d j →
      SectorsRead t (decodeLoop t.cfg t.t2.toNat t.t3.toNat n fuel d) n := by
  induction k with
  | zero =>
    intro fuel j d _ enough all _ read
    obtain ⟨fuel, rfl⟩ : ∃ m, fuel = m + 1 := ⟨fuel - 1, by omega⟩
    obtain rfl : j = n := by omega
    have count : countValid d.valid j = j := by
      rw [countValid_eq, validCount_eq_iff]
      exact fun i hi => (read.valid i (by omega)).trans (decide_eq_true hi)
    rwa [decodeLoop, if_pos count]
  | succ k ih =>
    intro fuel j d inStream enough all ahead read
    obtain ⟨fuel, rfl⟩ : ∃ m, fuel = m + 1 := ⟨fuel - 1, by omega⟩
    have missing : countValid d.valid n ≠ n := by
      rw [countValid_eq, ne_eq, validCount_eq_iff]
      intro every
      have clear := read.valid j (by omega)
      rw [decide_eq_false (Nat.lt_irrefl j)] at clear
      cases clear.symm.trans (every j (by omega))
    obtain ⟨d', pass, ahead', read'⟩ := pass_sector hT gap legal (by omega) few ahead read
    have passed := Decoder.pass_spec n inStream true d' pass
    have shorter := passed.goes rfl
    rw [decodeLoop, if_neg missing, pass]
    exact ih passed.at' (by omega) (by omega) ahead' read'

/-- DECODE.C over the layout of the track itself reads every sector. -/
theorem decodeEnd_sectors (legal : t.cfg.legal) {packed : Bool} (pos : 1 ≤ t.nsect.toNat)
    (sectors : t.nsect.toNat ≤ t.cfg.maxSectors) (held : HoldsTrack packed t) :
    SectorsRead t (decodeEnd ⟨packed, true, false⟩ t) t.nsect.toNat := by
  have few : t.nsect.toNat ≤ 32 := sectors.trans legal.2.2.1
  obtain ⟨ks, reads⟩ := held
  obtain ⟨k, count⟩ : ∃ k, t.nsect.toNat = k + 1 := ⟨t.nsect.toNat - 1, by omega⟩
  have ahead : SectorsAhead t (t.readerAt packed 0) t.nsect.toNat 1 := by
    rw [layoutIntervals, count, itemsCells_layout_succ, intervals_mark, List.append_assoc] at reads
    rw [count]
    exact ⟨_, ks, beforeFirstMark_clean t.cfg, intervals_pos _ _, reads⟩
  exact decodeLoop_sectors hT gap legal few _ (decodeStart_at ⟨packed, true, false⟩ t) (Nat.lt_succ_self _)
    (Nat.zero_add _) ahead ⟨fun i _ => by simp [decodeStart, validBit], fun _ => rfl, rfl, fun h => absurd rfl h⟩

/-- DECODE.C over the layout of the track itself gives the track back (45_track_decode_encode.md R248). -/
theorem decode_heldTrack (legal : t.cfg.legal) {packed : Bool} (pos : 1 ≤ t.nsect.toNat)
    (sectors : t.nsect.toNat ≤ t.cfg.maxSectors) (cap : t.plen.toNat ≤ t.cfg.pulseCap) (held : HoldsTrack packed t) :
    ∃ u, exec (.decode ⟨packed, true, false⟩) t = .next u ∧ u.result = t.nsect.setWidth 32 ∧
      (∀ i, i < t.nsect.toNat → u.valid.getLsbD i = true) ∧ (∀ a, u.readByte a = t.readByte a) ∧
      u.synccnt.toNat = 2 * t.nsect.toNat ∧
      u.lastidam = BitVec.ofNat 8 t.cfg.sizeCode ++ t.nsect ++ t.head ++ t.cyl := by
  have few : t.nsect.toNat ≤ 32 := sectors.trans legal.2.2.1
  obtain ⟨valid, mem, synccnt, lastidam⟩ := decodeEnd_sectors hT gap legal pos sectors held
  have all (i : Nat) (hi : i < t.nsect.toNat) : (decodeEnd ⟨packed, true, false⟩ t).valid.getLsbD i = true :=
    (valid i (by omega)).trans (decide_eq_true hi)
  refine ⟨_, exec_decode rfl pos sectors cap, ?_, all, mem, ?_, ?_⟩
  · have count := (validCount_eq_iff ..).2 all
    rw [← countValid_eq] at count
    exact (congrArg toWord count).trans (toWord_byte t.nsect)
  · exact (congrArg BitVec.toNat synccnt).trans (Nat.mod_eq_of_lt (by omega))
  · have header : idamWord (idamRecord t t.nsect.toNat) =
        BitVec.ofNat 8 t.cfg.sizeCode ++ BitVec.ofNat 8 t.nsect.toNat ++ t.head ++ t.cyl := rfl
    rw [BitVec.ofNat_toNat, BitVec.setWidth_eq] at header
    exact (lastidam (by omega)).trans header

end Sectors

/-- Settles O47: ENCODE leaves the stream of its track, and DECODE.C reads that track's sectors back, one per pass. -/
theorem trackRoundTrip : Obligations.TrackRoundTrip := by
  intro p c s t legal gap pos sectors cap cell raw t2 t3 run whole
  have ran := exec_encode (f := ⟨p, c, false⟩) rfl pos sectors cap cell raw
  cases ran.symm.trans run
  have setup := encodeEffect_setup (packed := p) (s := s)
  have held := holdsTrack_encodeEffect legal sectors cell raw whole
  have plen : (encodeEffect p s).complete.plen.toNat ≤ s.cfg.pulseCap :=
    encodeEffect_plen.trans_le ((encodeEmission_bytes_le p s).trans cap)
  have slots (i k : Nat) (hi : i < s.nsect.toNat) (hk : k < s.cfg.sectorBytes) :=
    readByte_encodeEffect_below (packed := p) (s := s) (slot_lt_pulseBase legal (hi.trans_le sectors) hk)
  generalize (encodeEffect p s).complete = t at setup held plen slots
  have hT : Thr t.t1.toNat t.t2.toNat t.t3.toNat := by
    rw [setup.t1, setup.t2, setup.t3, t2, t3]
    exact ⟨by omega, by omega, by omega, by omega⟩
  rw [← setup.cfg] at legal gap sectors plen slots ⊢
  rw [← setup.nsect] at pos sectors slots ⊢
  obtain ⟨u, decoded, result, valid, mem, synccnt, lastidam⟩ := decode_heldTrack hT gap legal pos sectors plen held
  refine ⟨u, decoded, result, valid, fun i k hi hk => (mem _).trans (slots i k hi hk), synccnt, ?_⟩
  rw [lastidam, setup.head, setup.cyl]

end Sys2Proof.Machine

/-! VALID, the record of the track buffer's valid slots (46_track_buffer_system.md R270 to R276): the commands that only mark or
clear it, and all a step can do to it. -/
namespace Sys2Proof.Machine

/-! ### NOP, CLRVALID, MARKWR -/

/-- Settles O18: neither command has a check, and its effect is its whole meaning. -/
theorem nopAndClrvalid : Obligations.NopAndClrvalid := fun f _ =>
  ⟨exec_of_ok (i := .nop f) rfl rfl rfl, exec_of_ok (i := .clrvalid f) rfl rfl rfl⟩

/-- The checks of MARKWR pass (60_exceptions.md R335). -/
theorem exec_markwr (f : Flags) {s : State} (pos : 1 ≤ s.nsect.toNat) (sectors : s.nsect.toNat ≤ s.cfg.maxSectors)
    (slot : s.arg0.toNat < s.nsect.toNat) : exec (.markwr f) s = .next (markWritten s).complete :=
  exec_of_ok (i := .markwr f) rfl (by simp [configOk, State.sectorsOk, pos, sectors]) (decide_eq_true slot)

/-- Settles O19: the effect of MARKWR sets the one bit `validBit_setValid` gives. -/
theorem markwrMarksTheSlot : Obligations.MarkwrMarksTheSlot := fun f s pos sectors slot =>
  ⟨setValid s.valid s.arg0.toNat, validBit_setValid s.valid s.arg0.toNat, exec_markwr f pos sectors slot⟩

/-! ### VALID over a step -/

/-- Every valid slot stays valid. -/
def KeepsValid (s t : State) : Prop := ∀ k, s.valid.getLsbD k = true → t.valid.getLsbD k = true

/-- The step's turn is an access of a host that may still write, to NSECT of an idle block (10_state.md R28). -/
def HostWritesNsect (s : State) : Prop :=
  s.phase = .idle ∧ s.hostFault = none ∧ ∃ w v ts, s.turns = .host (.write Reg.nsect.addr w v) :: ts

/-- What can happen to VALID from one state to the next (46_track_buffer_system.md R276). -/
inductive ValidChange (s t : State) : Prop where
  | kept (same : t.valid = s.valid)
  | decoded (f : Flags) (now : performs s (.decode f)) (keeps : f.clrv = false → KeepsValid s t)
  | marked (f : Flags) (now : performs s (.markwr f)) (keeps : KeepsValid s t)
  | clearedByCommand (f : Flags) (now : performs s (.clrvalid f)) (cleared : t.valid = 0#32)
  | clearedByHost (now : HostWritesNsect s) (cleared : t.valid = 0#32)
  | clearedByReset (now : ∃ ts, s.turns = .reset :: ts) (cleared : t.valid = 0#32)

/-- DECODE with C = 0 keeps the bits its loop starts with (45_track_decode_encode.md R230, R240). -/
theorem decodeEnd_keepsValid {f : Flags} (keep : f.clrv = false) (s : State) {k : Nat} (bit : s.valid.getLsbD k = true) :
    (decodeEnd f s).valid.getLsbD k = true := by
  have start : (decodeStart f s).valid = s.valid := if_neg (ne_true_of_eq_false keep)
  have kept := (decodeEnd_keeps f s).mono k
  rw [start] at kept
  exact kept bit

/-- PERFORM: an error keeps VALID, and an effect does to it what `effectOf_valid` lists. -/
theorem validChange_of_perform {s t : State} {ts : List Turn} (hp : s.phase = .pending) (hm : blockMoves s)
    (h : perform { s with turns := ts } = .next t) : ValidChange s t := by
  obtain ⟨_, -, rfl⟩ | ⟨i, hd, -, ⟨-, -, rfl⟩ | ⟨-, -, rfl⟩ | ⟨-, rfl⟩⟩ := perform_next h
  · exact .kept rfl
  · have now : performs s i := ⟨hp, hm, hd⟩
    obtain same | ⟨f, rfl, -⟩ | ⟨f, rfl, -⟩ | ⟨f, rfl, -⟩ := effectOf_valid i { s with turns := ts }
    · exact .kept same
    · exact .decoded f now fun keep _ => decodeEnd_keepsValid keep _
    · exact .clearedByCommand f now rfl
    · exact .marked f now fun k => validBit_setValid_mono s.valid s.arg0.toNat k
  · exact .kept rfl
  · exact .kept rfl

/-- A register write clears VALID behind NSECT and else keeps it (10_state.md R28, R40). -/
theorem writeReg_valid (s : State) (v : Word) (r : Reg) :
    (s.writeReg v r).valid = if r = .nsect then 0#32 else s.valid := by cases r <;> rfl

/-- A host read keeps VALID, with or without a bus error or a protocol violation. -/
theorem hostRead_valid (s : State) (a : BlockAddr) (w : Width) : (s.hostRead a w).valid = s.valid := by
  unfold State.hostRead
  split
  · rfl
  · split <;> rfl

/-- An allowed host write changes VALID only at the address of NSECT. -/
theorem busStore_valid (s : State) (a : BlockAddr) (w : Width) (v : Word) :
    (s.busStore a.toNat w v).valid = if a = Reg.nsect.addr then 0#32 else s.valid := by
  by_cases ha : a = Reg.nsect.addr
  · subst ha
    rfl
  · rw [if_neg ha, State.busStore]
    split
    · split
      · rename_i r hr
        have other : r ≠ .nsect := by
          rintro rfl
          exact ha ((toNat_eq_offset_iff a .nsect).1 (ofOffset_some hr).symm)
        exact (writeReg_valid s v r).trans (if_neg other)
      · rfl
    · rfl

/-- A host write changes VALID only if it is allowed, to NSECT and while BUSY = 0, and then clears it
(10_state.md R28, 20_memory.md R67). -/
theorem hostWrite_valid (s : State) (a : BlockAddr) (w : Width) (v : Word) :
    (s.hostWrite a w v).valid = s.valid ∨
      (s.phase = .idle ∧ a = Reg.nsect.addr ∧ (s.hostWrite a w v).valid = 0#32) := by
  unfold State.hostWrite
  split
  · exact .inl rfl
  · split
    · exact .inl rfl
    · rename_i allowed
      by_cases ha : a = Reg.nsect.addr
      · refine .inr ⟨?_, ha, (busStore_valid s a w v).trans (if_pos ha)⟩
        refine s.phase.pending_or_idle.resolve_left fun pending => allowed ?_
        rw [busy_of_pending pending, ha]
        rfl
      · exact .inl ((busStore_valid s a w v).trans (if_neg ha))

/-- All a step can do to VALID. -/
theorem step_validChange {s t : State} (h : step s = .next t) : ValidChange s t := by
  obtain ⟨ts, hp, hm, h⟩ | ⟨op, ts, running, rfl, turn⟩ | ⟨ts, turn, rfl⟩ | ⟨ts, rfl⟩ := step_next h
  · exact validChange_of_perform hp hm h
  · cases op with
    | read a w => exact .kept (hostRead_valid _ a w)
    | write a w v =>
      obtain same | ⟨idle, rfl, cleared⟩ := hostWrite_valid { s with turns := ts } a w v
      · exact .kept same
      · obtain host | ⟨-, poll⟩ := turn
        · exact .clearedByHost ⟨idle, running, w, v, ts, host⟩ cleared
        · cases poll
  · exact .clearedByReset ⟨ts, turn⟩ rfl
  · exact .kept rfl

/-- What takes a VALID bit from 1 to 0. -/
theorem ValidChange.falls {s t : State} (h : ValidChange s t) {k : Nat} (before : s.valid.getLsbD k = true)
    (after : t.valid.getLsbD k = false) :
    (∃ f, performs s (.clrvalid f)) ∨ (∃ f, f.clrv = true ∧ performs s (.decode f)) ∨ HostWritesNsect s ∨
      ∃ ts, s.turns = .reset :: ts := by
  have lost (keeps : KeepsValid s t) : False := Bool.eq_false_iff.1 after (keeps k before)
  cases h with
  | kept same => exact (lost fun _ bit => same ▸ bit).elim
  | decoded f now keeps =>
    refine .inr (.inl ⟨f, ?_, now⟩)
    by_contra keep
    exact lost (keeps (Bool.eq_false_iff.2 keep))
  | marked f now keeps => exact (lost keeps).elim
  | clearedByCommand f now => exact .inl ⟨f, now⟩
  | clearedByHost now => exact .inr (.inr (.inl now))
  | clearedByReset now => exact .inr (.inr (.inr now))

/-- What takes a VALID bit from 0 to 1. -/
theorem ValidChange.rises {s t : State} (h : ValidChange s t) {k : Nat} (before : s.valid.getLsbD k = false)
    (after : t.valid.getLsbD k = true) : (∃ f, performs s (.decode f)) ∨ ∃ f, performs s (.markwr f) := by
  have notCleared (cleared : t.valid = 0#32) : False := by
    rw [cleared, BitVec.getLsbD_zero] at after
    cases after
  cases h with
  | kept same =>
    rw [same, before] at after
    cases after
  | decoded f now => exact .inl ⟨f, now⟩
  | marked f now => exact .inr ⟨f, now⟩
  | clearedByCommand _ _ cleared => exact (notCleared cleared).elim
  | clearedByHost _ cleared => exact (notCleared cleared).elim
  | clearedByReset _ cleared => exact (notCleared cleared).elim

/-- Settles O50: of the changes `ValidChange` lists, those that keep the set bits take none away, and those that clear VALID
set none. -/
theorem validityEpoch : Obligations.ValidityEpoch := fun _ _ h _ =>
  ⟨(step_validChange h).falls, (step_validChange h).rises⟩

end Sys2Proof.Machine

/-! The host sequences (47_host_sequences.md): the numbering of the blocks, `write_sector` on a cache hit, and the two cases in
which `sync` does nothing. -/
namespace Sys2Proof.Machine

/-! ### The block mapping (R303) -/

/-- The number of the block at a place: the inverse of `blockPlace`. -/
def blockNumber (spt : Nat) : Nat × Nat × Nat → Nat
  | (track, head, sub) => (track * heads + head) * spt + sub

/-- Track and head are the digits of `b / spt`, and `sub` is what the division leaves. -/
theorem blockNumber_blockPlace (spt b : Nat) : blockNumber spt (blockPlace spt b) = b :=
  calc (b / (heads * spt) * heads + b / spt % heads) * spt + b % spt
    _ = (b / spt / heads * heads + b / spt % heads) * spt + b % spt := by rw [Nat.mul_comm heads, Nat.div_div_eq_div_mul]
    _ = b / spt * spt + b % spt := by rw [Nat.div_add_mod']
    _ = b := Nat.div_add_mod' b spt

theorem blockPlace_injective (spt : Nat) : Function.Injective (blockPlace spt) :=
  Function.LeftInverse.injective (blockNumber_blockPlace spt)

theorem blockInRange_iff (f : Format) (b : Nat) : blockInRange f b = true ↔ b < heads * f.spt * f.cylinders := by
  rw [blockInRange, decide_eq_true_eq, Nat.mul_assoc, Nat.mul_comm]

/-- A volume with a block has sectors. -/
theorem spt_pos_of_blockInRange {f : Format} {b : Nat} (h : blockInRange f b = true) : 0 < f.spt := by
  have size : 0 < heads * f.spt * f.cylinders := Nat.zero_lt_of_lt ((blockInRange_iff f b).1 h)
  exact Nat.pos_of_mul_pos_left (Nat.pos_of_mul_pos_right size)

theorem sub_lt_spt {f : Format} {b : Nat} (h : blockInRange f b = true) : b % f.spt < f.spt :=
  Nat.mod_lt b (spt_pos_of_blockInRange h)

/-- Settles O58: `blockNumber` gives the block back, and so `blockPlace` never takes one place twice. -/
theorem blockMapping : Obligations.BlockMapping := fun f b inRange =>
  have track : b / (heads * f.spt) < f.cylinders := Nat.div_lt_of_lt_mul ((blockInRange_iff f b).1 inRange)
  have head : b / f.spt % heads < 2 := Nat.mod_lt _ Nat.two_pos
  ⟨track, head, sub_lt_spt inRange, blockNumber_blockPlace f.spt b, fun _ _ same => blockPlace_injective f.spt same⟩

namespace Volume

/-! ### Register writes and commands (30_encoding.md R104) -/

variable {v : Volume}

theorem wr_of_idle (idle : v.block.phase = .idle) (r : Reg) (n : Nat) :
    v.wr r n = { v with block := { v.block.writeReg (toWord n) r with busRead := none } } := by
  rw [wr, hostWrite_reg_idle idle]

/-- A command given to an idle block is issued, decoded to the instruction it was encoded from, and performed. -/
theorem cmd_of_exec {i : Instr} {w : Word} {t : State} (idle : v.block.phase = .idle) (wellFormed : WellFormed i = true)
    (word : encode i = .command w) (runs : exec i { v.block.issue w with busRead := none } = .next t) :
    v.cmd i = { v with block := t } := by
  have decoded : decodeCommand w = .ok i := (decodeOfEncode i wellFormed).1 w word
  have performed : perform (v.block.hostWrite Reg.cmd.addr .word w) = .next t := by
    rw [hostWrite_reg_idle idle, ← runs]
    exact perform_of_decode decoded
  simp only [cmd, word, performed]

/-- The block after ARG0 took a slot number and MARKWR was issued and performed. -/
def slotMarked (sub : Nat) (s : State) : State :=
  (markWritten { State.issue 0x0000000C#32 { s with arg0 := toWord sub } with busRead := none }).complete

/-- `wr ARG0, sub` and `cmd MARKWR`, for a slot the block has. -/
theorem markwr_of_idle {sub : Nat} (idle : v.block.phase = .idle) (sectors : v.block.nsect.toNat ≤ v.block.cfg.maxSectors)
    (slot : sub < v.block.nsect.toNat) :
    (v.wr .arg0 sub).cmd (.markwr (flags false false)) = { v with block := slotMarked sub v.block } := by
  have arg0 : (toWord sub).toNat = sub := toWord_toNat sub (by omega)
  rw [wr_of_idle idle]
  exact cmd_of_exec idle rfl rfl (exec_markwr _ (Nat.one_le_of_lt slot) sectors (arg0.trans_lt slot))

/-- A slot the block has is marked by its own bit of VALID. -/
theorem slotMarked_valid {sub : Nat} {s : State} (slot : sub < s.nsect.toNat) :
    (slotMarked sub s).valid = setValid s.valid sub :=
  congrArg (setValid s.valid) (toWord_toNat sub (by omega))

theorem readByte_slotMarked (sub : Nat) (s : State) (a : Nat) : (slotMarked sub s).readByte a = s.readByte a :=
  State.readByte_congr rfl rfl a

/-! ### `write_sector` on a cache hit (R305) -/

/-- On a hit the track is current already (R301). -/
theorem ensure_of_hit {track head : Nat} (hit : v.hit track head = true) : v.ensure track head = (true, v) :=
  if_pos hit

/-- On a hit `write_sector` stores the sector and marks its slot. -/
theorem writeSector_of_hit {f : Format} {b : Nat} {data : List Byte} (format : v.format = some f)
    (inRange : blockInRange f b = true) (idle : v.block.phase = .idle) (spt : f.spt = v.block.nsect.toNat)
    (sectors : f.spt ≤ v.block.cfg.maxSectors) (whole : data.length = v.block.cfg.sectorBytes)
    (hit : v.hit (blockPlace f.spt b).1 (blockPlace f.spt b).2.1 = true) :
    v.writeSector b data =
      (true, { v with
        block := slotMarked (b % f.spt) (v.block.storeBytes (slotAddr v.block.cfg (b % f.spt)) data) }) := by
  have slot : b % f.spt < v.block.nsect.toNat := spt ▸ sub_lt_spt inRange
  have all : data.take v.block.cfg.sectorBytes = data := List.take_of_length_le whole.le
  simp only [writeSector, format, inRange, if_true, ensure_of_hit hit, all]
  exact congrArg (true, ·) (markwr_of_idle idle (spt ▸ sectors) slot)

/-! ### `sync` without work (R306, R307) -/

theorem allValid_iff (s : State) : allValid s = true ↔ ∀ i, i < s.nsect.toNat → s.valid.getLsbD i = true := by
  rw [allValid, decide_eq_true_eq, countValid_eq, validCount_eq_iff]

/-- A clean track needs no sync. -/
theorem sync_of_clean (clean : v.block.cache.dirty = false) : v.sync = (true, v) := if_pos clean

/-- A dirty track with a sector missing is not written. -/
theorem sync_of_partial (dirty : v.block.cache.dirty = true) (missing : allValid v.block = false) : v.sync = (false, v) :=
  (if_neg (ne_false_of_eq_true dirty)).trans (if_pos missing)

end Volume

/-! ### The obligations about the sequences -/

/-- Settles O59: `writeSector_of_hit` names the block that is left, and its fields are those of `slotMarked`; marking the slot
stores nothing, so its bytes are those stored before. -/
theorem writeSectorHit : Obligations.WriteSectorHit := by
  intro v f b data format inRange idle spt sectors whole hit
  have slot : b % f.spt < v.block.nsect.toNat := spt ▸ sub_lt_spt inRange
  dsimp only
  rw [Volume.writeSector_of_hit format inRange idle spt sectors whole hit]
  refine ⟨rfl, rfl, fun i word => ?_, fun k inside => ?_, fun a outside => ?_⟩
  · exact (congrArg (validBit · i) (Volume.slotMarked_valid slot)).trans (validBit_setValid v.block.valid _ i word)
  · exact (Volume.readByte_slotMarked ..).trans (State.readByte_storeBytes_at _ _ _ k inside)
  · exact (Volume.readByte_slotMarked ..).trans (State.readByte_storeBytes_of_out _ _ _ a outside)

/-- Settles O60: a sector that is not valid keeps `allValid` from holding. -/
theorem syncWithoutWork : Obligations.SyncWithoutWork := by
  refine fun v => ⟨Volume.sync_of_clean, fun dirty ⟨i, within, invalid⟩ => Volume.sync_of_partial dirty ?_⟩
  exact Bool.eq_false_iff.2 fun all => Bool.eq_false_iff.1 invalid ((Volume.allValid_iff v.block).1 all i within)

end Sys2Proof.Machine

/-! Command errors and the interrupt output (60_exceptions.md R333 to R341): which check ends a command, what an error leaves
alone, and how IRQ rises and falls. -/
namespace Sys2Proof.Machine

/-! ### The checks of a command (R335, R336) -/

theorem exec_of_badConfig {i : Instr} {s : State} (mfm : isFmFraming i = false) (bad : badConfig i s) :
    exec i s = .next (afterError 2#4 s) := by
  rw [exec_eq, mfm, (badConfig_iff i s).1 bad]
  rfl

theorem exec_of_badArg {i : Instr} {s : State} (mfm : isFmFraming i = false) (config : ¬ badConfig i s) (bad : badArg i s) :
    exec i s = .next (afterError 3#4 s) := by
  have passed : configOk i s = true := Bool.of_not_eq_false (mt (badConfig_iff i s).2 config)
  rw [exec_eq, mfm, passed, (badArg_iff i s).1 bad]
  rfl

/-- A command that meets no condition of the check table has its effect and completes. -/
theorem exec_of_checked {i : Instr} {s : State} (mfm : isFmFraming i = false) (config : ¬ badConfig i s) (arg : ¬ badArg i s) :
    exec i s = .next (effectOf i s).complete :=
  exec_of_ok mfm (Bool.of_not_eq_false (mt (badConfig_iff i s).2 config)) (Bool.of_not_eq_false (mt (badArg_iff i s).2 arg))

/-- Settles O14: one lemma per outcome of the check table, and no effect touches ERR or ERRCODE. -/
theorem checkTable : Obligations.CheckTable := by
  refine fun i s mfm => ⟨exec_of_badConfig mfm, exec_of_badArg mfm, fun config arg => ?_⟩
  obtain ⟨err, errcode, -⟩ := effectOf_status i s
  exact ⟨_, exec_of_checked mfm config arg, rfl, rfl, err, errcode⟩

/-- Settles O15: every way PERFORM ends is a command error, but for the completion, which leaves ERR as it was. -/
theorem errorsArePrecise : Obligations.ErrorsArePrecise := by
  intro s t performed before after
  obtain ⟨_, -, rfl⟩ | ⟨i, -, -, ⟨-, -, rfl⟩ | ⟨-, -, rfl⟩ | ⟨-, rfl⟩⟩ := perform_next performed
  · exact ⟨1#4, .inl rfl, State.cmdError_eq .illegalCmd s⟩
  · have kept : (effectOf i s).complete.status.err = false := (effectOf_status i s).1.trans before
    exact absurd after (Bool.eq_false_iff.1 kept)
  · exact ⟨3#4, .inr (.inr rfl), State.cmdError_eq .badArg s⟩
  · exact ⟨2#4, .inr (.inl rfl), State.cmdError_eq .badConfig s⟩

/-! ### The interrupt output (R340, R341) -/

theorem irq_iff (s : State) :
    s.irq = true ↔ (s.status.done = true ∧ s.irqen.doneIe = true) ∨ (s.status.err = true ∧ s.irqen.errIe = true) := by
  rw [State.irq, Bool.or_eq_true, Bool.and_eq_true, Bool.and_eq_true]

/-- IRQ is low while neither of its sources is set. -/
theorem irq_of_status_clear {s : State} (done : s.status.done = false) (err : s.status.err = false) : s.irq = false := by
  rw [State.irq, done, err, Bool.false_and, Bool.false_and, Bool.or_false]

/-- IRQ is low while both of its sources are masked. -/
theorem irq_of_masked {s : State} (masked : s.irqen = .reset) : s.irq = false := by
  rw [State.irq, masked]
  simp only [IrqEn.reset, Bool.and_false, Bool.or_false]

/-- Settles O57: the two register writes a busy block takes too, and the issue, which an idle one takes, each clear both
sources or mask them. -/
theorem interruptLevel : Obligations.InterruptLevel := by
  refine fun s v => ⟨irq_iff s, ?_, ?_, fun idle => ?_⟩
  · rw [hostWrite_reg (r := .status) _ (Bool.and_false _)]
    exact irq_of_status_clear (Bool.and_false _) (Bool.and_false _)
  · rw [hostWrite_reg (r := .irqen) _ (Bool.and_false _)]
    exact irq_of_masked rfl
  · rw [hostWrite_reg_idle idle]
    exact irq_of_status_clear rfl rfl

end Sys2Proof.Machine

/-! The reset event (70_reset_and_hazards.md R370 to R372): what the registers and the memories read after it. -/
namespace Sys2Proof.Machine

/-- STATUS reads 0 in an idle block with no bit of it set. -/
theorem statusWord_of_reset {s : State} (idle : s.phase = .idle) (status : s.status = .reset) : s.statusWord = 0#32 := by
  rw [State.statusWord, busy_of_idle idle, status]
  rfl

theorem DState.toWord_reset : DState.reset.toWord = 0#32 := rfl

theorem Cache.toWord_reset : Cache.reset.toWord = 0#32 := rfl

/-- After a first reset every register but ID reads 0 (R371). -/
theorem readReg_resetWith (cfg : Config) {r : Reg} (other : r ≠ .id) : (State.resetWith cfg).readReg r = 0#32 := by
  cases r
  case id => exact absurd rfl other
  case status => exact statusWord_of_reset rfl rfl
  case dstate => exact DState.toWord_reset
  case cache => exact Cache.toWord_reset
  all_goals rfl

/-- The registers after any reset are those after a first one: what a reset keeps is not the block's (log 5). -/
theorem readReg_applyReset (s : State) (r : Reg) : s.applyReset.readReg r = (State.resetWith s.cfg).readReg r := by
  cases r <;> rfl

/-- After a reset no byte is listed, so each reads as its draw (R372). -/
theorem readByte_applyReset (s : State) (a : Nat) : s.applyReset.readByte a = Config.powerOnByte (s.epoch + 1) a := rfl

/-- Settles O16: `State.reset` is a first reset, and a later one gives the registers the same values. -/
theorem resetValues : Obligations.ResetValues := by
  rintro s (rfl | ⟨cfg, rfl⟩ | ⟨s', rfl⟩)
  · exact ⟨rfl, fun _ => readReg_resetWith _, rfl, rfl⟩
  · exact ⟨rfl, fun _ => readReg_resetWith cfg, rfl, rfl⟩
  · exact ⟨rfl, fun r other => (readReg_applyReset s' r).trans (readReg_resetWith _ other), rfl, rfl⟩

/-- Settles O17: the step of a reset turn is the reset, whatever command is pending. -/
theorem resetEndsThePendingCommand : Obligations.ResetEndsThePendingCommand := fun s _ next =>
  ⟨_, step_reset next, rfl, rfl, rfl, rfl, rfl, rfl, readByte_applyReset s⟩

end Sys2Proof.Machine
